-- ==== Sys2Proof/Word.lean ====
section
/-! DEFINITION. The word types of MCL-CRCFC (00_scope.md R8): bit 0 is the least significant bit, and a
value of width N is a `BitVec N`. Only the types; every operation on them stands under Machine/. -/

namespace Sys2Proof

/-- A byte of `BUF` or `XBUF`, an opcode, a field index as the command word holds it. -/
abbrev Byte := BitVec 8

/-- A 16-bit value: the CRC accumulator and the halves of `OPA` and `OPB`. -/
abbrev Half := BitVec 16

/-- A 32-bit register or command word. -/
abbrev Word := BitVec 32

end Sys2Proof
end

