-- ==== Sys2Proof/Syntax.lean ====
section
/-! DEFINITION. The 33 commands of 30_encoding.md R75, one constructor per row of the opcode table, in
the table's order. -/

namespace Sys2Proof

/-- The index operand of an I-form command (30_encoding.md R72, R73): a field number written in the
word, or the cursor (`C = 1`, where the word's `IDX` is ignored). -/
inductive Index where
  | field (k : Nat)
  | cursor
deriving DecidableEq, Repr

/-- One command. Operand values come from `OPA` and `OPB` (R74), so only I-form commands have an
operand of their own. -/
inductive Instr where
  | nop
  | sreset
  | crcSeed
  | crcInitN
  | crcInitI
  | crcByteN
  | crcByteI
  | crcRangeN
  | crcRangeI
  | msgCsum
  | msgSetcsum
  | msgVerify
  | clear
  | appU8
  | appU16
  | appI16
  | appU32
  | appI32
  | appBool
  | appFloat
  | appStr
  | locate (ix : Index)
  | fieldCount
  | rdU8 (ix : Index)
  | rdU16 (ix : Index)
  | rdI16 (ix : Index)
  | rdU32 (ix : Index)
  | rdI32 (ix : Index)
  | rdBytes (ix : Index)
  | curFirst
  | curLast
  | curNext
  | curPrev
deriving DecidableEq, Repr

end Sys2Proof
end

