-- ==== Sys2Proof/WellFormed.lean ====
section
/-! DEFINITION. Which terms of the syntax the encoding admits: a field number must fit `IDX[15:8]`
(30_encoding.md R71, R73: "an unsigned integer from 0 to 255"). -/

namespace Sys2Proof

/-- The index fits its eight bits. -/
def Index.wellFormed : Index → Bool
  | .field k => decide (k ≤ 255)
  | .cursor => true

/-- A Z-form command has no operand to check; an I-form command's index must fit. -/
def Instr.wellFormed : Instr → Bool
  | .nop => true
  | .sreset => true
  | .crcSeed => true
  | .crcInitN => true
  | .crcInitI => true
  | .crcByteN => true
  | .crcByteI => true
  | .crcRangeN => true
  | .crcRangeI => true
  | .msgCsum => true
  | .msgSetcsum => true
  | .msgVerify => true
  | .clear => true
  | .appU8 => true
  | .appU16 => true
  | .appI16 => true
  | .appU32 => true
  | .appI32 => true
  | .appBool => true
  | .appFloat => true
  | .appStr => true
  | .locate ix => ix.wellFormed
  | .fieldCount => true
  | .rdU8 ix => ix.wellFormed
  | .rdU16 ix => ix.wellFormed
  | .rdI16 ix => ix.wellFormed
  | .rdU32 ix => ix.wellFormed
  | .rdI32 ix => ix.wellFormed
  | .rdBytes ix => ix.wellFormed
  | .curFirst => true
  | .curLast => true
  | .curNext => true
  | .curPrev => true

end Sys2Proof
end

