-- ==== Sys2Proof/Decode.lean ====
section
/-! DEFINITION. The decoder of 30_encoding.md (one 32-bit word, R70), total on every word and rejecting
by name, and the encoder written from the same table (R71, R72, R75). -/

namespace Sys2Proof

/-! ## The fields of the command word (R71) -/

/-- `OP = [7:0]`. -/
def fieldOp (w : Word) : Byte := w.extractLsb' 0 8

/-- `IDX = [15:8]`. -/
def fieldIdx (w : Word) : Byte := w.extractLsb' 8 8

/-- `C = [16]`. -/
def fieldC (w : Word) : BitVec 1 := w.extractLsb' 16 1

/-- `RSV = [31:17]`. -/
def fieldRsv (w : Word) : BitVec 15 := w.extractLsb' 17 15

/-- A command word put together from its four fields, each at its place (R71, R78). -/
def commandWord (rsv : BitVec 15) (c : BitVec 1) (idx op : Byte) : Word :=
  op.setWidth 32 ||| (idx.setWidth 32 <<< 8) ||| (c.setWidth 32 <<< 16) ||| (rsv.setWidth 32 <<< 17)

/-! ## Decoding -/

/-- Why a word is illegal (R76). All three execute as `fail(ILLEGAL)`. -/
inductive Illegal where
  /-- `OP` is not in the table of R75. -/
  | unassignedOpcode
  /-- `RSV` is not 0. -/
  | reservedBits
  /-- A Z-form opcode with `IDX` or `C` not 0. -/
  | indexOnZForm
deriving DecidableEq, Repr

/-- The Z-form opcodes of R75. -/
def zForm (op : Byte) : Option Instr :=
  match op.toNat with
  | 0x00 => some .nop
  | 0x01 => some .sreset
  | 0x10 => some .crcSeed
  | 0x11 => some .crcInitN
  | 0x12 => some .crcInitI
  | 0x13 => some .crcByteN
  | 0x14 => some .crcByteI
  | 0x15 => some .crcRangeN
  | 0x16 => some .crcRangeI
  | 0x18 => some .msgCsum
  | 0x19 => some .msgSetcsum
  | 0x1A => some .msgVerify
  | 0x20 => some .clear
  | 0x21 => some .appU8
  | 0x22 => some .appU16
  | 0x23 => some .appI16
  | 0x24 => some .appU32
  | 0x25 => some .appI32
  | 0x26 => some .appBool
  | 0x27 => some .appFloat
  | 0x28 => some .appStr
  | 0x31 => some .fieldCount
  | 0x38 => some .curFirst
  | 0x39 => some .curLast
  | 0x3A => some .curNext
  | 0x3B => some .curPrev
  | _ => none

/-- The I-form opcodes of R75, with the index the word's `IDX` and `C` give. -/
def iForm (op : Byte) (ix : Index) : Option Instr :=
  match op.toNat with
  | 0x30 => some (.locate ix)
  | 0x32 => some (.rdU8 ix)
  | 0x33 => some (.rdU16 ix)
  | 0x34 => some (.rdI16 ix)
  | 0x35 => some (.rdU32 ix)
  | 0x36 => some (.rdI32 ix)
  | 0x37 => some (.rdBytes ix)
  | _ => none

/-- The index operand (R73): with `C = 1` the word's `IDX` is ignored. -/
def indexOf (c : BitVec 1) (idx : Byte) : Index :=
  if c = 1#1 then .cursor else .field idx.toNat

/-- Decode one command word (R70 to R76). -/
def decode (w : Word) : Except Illegal Instr :=
  match zForm (fieldOp w) with
  | some i =>
    if fieldRsv w = 0#15 then
      if fieldIdx w = 0#8 ∧ fieldC w = 0#1 then .ok i else .error .indexOnZForm
    else .error .reservedBits
  | none =>
    match iForm (fieldOp w) (indexOf (fieldC w) (fieldIdx w)) with
    | some i => if fieldRsv w = 0#15 then .ok i else .error .reservedBits
    | none => .error .unassignedOpcode

/-! ## Encoding -/

/-- The opcode of R75. -/
def opcode : Instr → Byte
  | .nop => 0x00#8
  | .sreset => 0x01#8
  | .crcSeed => 0x10#8
  | .crcInitN => 0x11#8
  | .crcInitI => 0x12#8
  | .crcByteN => 0x13#8
  | .crcByteI => 0x14#8
  | .crcRangeN => 0x15#8
  | .crcRangeI => 0x16#8
  | .msgCsum => 0x18#8
  | .msgSetcsum => 0x19#8
  | .msgVerify => 0x1A#8
  | .clear => 0x20#8
  | .appU8 => 0x21#8
  | .appU16 => 0x22#8
  | .appI16 => 0x23#8
  | .appU32 => 0x24#8
  | .appI32 => 0x25#8
  | .appBool => 0x26#8
  | .appFloat => 0x27#8
  | .appStr => 0x28#8
  | .locate _ => 0x30#8
  | .fieldCount => 0x31#8
  | .rdU8 _ => 0x32#8
  | .rdU16 _ => 0x33#8
  | .rdI16 _ => 0x34#8
  | .rdU32 _ => 0x35#8
  | .rdI32 _ => 0x36#8
  | .rdBytes _ => 0x37#8
  | .curFirst => 0x38#8
  | .curLast => 0x39#8
  | .curNext => 0x3A#8
  | .curPrev => 0x3B#8

/-- The index operand of an I-form command; a Z-form command has none. -/
def indexOperand : Instr → Option Index
  | .locate ix => some ix
  | .rdU8 ix => some ix
  | .rdU16 ix => some ix
  | .rdI16 ix => some ix
  | .rdU32 ix => some ix
  | .rdI32 ix => some ix
  | .rdBytes ix => some ix
  | .nop => none
  | .sreset => none
  | .crcSeed => none
  | .crcInitN => none
  | .crcInitI => none
  | .crcByteN => none
  | .crcByteI => none
  | .crcRangeN => none
  | .crcRangeI => none
  | .msgCsum => none
  | .msgSetcsum => none
  | .msgVerify => none
  | .clear => none
  | .appU8 => none
  | .appU16 => none
  | .appI16 => none
  | .appU32 => none
  | .appI32 => none
  | .appBool => none
  | .appFloat => none
  | .appStr => none
  | .fieldCount => none
  | .curFirst => none
  | .curLast => none
  | .curNext => none
  | .curPrev => none

/-- Encode a well-formed command (R72, R78): Z-form `zext(OP)`, I-form `OP OR (n << 8)` or
`OP OR 0x00010000`. -/
def encode (i : Instr) : Word :=
  match indexOperand i with
  | none => commandWord 0#15 0#1 0#8 (opcode i)
  | some (.field k) => commandWord 0#15 0#1 (BitVec.ofNat 8 k) (opcode i)
  | some .cursor => commandWord 0#15 1#1 0#8 (opcode i)

/-- The instruction the decoder reads from the low `nbits` bits of `w`, numbered as
spec/opcode_table.json numbers them; a command is one 32-bit word, so no bit stands above bit 31. -/
def decodeTableWord (nbits w : Nat) : Option Instr :=
  if w % 2 ^ nbits < 2 ^ 32 then
    match decode (BitVec.ofNat 32 (w % 2 ^ nbits)) with
    | .ok i => some i
    | .error _ => none
  else none

end Sys2Proof
end

