-- ==== Sys2Proof/Config.lean ====
section
/-! DEFINITION. The implementation parameters of 00_scope.md R5 and the free values of the model. The
bounds of R6 and `PAYLOAD_CAP` stand in Machine/Ops.lean. -/

namespace Sys2Proof

/-- The four parameters fixed at construction (00_scope.md R5), read by the host in `CFG0` to `CFG2`
(10_state.md R29). They stand in the state, so that every statement is about every configuration. -/
structure Config where
  /-- `DELIM`, the delimiter byte: OPEN in the spec (log entry 3). -/
  delim : Byte
  /-- `MAXSIZE`, the largest legal message length `8 + dataSize`. -/
  maxSize : Nat
  /-- `BUF_SIZE`, the bytes of the message buffer. -/
  bufSize : Nat
  /-- `XBUF_SIZE`, the bytes of the staging buffer. -/
  xbufSize : Nat
deriving DecidableEq, Repr

/-- The defaults of 00_scope.md R5. `delim` has none in the spec: DESIGN CHOICE, `0x7C` is the value
its examples use (log entry 3; unsafe). -/
def Config.default : Config := ⟨0x7C#8, 186, 256, 256⟩

/-- FREE VALUE (10_state.md R41): the byte that cell `i` of `XBUF` holds from power-up number `n` until
something writes it. No body: nothing can be proved of it (log entry 5; safe). -/
opaque Config.xbufPowerUp (n i : Nat) : Byte

end Sys2Proof
end

