-- ==== Sys2Proof/Machine/State.lean ====
section
/-! DEFINITION. The state of the block (10_state.md), plain data, its reset value (R40), and the reasons
a step can stop. -/

namespace Sys2Proof.Machine

/-- A byte buffer: the listed cells, offsets strictly rising; what an unlisted offset reads as is
`Memory.unlisted` (Machine/Memory.lean). -/
abbrev Memory := List Host.Cell

/-- The block's two buffers (10_state.md R30, R33). -/
inductive Buffer where
  | buf
  | xbuf
deriving DecidableEq, Repr

/-- One host access `(access, offset, width, value)` (30_encoding.md R78): `offset` in bytes from the
block's base, `width` in bits. An 8-bit write carries its byte in the low bits of `value`
(log entry 10). -/
inductive Access where
  | read (offset width : Nat)
  | write (offset width : Nat) (value : Word)
deriving DecidableEq, Repr

/-- What the block's outside does to it, one at a time (20_memory.md R60): the host's accesses, and the
platform's power-up and reset input (70_reset_and_hazards.md R240; log entry 8). -/
inductive Input where
  | access (a : Access)
  | resetInput
  | powerUp
deriving DecidableEq, Repr

/-- The value a host read was answered with: a 32-bit register or a buffer byte (20_memory.md R55). -/
inductive Reply where
  | word (v : Word)
  | byte (v : Byte)
deriving DecidableEq, Repr

/-- The block raises no trap and no exception and has no fatal state (60_exceptions.md R210, R214), so
there is no fault: the type has no constructor (log entry 13; safe). -/
inductive Fault where
deriving DecidableEq, Repr

/-- Why the model has no step. All are safe: nothing is claimed of a host program that makes them. -/
inductive Refusal where
  /-- Raised by `exec` for an instruction whose meaning is not written: no arm raises it. Safe. -/
  | notModelled (mnemonic : String)
  /-- Raised by a host access to an unmapped offset (20_memory.md R57). Safe. -/
  | unmappedOffset
  /-- Raised by a host access of a width or alignment R55 does not admit (20_memory.md R57). Safe. -/
  | widthOrAlignment
  /-- Raised by a host write to a read-only register (20_memory.md R57). Safe. -/
  | readOnlyRegister
  /-- Raised by a step of a block whose parameters break 00_scope.md R6. Safe. -/
  | badConfiguration
deriving DecidableEq, Repr

/-- The state of the block: the tuple of 10_state.md R20, the configuration of R29, and the three
fields of the model's own at the end. -/
structure State where
  /-- `CMD` (R21): the last command word written. -/
  cmd : Word
  /-- `OPA` (R22). -/
  opa : Word
  /-- `OPB` (R23). -/
  opb : Word
  /-- `RES` (R24). -/
  res : Word
  /-- `STATUS.CODE` (R25); `STATUS[31:4]` is stuck at 0 (R39). -/
  code : BitVec 4
  /-- `CRC` (R26), the accumulator. -/
  crc : Half
  /-- `LSTART` (R27). -/
  lstart : Byte
  /-- `LLEN` (R27). -/
  llen : Byte
  /-- `CIDX` (R28), the cursor's index. -/
  cidx : Byte
  /-- `FCOUNT` (R28), the cached field count. -/
  fcount : BitVec 9
  /-- `CVALID` (R28): `FCOUNT` holds a computed count. -/
  cvalid : Bool
  /-- `BUF` (R30); `DSIZE` is its byte 5 (R31). -/
  buf : Memory
  /-- `XBUF` (R33): the cells written since power-up. -/
  xbuf : Memory
  /-- `CFG0` to `CFG2` (R29): the parameters, constant. -/
  cfg : Config
  /-- The model's own: the number of the power-up whose `XBUF` draw holds (log entry 6). -/
  powerUps : Nat
  /-- The model's own: the inputs still to be performed, first one first (log entry 1). -/
  inputs : List Input
  /-- The model's own: what the host's reads were answered with, oldest first (log entry 7). -/
  replies : List Reply
deriving DecidableEq, Repr

/-- The state after power-up number `n` of a block built with the parameters `c` (R40, R240): every
register 0, `BUF` all zero, `XBUF` unwritten; no input waits and nothing was read. -/
def State.atPowerUp (c : Config) (n : Nat) : State where
  cmd := 0#32
  opa := 0#32
  opb := 0#32
  res := 0#32
  code := 0#4
  crc := 0#16
  lstart := 0#8
  llen := 0#8
  cidx := 0#8
  fcount := 0#9
  cvalid := false
  buf := []
  xbuf := []
  cfg := c
  powerUps := n
  inputs := []
  replies := []

/-- The machine right after its first power-up, with the default parameters (R5, R40; log entries 3, 4
and 6). -/
def State.reset : State := State.atPowerUp Config.default 0

end Sys2Proof.Machine
end

