-- ==== Sys2Proof/Machine/Flags.lean ====
section
/-! DEFINITION. The block's only flag state, the completion code `STATUS.CODE` (10_state.md R25, R35;
60_exceptions.md R211). -/

namespace Sys2Proof.Machine

/-- The completion codes of 60_exceptions.md R211. Codes 7 to 15 are never produced. -/
inductive Code where
  /-- The command completed. -/
  | ok
  /-- An append would make `dataSize` exceed `MAXSIZE - 8`. -/
  | oversize
  /-- The field index is not below the segment count, or the cursor has no field. -/
  | notFound
  /-- A numeric reader found an empty segment or one longer than its width. -/
  | format
  /-- A buffer range leaves its buffer, or a float has no 32-bit integer part. -/
  | range
  /-- `MSG_VERIFY` found a checksum mismatch. -/
  | auth
  /-- The command word is illegal. -/
  | illegal
deriving DecidableEq, Repr

/-- The number of a completion code (R211). -/
def codeBits : Code → BitVec 4
  | .ok => 0#4
  | .oversize => 1#4
  | .notFound => 2#4
  | .format => 3#4
  | .range => 4#4
  | .auth => 5#4
  | .illegal => 6#4

/-- `STATUS` as the host reads it: `CODE` in `[3:0]`, `[31:4]` 0 (20_memory.md R56). -/
def statusWord (s : State) : Word := s.code.setWidth 32

end Sys2Proof.Machine
end

