-- ==== Sys2Proof/Machine/Memory.lean ====
section
/-! DEFINITION. The two byte buffers as lists in one canonical form: what an unlisted offset reads as,
looking up, writing, and the form itself. -/

namespace Sys2Proof.Machine

/-- What an unlisted offset reads as: `BUF` is all `0x00` at reset (10_state.md R40); an `XBUF` cell
nothing has written has no value of its own (R41), and a read of it gives the power-up draw
(`State.xbufByte`). -/
def Memory.unlisted : Buffer → Option Byte
  | .buf => some 0#8
  | .xbuf => none

/-- The listed byte at an offset. -/
def Memory.lookup : Memory → Nat → Option Byte
  | [], _ => none
  | (b, v) :: m, a => if b = a then some v else Memory.lookup m a

/-- List `v` at `a`, in its place. -/
def Memory.insert (a : Nat) (v : Byte) : Memory → Memory
  | [] => [(a, v)]
  | (b, w) :: m =>
    if a < b then (a, v) :: (b, w) :: m
    else if a = b then (a, v) :: m
    else (b, w) :: Memory.insert a v m

/-- Take every entry at `a` out. -/
def Memory.erase (a : Nat) (m : Memory) : Memory := m.filter fun c => decide (c.1 ≠ a)

/-- Write one byte: the value an unlisted offset reads as is not listed. -/
def Memory.write (k : Buffer) (m : Memory) (a : Nat) (v : Byte) : Memory :=
  if Memory.unlisted k = some v then Memory.erase a m else Memory.insert a v m

/-- `MemWrite` (00_scope.md R11): consecutive bytes from `a` on, in rising order. -/
def Memory.writeBytes (k : Buffer) (m : Memory) (a : Nat) : List Byte → Memory
  | [] => m
  | b :: bs => Memory.writeBytes k (Memory.write k m a b) (a + 1) bs

/-- Offsets strictly rise, and all stand above `lo` where one is given. -/
def Memory.rising : Option Nat → Memory → Bool
  | _, [] => true
  | none, (b, _) :: m => Memory.rising (some b) m
  | some lo, (b, _) :: m => decide (lo < b) && Memory.rising (some b) m

/-- The canonical form of buffer `k`: offsets strictly rising, no entry equal to what an unlisted
offset reads as. -/
def Memory.wf (k : Buffer) (m : Memory) : Bool :=
  Memory.rising none m && m.all fun c => decide (Memory.unlisted k ≠ some c.2)

/-- Every listed offset lies inside a buffer of `size` bytes. -/
def Memory.within (size : Nat) (m : Memory) : Bool :=
  m.all fun c => decide (c.1 < size)

end Sys2Proof.Machine
end

