-- ==== Sys2Proof/Machine/Ops.lean ====
section
/-! DEFINITION. The operations every command is written over: field updates, buffer access, ending a
command, byte order, the checksum functions, segments, the append step, the cursor step, reset. -/

namespace Sys2Proof.Machine

/-! ## The configuration (00_scope.md R5, R6) -/

/-- `HDR_LEN`, the header's bytes (R5). -/
def hdrLen : Nat := 6

/-- `TRL_LEN`, the checksum trailer's bytes (R5). -/
def trlLen : Nat := 2

/-- `PAYLOAD_CAP = MAXSIZE - 8` (R5). -/
def payloadCap (c : Config) : Nat := c.maxSize - (hdrLen + trlLen)

/-- The bounds of R6; `DELIM` is a byte by its type. -/
def configOk (c : Config) : Bool :=
  decide (9 ≤ c.maxSize) && decide (c.maxSize ≤ c.bufSize) && decide (c.maxSize ≤ 263) &&
  decide (c.bufSize ≤ 4096) && decide (payloadCap c ≤ c.xbufSize) && decide (c.xbufSize ≤ 4096)

/-! ## Field updates -/

def State.setCmd (s : State) (v : Word) : State := { s with cmd := v }
def State.setOpa (s : State) (v : Word) : State := { s with opa := v }
def State.setOpb (s : State) (v : Word) : State := { s with opb := v }
def State.setRes (s : State) (v : Word) : State := { s with res := v }
def State.setCode (s : State) (c : Code) : State := { s with code := codeBits c }
def State.setCrc (s : State) (v : Half) : State := { s with crc := v }
def State.setLoc (s : State) (start len : Byte) : State := { s with lstart := start, llen := len }
def State.setCidx (s : State) (v : Byte) : State := { s with cidx := v }
def State.setCount (s : State) (n : BitVec 9) (valid : Bool) : State :=
  { s with fcount := n, cvalid := valid }
def State.setBuf (s : State) (m : Memory) : State := { s with buf := m }
def State.setXbuf (s : State) (m : Memory) : State := { s with xbuf := m }
def State.setInputs (s : State) (is : List Input) : State := { s with inputs := is }
def State.addReply (s : State) (r : Reply) : State := { s with replies := s.replies ++ [r] }

/-! ## Ending a command (00_scope.md R11) -/

/-- `finish(code)`: the command ends, and `STATUS.CODE` takes its code. -/
def finish (c : Code) (s : State) : Host.Outcome State Fault Refusal := .next (s.setCode c)

/-- `fail(code)` at the state `s` the command started in: nothing but the code is written. It is the
block's whole error entry: no trap, nothing saved (60_exceptions.md R210, R214, R217). -/
def fail (c : Code) (s : State) : Host.Outcome State Fault Refusal := .next (s.setCode c)

/-! ## The buffers (20_memory.md R59) -/

/-- `BUF[a]`. -/
def State.bufByte (s : State) (a : Nat) : Byte :=
  ((Memory.lookup s.buf a).or (Memory.unlisted .buf)).getD 0#8

/-- `XBUF[a]`: a byte nothing has written since power-up is that power-up's draw (10_state.md R41). -/
def State.xbufByte (s : State) (a : Nat) : Byte :=
  ((Memory.lookup s.xbuf a).or (Memory.unlisted .xbuf)).getD (Config.xbufPowerUp s.powerUps a)

/-- `MemRead(BUF, a, n)` (00_scope.md R11). -/
def State.bufRange (s : State) (a n : Nat) : List Byte :=
  (List.range n).map fun j => s.bufByte (a + j)

/-- `MemRead(XBUF, a, n)`. -/
def State.xbufRange (s : State) (a n : Nat) : List Byte :=
  (List.range n).map fun j => s.xbufByte (a + j)

/-- `MemWrite(BUF, a, len(bs), bs)`. -/
def State.putBuf (s : State) (a : Nat) (bs : List Byte) : State :=
  s.setBuf (Memory.writeBytes .buf s.buf a bs)

/-- `MemWrite(XBUF, a, len(bs), bs)`. -/
def State.putXbuf (s : State) (a : Nat) (bs : List Byte) : State :=
  s.setXbuf (Memory.writeBytes .xbuf s.xbuf a bs)

/-- The offset of `dataSize` in a message (10_state.md R30, R31). -/
def dsizeOffset : Nat := 5

/-- `DSIZE`, the alias of `BUF[5]` (R31). -/
def State.dsize (s : State) : Nat := (s.bufByte dsizeOffset).toNat

/-- `PAY[0..DSIZE)` (R30). -/
def State.payload (s : State) : List Byte := s.bufRange hdrLen s.dsize

/-! ## Byte order (00_scope.md R10) -/

/-- `be_bytes(v, w)`: the `w` bytes of `v mod 2^(8w)`, most significant first. -/
def beBytes (v : Int) (w : Nat) : List Byte :=
  (List.range w).map fun j => BitVec.ofNat 8 ((v % 2 ^ (8 * w)).toNat / 2 ^ (8 * (w - 1 - j)))

/-- `be_value(bs)`: the bytes as one big-endian unsigned integer. -/
def beValue : List Byte → Nat
  | [] => 0
  | b :: bs => b.toNat * 2 ^ (8 * bs.length) + beValue bs

/-- `int_bytes(v)` (42_field_encode.md R133): the first range that holds `v` gives the width. -/
def intBytes (v : Int) : List Byte :=
  if 0 ≤ v ∧ v ≤ 255 then beBytes v 1
  else if (256 ≤ v ∧ v ≤ 65535) ∨ (-32768 ≤ v ∧ v ≤ -1) then beBytes v 2
  else beBytes v 4

/-! ## The checksum functions (41_crc.md R100, R101) -/

/-- One shift of the normal function, with its 17-bit intermediate (R100). -/
def crcNShift (a : Half) : Half :=
  let b : BitVec 17 := a.setWidth 17 <<< 1
  (if b.getLsbD 16 then b ^^^ 0x1021#17 else b).setWidth 16

/-- `crc_n_byte` (R100). -/
def crcNByte (acc : Half) (b : Byte) : Half :=
  crcNShift^[8] (acc ^^^ (b.setWidth 16 <<< 8))

/-- `crc_n` (R100). -/
def crcN (acc : Half) (bs : List Byte) : Half := bs.foldl crcNByte acc

/-- One shift of the inverse function (R101). -/
def crcIShift (a : Half) : Half :=
  if a.getLsbD 0 then (a >>> 1) ^^^ 0x8408#16 else a >>> 1

/-- `crc_i_byte` (R101). -/
def crcIByte (acc : Half) (b : Byte) : Half :=
  crcIShift^[8] (acc ^^^ b.setWidth 16)

/-- `crc_i` (R101). -/
def crcI (acc : Half) (bs : List Byte) : Half := bs.foldl crcIByte acc

/-- The high and low byte of a checksum: its trailer (20_memory.md R52). -/
def checksumBytes (c : Half) : List Byte := [c.extractLsb' 8 8, c.extractLsb' 0 8]

/-! ## Segments (43_field_decode.md R160, R162) -/

/-- `check_payload()` passes: the payload lies inside `BUF`. -/
def payloadInside (s : State) : Bool := decide (hdrLen + s.dsize ≤ s.cfg.bufSize)

/-- The loop of `locate(k)` at payload offset `i`, in segment `seg`, which starts at `start`. -/
def locateFrom (delim : Byte) (k : Nat) : List Byte → Nat → Nat → Nat → Option (Nat × Nat)
  | [], i, seg, start => if seg = k then some (start, i - start) else none
  | b :: bs, i, seg, start =>
    if b = delim then
      if seg = k then some (start, i - start)
      else locateFrom delim k bs (i + 1) (seg + 1) (i + 1)
    else locateFrom delim k bs (i + 1) seg start

/-- `locate(k)`: the start and length of segment `k` of a payload. -/
def locate (delim : Byte) (k : Nat) (pay : List Byte) : Option (Nat × Nat) :=
  if pay = [] then none else locateFrom delim k pay 0 0 0

/-- `fieldCount()`: delimiters plus one, 0 for the empty payload. -/
def countFields (delim : Byte) (pay : List Byte) : Nat :=
  if pay = [] then 0 else (pay.filter fun b => decide (b = delim)).length + 1

/-- Find segment `k` of the payload, with the checks of R160 and R161 in their order. -/
def findSegment (k : Nat) (s : State) : Except Code (Nat × Nat) :=
  if payloadInside s then
    match locate s.cfg.delim k s.payload with
    | none => .error .notFound
    | some r => .ok r
  else .error .range

/-- `PAY[st..st+ln)`. -/
def State.segment (s : State) (r : Nat × Nat) : List Byte := s.bufRange (hdrLen + r.1) r.2

/-- `read_uint(index, w)` (R163). -/
def readUint (k w : Nat) (s : State) : Except Code Nat :=
  match findSegment k s with
  | .error c => .error c
  | .ok r => if r.2 = 0 ∨ w < r.2 then .error .format else .ok (beValue (s.segment r))

/-- A numeric reader: `RES` takes what `result` makes of the reassembled value (R164 to R169). -/
def readNumber (k w : Nat) (result : Nat → Word) (s : State) : Host.Outcome State Fault Refusal :=
  match readUint k w s with
  | .error c => fail c s
  | .ok u => finish .ok (s.setRes (result u))

/-! ## The append step (42_field_encode.md R130) -/

/-- The delimiter goes before a new field when one is already present. -/
def separator (s : State) : List Byte := if 0 < s.dsize then [s.cfg.delim] else []

/-- `new`: the `DSIZE` an append of `bs` would leave. -/
def sizeAfter (s : State) (bs : List Byte) : Nat := s.dsize + (separator s).length + bs.length

/-- `append_bytes(bs)`. -/
def appendBytes (bs : List Byte) (s : State) : Host.Outcome State Fault Refusal :=
  if payloadCap s.cfg < sizeAfter s bs then fail .oversize s
  else
    finish .ok ((s.putBuf (hdrLen + s.dsize) (separator s ++ bs)).putBuf dsizeOffset
      [BitVec.ofNat 8 (sizeAfter s bs)])

/-! ## The cursor step (43_field_decode.md section 3) -/

/-- `ensure_count()`: `none` where its payload check fails. -/
def ensureCount (s : State) : Option State :=
  if s.cvalid then some s
  else if payloadInside s then
    some (s.setCount (BitVec.ofNat 9 (countFields s.cfg.delim s.payload)) true)
  else none

/-- `clamp(x) = min(max(x, 0), FCOUNT - 1)`. -/
def clampIndex (s : State) (x : Int) : Byte :=
  BitVec.ofInt 8 (min (max x 0) ((s.fcount.toNat : Int) - 1))

/-- A cursor command that moves to `clamp(target)`, with the count filled first (R170 to R173). -/
def moveCursor (target : State → Int) (s : State) : Host.Outcome State Fault Refusal :=
  match ensureCount s with
  | none => fail .range s
  | some u =>
    if u.fcount = 0#9 then finish .notFound (u.setCidx 0#8)
    else
      finish .ok ((u.setCidx (clampIndex u (target u))).setRes
        ((clampIndex u (target u)).setWidth 32))

/-! ## Reset (10_state.md R40, 70_reset_and_hazards.md R240) -/

/-- Every piece of state at its reset value but `CMD` and `XBUF`; the parameters are constant, and the
queues of the outside are not the block's. -/
def State.resetKeepingCmd (s : State) : State :=
  { State.atPowerUp s.cfg s.powerUps with
    cmd := s.cmd, xbuf := s.xbuf, inputs := s.inputs, replies := s.replies }

/-- The reset input: as above, and `CMD` is 0; `XBUF` is kept. -/
def State.resetByInput (s : State) : State := s.resetKeepingCmd.setCmd 0#32

/-- A power-up: the reset state, with a fresh draw of `XBUF` (R41). -/
def State.powerUpAgain (s : State) : State :=
  { State.atPowerUp s.cfg (s.powerUps + 1) with inputs := s.inputs, replies := s.replies }

end Sys2Proof.Machine
end

