-- ==== Sys2Proof/Machine/Control.lean ====
section
/-! DEFINITION. The control commands (45_control.md). -/

namespace Sys2Proof.Machine

/-- `NOP` (R200). -/
def execNop (s : State) : Host.Outcome State Fault Refusal := finish .ok s

/-- `SRESET` (R201): `CMD` keeps its word and `XBUF` its content. -/
def execSreset (s : State) : Host.Outcome State Fault Refusal := finish .ok s.resetKeepingCmd

end Sys2Proof.Machine
end

