-- ==== Sys2Proof/Machine/Operands.lean ====
section
/-! DEFINITION. Operand assembly (30_encoding.md R73, R74): which bits of `OPA` and `OPB` a command
reads and the integer they denote, and the index of an I-form command. -/

namespace Sys2Proof.Machine

/-- `OPA[7:0]`. -/
def opaByte (s : State) : Byte := s.opa.extractLsb' 0 8

/-- `OPA[15:0]`. -/
def opaHalf (s : State) : Half := s.opa.extractLsb' 0 16

/-- `OPB[15:0]`. -/
def opbHalf (s : State) : Half := s.opb.extractLsb' 0 16

/-- `zext(OPA[7:0])`, the value of `APP_U8`. -/
def valueU8 (s : State) : Int := (opaByte s).toNat

/-- `zext(OPA[15:0])`, the value of `APP_U16`. -/
def valueU16 (s : State) : Int := (opaHalf s).toNat

/-- `sext(OPA[15:0])`, the value of `APP_I16`. -/
def valueI16 (s : State) : Int := (opaHalf s).toInt

/-- `zext(OPA)`, the value of `APP_U32`. -/
def valueU32 (s : State) : Int := s.opa.toNat

/-- `sext(OPA)`, the value of `APP_I32`. -/
def valueI32 (s : State) : Int := s.opa.toInt

/-- The boolean of `APP_BOOL`: 1 for every non-zero `OPA` (R74, 42_field_encode.md R140). -/
def valueBool (s : State) : Byte := if s.opa = 0#32 then 0x00#8 else 0x01#8

/-- The start offset of `CRC_RANGE_*` and of the message commands, `OPA[15:0]`. -/
def startOffset (s : State) : Nat := (opaHalf s).toNat

/-- The byte count of `CRC_RANGE_*` and the string length of `APP_STR`, `OPB[15:0]`. -/
def byteCount (s : State) : Nat := (opbHalf s).toNat

/-- The field index of an I-form command (R73): `CIDX` when `C = 1`, else `IDX`, zero-extended. -/
def indexValue (s : State) : Index → Nat
  | .field k => k
  | .cursor => s.cidx.toNat

/-- The binary32 value `OPA` of `APP_FLOAT`, truncated toward zero (42_field_encode.md R141): the
significand `m` or `2^23 + m` is scaled by `2^(e - 150)` (`2^-149` when `e = 0`), and the fraction of
its magnitude is dropped. `none` for an infinity or a NaN. The format is the spec's own general
knowledge (PRESUMED there; log entry 14). -/
def truncFloat (w : Word) : Option Int :=
  let e := (w.extractLsb' 23 8).toNat
  let m := (w.extractLsb' 0 23).toNat
  if e = 0xFF then none
  else
    let magnitude : Nat :=
      if e = 0 then m / 2 ^ 149
      else if e < 150 then (2 ^ 23 + m) / 2 ^ (150 - e)
      else (2 ^ 23 + m) * 2 ^ (e - 150)
    some (if w.extractLsb' 31 1 = 1#1 then -(magnitude : Int) else (magnitude : Int))

end Sys2Proof.Machine
end

