-- ==== Sys2Proof/Machine/Crc.lean ====
section
/-! DEFINITION. The Checksum Engine commands (41_crc.md). -/

namespace Sys2Proof.Machine

/-- `CRC_SEED` (R102). -/
def execCrcSeed (s : State) : Host.Outcome State Fault Refusal := finish .ok (s.setCrc (opaHalf s))

/-- `CRC_INIT_N` (R103). -/
def execCrcInitN (s : State) : Host.Outcome State Fault Refusal := finish .ok (s.setCrc 0x0000#16)

/-- `CRC_INIT_I` (R104). -/
def execCrcInitI (s : State) : Host.Outcome State Fault Refusal := finish .ok (s.setCrc 0xFFFF#16)

/-- `CRC_BYTE_N` (R105). -/
def execCrcByteN (s : State) : Host.Outcome State Fault Refusal :=
  finish .ok (s.setCrc (crcNByte s.crc (opaByte s)))

/-- `CRC_BYTE_I` (R106). -/
def execCrcByteI (s : State) : Host.Outcome State Fault Refusal :=
  finish .ok (s.setCrc (crcIByte s.crc (opaByte s)))

/-- Feed `BUF[a..a+n)` to a checksum function, or fail with `RANGE` (R107, R108). -/
def feedRange (crc : Half → List Byte → Half) (s : State) : Host.Outcome State Fault Refusal :=
  if s.cfg.bufSize < startOffset s + byteCount s then fail .range s
  else finish .ok (s.setCrc (crc s.crc (s.bufRange (startOffset s) (byteCount s))))

/-- `CRC_RANGE_N` (R107). -/
def execCrcRangeN (s : State) : Host.Outcome State Fault Refusal := feedRange crcN s

/-- `CRC_RANGE_I` (R108). -/
def execCrcRangeI (s : State) : Host.Outcome State Fault Refusal := feedRange crcI s

/-- `BUF[s+5]`, the `dataSize` of the message that starts at `start` (R110). -/
def messageSize (start : Nat) (s : State) : Nat := (s.bufByte (start + dsizeOffset)).toNat

/-- The checksum of the message at `start`: inverse, seed `0xFFFF`, header and payload (R110). -/
def messageChecksum (start : Nat) (s : State) : Half :=
  crcI 0xFFFF#16 (s.bufRange start (hdrLen + messageSize start s))

/-- The header, and then the message with `extra` more bytes, lie inside `BUF` (R110 to R112). -/
def messageInside (start extra : Nat) (s : State) : Bool :=
  decide (start + hdrLen ≤ s.cfg.bufSize) &&
    decide (start + hdrLen + messageSize start s + extra ≤ s.cfg.bufSize)

/-- `MSG_CSUM` (R110). -/
def execMsgCsum (s : State) : Host.Outcome State Fault Refusal :=
  let start := startOffset s
  let c := messageChecksum start s
  if messageInside start 0 s then finish .ok ((s.setCrc c).setRes (c.setWidth 32))
  else fail .range s

/-- `MSG_SETCSUM` (R111). -/
def execMsgSetcsum (s : State) : Host.Outcome State Fault Refusal :=
  let start := startOffset s
  let c := messageChecksum start s
  if messageInside start trlLen s then
    finish .ok (((s.putBuf (start + hdrLen + messageSize start s) (checksumBytes c)).setCrc c).setRes
      (c.setWidth 32))
  else fail .range s

/-- `MSG_VERIFY` (R112). -/
def execMsgVerify (s : State) : Host.Outcome State Fault Refusal :=
  let start := startOffset s
  let c := messageChecksum start s
  if messageInside start trlLen s then
    if s.bufRange (start + hdrLen + messageSize start s) trlLen = checksumBytes c then
      finish .ok ((s.setCrc c).setRes 1#32)
    else finish .auth ((s.setCrc c).setRes 0#32)
  else fail .range s

end Sys2Proof.Machine
end

