-- ==== Sys2Proof/Machine/Cursor.lean ====
section
/-! DEFINITION. The cursor commands (43_field_decode.md section 3). -/

namespace Sys2Proof.Machine

/-- `CUR_FIRST` (R170). -/
def execCurFirst (s : State) : Host.Outcome State Fault Refusal := moveCursor (fun _ => 0) s

/-- `CUR_LAST` (R171). -/
def execCurLast (s : State) : Host.Outcome State Fault Refusal :=
  moveCursor (fun u => (u.fcount.toNat : Int) - 1) s

/-- `CUR_NEXT` (R172). -/
def execCurNext (s : State) : Host.Outcome State Fault Refusal :=
  moveCursor (fun u => (u.cidx.toNat : Int) + 1) s

/-- `CUR_PREV` (R173): `0 - 1` clamps to 0. -/
def execCurPrev (s : State) : Host.Outcome State Fault Refusal :=
  moveCursor (fun u => (u.cidx.toNat : Int) - 1) s

end Sys2Proof.Machine
end

