-- ==== Sys2Proof/Machine/FieldDecode.lean ====
section
/-! DEFINITION. `locate`, the field count and the readers (43_field_decode.md sections 1 and 2). -/

namespace Sys2Proof.Machine

/-- `LOCATE` (R161). -/
def execLocate (ix : Index) (s : State) : Host.Outcome State Fault Refusal :=
  match findSegment (indexValue s ix) s with
  | .error c => fail c s
  | .ok r => finish .ok (s.setLoc (BitVec.ofNat 8 r.1) (BitVec.ofNat 8 r.2))

/-- `FIELD_COUNT` (R162): the cursor's cache is neither read nor filled. -/
def execFieldCount (s : State) : Host.Outcome State Fault Refusal :=
  if payloadInside s then
    finish .ok (s.setRes (BitVec.ofNat 32 (countFields s.cfg.delim s.payload)))
  else fail .range s

/-- `RD_U8` (R164). -/
def execRdU8 (ix : Index) (s : State) : Host.Outcome State Fault Refusal :=
  readNumber (indexValue s ix) 1 (BitVec.ofNat 32) s

/-- `RD_U16` (R165). -/
def execRdU16 (ix : Index) (s : State) : Host.Outcome State Fault Refusal :=
  readNumber (indexValue s ix) 2 (BitVec.ofNat 32) s

/-- `RD_I16` (R166): the 16-bit reassembly is sign-extended. -/
def execRdI16 (ix : Index) (s : State) : Host.Outcome State Fault Refusal :=
  readNumber (indexValue s ix) 2 (fun u => (BitVec.ofNat 16 u).signExtend 32) s

/-- `RD_U32` (R168). -/
def execRdU32 (ix : Index) (s : State) : Host.Outcome State Fault Refusal :=
  readNumber (indexValue s ix) 4 (BitVec.ofNat 32) s

/-- `RD_I32` (R169): no sign extension from the field's own length. -/
def execRdI32 (ix : Index) (s : State) : Host.Outcome State Fault Refusal :=
  readNumber (indexValue s ix) 4 (BitVec.ofNat 32) s

/-- `RD_BYTES` (R167). -/
def execRdBytes (ix : Index) (s : State) : Host.Outcome State Fault Refusal :=
  match findSegment (indexValue s ix) s with
  | .error c => fail c s
  | .ok r =>
    if s.cfg.xbufSize < r.2 then fail .range s
    else finish .ok ((s.putXbuf 0 (s.segment r)).setRes (BitVec.ofNat 32 r.2))

end Sys2Proof.Machine
end

