-- ==== Sys2Proof/Machine/FieldEncode.lean ====
section
/-! DEFINITION. Clearing and the append commands (42_field_encode.md). -/

namespace Sys2Proof.Machine

/-- `CLEAR` (R132): all of `BUF` is `0x00` again, so no cell is listed. -/
def execClear (s : State) : Host.Outcome State Fault Refusal :=
  finish .ok ((((s.setBuf []).setCidx 0#8).setCount 0#9 false).setLoc 0#8 0#8)

/-- `APP_U8` (R135). -/
def execAppU8 (s : State) : Host.Outcome State Fault Refusal := appendBytes (intBytes (valueU8 s)) s

/-- `APP_U16` (R136). -/
def execAppU16 (s : State) : Host.Outcome State Fault Refusal := appendBytes (intBytes (valueU16 s)) s

/-- `APP_I16` (R137). -/
def execAppI16 (s : State) : Host.Outcome State Fault Refusal := appendBytes (intBytes (valueI16 s)) s

/-- `APP_U32` (R138). -/
def execAppU32 (s : State) : Host.Outcome State Fault Refusal := appendBytes (intBytes (valueU32 s)) s

/-- `APP_I32` (R139). -/
def execAppI32 (s : State) : Host.Outcome State Fault Refusal := appendBytes (intBytes (valueI32 s)) s

/-- `APP_BOOL` (R140). -/
def execAppBool (s : State) : Host.Outcome State Fault Refusal := appendBytes [valueBool s] s

/-- `APP_FLOAT` (R141): always four bytes; `RANGE` comes before `OVERSIZE`. -/
def execAppFloat (s : State) : Host.Outcome State Fault Refusal :=
  match truncFloat s.opa with
  | none => fail .range s
  | some t =>
    if t < -2 ^ 31 ∨ 2 ^ 31 - 1 < t then fail .range s else appendBytes (beBytes t 4) s

/-- `APP_STR` (R142): `RANGE` comes before `OVERSIZE`. -/
def execAppStr (s : State) : Host.Outcome State Fault Refusal :=
  if s.cfg.xbufSize < byteCount s then fail .range s
  else appendBytes (s.xbufRange 0 (byteCount s)) s

end Sys2Proof.Machine
end

