-- ==== Sys2Proof/Machine/Dispatch.lean ====
section
/-! DEFINITION. One arm per command: the meaning it calls. -/

namespace Sys2Proof.Machine

/-- What a command does at the state its word found (`CMD` already holds the word, 10_state.md R21). -/
def exec (i : Instr) (s : State) : Host.Outcome State Fault Refusal :=
  match i with
  | .nop => Sys2Proof.Machine.execNop s
  | .sreset => Sys2Proof.Machine.execSreset s
  | .crcSeed => Sys2Proof.Machine.execCrcSeed s
  | .crcInitN => Sys2Proof.Machine.execCrcInitN s
  | .crcInitI => Sys2Proof.Machine.execCrcInitI s
  | .crcByteN => Sys2Proof.Machine.execCrcByteN s
  | .crcByteI => Sys2Proof.Machine.execCrcByteI s
  | .crcRangeN => Sys2Proof.Machine.execCrcRangeN s
  | .crcRangeI => Sys2Proof.Machine.execCrcRangeI s
  | .msgCsum => Sys2Proof.Machine.execMsgCsum s
  | .msgSetcsum => Sys2Proof.Machine.execMsgSetcsum s
  | .msgVerify => Sys2Proof.Machine.execMsgVerify s
  | .clear => Sys2Proof.Machine.execClear s
  | .appU8 => Sys2Proof.Machine.execAppU8 s
  | .appU16 => Sys2Proof.Machine.execAppU16 s
  | .appI16 => Sys2Proof.Machine.execAppI16 s
  | .appU32 => Sys2Proof.Machine.execAppU32 s
  | .appI32 => Sys2Proof.Machine.execAppI32 s
  | .appBool => Sys2Proof.Machine.execAppBool s
  | .appFloat => Sys2Proof.Machine.execAppFloat s
  | .appStr => Sys2Proof.Machine.execAppStr s
  | .locate ix => Sys2Proof.Machine.execLocate ix s
  | .fieldCount => Sys2Proof.Machine.execFieldCount s
  | .rdU8 ix => Sys2Proof.Machine.execRdU8 ix s
  | .rdU16 ix => Sys2Proof.Machine.execRdU16 ix s
  | .rdI16 ix => Sys2Proof.Machine.execRdI16 ix s
  | .rdU32 ix => Sys2Proof.Machine.execRdU32 ix s
  | .rdI32 ix => Sys2Proof.Machine.execRdI32 ix s
  | .rdBytes ix => Sys2Proof.Machine.execRdBytes ix s
  | .curFirst => Sys2Proof.Machine.execCurFirst s
  | .curLast => Sys2Proof.Machine.execCurLast s
  | .curNext => Sys2Proof.Machine.execCurNext s
  | .curPrev => Sys2Proof.Machine.execCurPrev s

end Sys2Proof.Machine
end

