-- ==== Sys2Proof/Machine/Bus.lean ====
section
/-! DEFINITION. The host interface (20_memory.md): the address map, the effect of each access, the
running of a command word, and the performing of one input. -/

namespace Sys2Proof.Machine

/-! ## The address map (R56) -/

/-- The registers of the map. -/
inductive Reg where
  | cmd
  | opa
  | opb
  | res
  | status
  | crc
  | loc
  | cursor
  | cfg0
  | cfg1
  | cfg2
deriving DecidableEq, Repr

/-- What an offset of the map names. -/
inductive Target where
  | register (r : Reg)
  | bufCell (i : Nat)
  | xbufCell (i : Nat)
deriving DecidableEq, Repr

/-- The register at an offset. -/
def registerAt : Nat → Option Reg
  | 0x000 => some .cmd
  | 0x004 => some .opa
  | 0x008 => some .opb
  | 0x00C => some .res
  | 0x010 => some .status
  | 0x014 => some .crc
  | 0x018 => some .loc
  | 0x01C => some .cursor
  | 0x020 => some .cfg0
  | 0x024 => some .cfg1
  | 0x028 => some .cfg2
  | _ => none

/-- What an offset names in a block with the parameters `c`; `none` where nothing is mapped. -/
def targetAt (c : Config) (offset : Nat) : Option Target :=
  match registerAt offset with
  | some r => some (.register r)
  | none =>
    if 0x1000 ≤ offset ∧ offset < 0x1000 + c.bufSize then some (.bufCell (offset - 0x1000))
    else if 0x2000 ≤ offset ∧ offset < 0x2000 + c.xbufSize then some (.xbufCell (offset - 0x2000))
    else none

/-- Why an access at an offset that names nothing is refused (R57): inside a register's bytes it is
misaligned, elsewhere unmapped (log entry 9). -/
def noTarget (offset : Nat) : Refusal :=
  if offset < 0x02C ∧ offset % 4 ≠ 0 then .widthOrAlignment else .unmappedOffset

/-! ## Registers as the host reads them (R56) -/

/-- `LOC`: `[7:0] LSTART`, `[15:8] LLEN`, `[31:16]` 0. -/
def locWord (s : State) : Word := s.lstart.setWidth 32 ||| (s.llen.setWidth 32 <<< 8)

/-- `CURSOR`: `[7:0] CIDX`, `[15:8]` 0, `[24:16] FCOUNT`, `[30:25]` 0, `[31] CVALID`. -/
def cursorWord (s : State) : Word :=
  s.cidx.setWidth 32 ||| (s.fcount.setWidth 32 <<< 16) ||| ((BitVec.ofBool s.cvalid).setWidth 32 <<< 31)

/-- `CFG0`: `[7:0] DELIM`, `[31:8]` 0. -/
def cfg0Word (c : Config) : Word := c.delim.setWidth 32

/-- `CFG1`: `[15:0] MAXSIZE`, `[31:16] BUF_SIZE`. -/
def cfg1Word (c : Config) : Word :=
  (BitVec.ofNat 16 c.maxSize).setWidth 32 ||| ((BitVec.ofNat 16 c.bufSize).setWidth 32 <<< 16)

/-- `CFG2`: `[15:0] XBUF_SIZE`, `[31:16]` 0. -/
def cfg2Word (c : Config) : Word := (BitVec.ofNat 16 c.xbufSize).setWidth 32

/-- The word a read of a register gives. -/
def registerWord (s : State) : Reg → Word
  | .cmd => s.cmd
  | .opa => s.opa
  | .opb => s.opb
  | .res => s.res
  | .status => statusWord s
  | .crc => s.crc.setWidth 32
  | .loc => locWord s
  | .cursor => cursorWord s
  | .cfg0 => cfg0Word s.cfg
  | .cfg1 => cfg1Word s.cfg
  | .cfg2 => cfg2Word s.cfg

/-! ## Accesses (R55 to R58) -/

/-- A host write to `CMD` (10_state.md R21): the word is stored and the command it encodes runs; an
illegal word executes as `fail(ILLEGAL)` (30_encoding.md R76). -/
def runCommand (w : Word) (s : State) : Host.Outcome State Fault Refusal :=
  match decode w with
  | .ok i => exec i (s.setCmd w)
  | .error _ => fail .illegal (s.setCmd w)

/-- A 32-bit write to a register. -/
def writeRegister (r : Reg) (v : Word) (s : State) : Host.Outcome State Fault Refusal :=
  match r with
  | .cmd => runCommand v s
  | .opa => .next (s.setOpa v)
  | .opb => .next (s.setOpb v)
  | .res => .refused .readOnlyRegister
  | .status => .refused .readOnlyRegister
  | .crc => .refused .readOnlyRegister
  | .loc => .refused .readOnlyRegister
  | .cursor => .refused .readOnlyRegister
  | .cfg0 => .refused .readOnlyRegister
  | .cfg1 => .refused .readOnlyRegister
  | .cfg2 => .refused .readOnlyRegister

/-- One host access. Registers are 32 bits wide, buffer cells 8 (R55); a read changes nothing of the
block (R58). -/
def performAccess (a : Access) (s : State) : Host.Outcome State Fault Refusal :=
  match a with
  | .read offset width =>
    match targetAt s.cfg offset with
    | none => .refused (noTarget offset)
    | some (.register r) =>
      if width = 32 then .next (s.addReply (.word (registerWord s r))) else .refused .widthOrAlignment
    | some (.bufCell i) =>
      if width = 8 then .next (s.addReply (.byte (s.bufByte i))) else .refused .widthOrAlignment
    | some (.xbufCell i) =>
      if width = 8 then .next (s.addReply (.byte (s.xbufByte i))) else .refused .widthOrAlignment
  | .write offset width value =>
    match targetAt s.cfg offset with
    | none => .refused (noTarget offset)
    | some (.register r) =>
      if width = 32 then writeRegister r value s else .refused .widthOrAlignment
    | some (.bufCell i) =>
      if width = 8 then .next (s.putBuf i [value.extractLsb' 0 8]) else .refused .widthOrAlignment
    | some (.xbufCell i) =>
      if width = 8 then .next (s.putXbuf i [value.extractLsb' 0 8]) else .refused .widthOrAlignment

/-! ## Inputs (R60) -/

/-- One input of the outside. -/
def performInput (x : Input) (s : State) : Host.Outcome State Fault Refusal :=
  match x with
  | .access a => performAccess a s
  | .resetInput => .next s.resetByInput
  | .powerUp => .next s.powerUpAgain

/-- Perform the first input that waits; with none waiting nothing happens (log entry 2). A block whose
parameters break 00_scope.md R6 is refused. -/
def performNext (s : State) : Host.Outcome State Fault Refusal :=
  if configOk s.cfg then
    match s.inputs with
    | [] => .next s
    | x :: rest => performInput x (s.setInputs rest)
  else .refused .badConfiguration

/-- The host writes a command word next. -/
def State.withCommandWord (s : State) (w : Word) : State :=
  s.setInputs (.access (.write 0x000 32 w) :: s.inputs)

end Sys2Proof.Machine
end

