-- ==== Sys2Proof/Machine/Step.lean ====
section
/-! DEFINITION. One step: the next input of the host or the platform, performed whole (20_memory.md
R60). -/

namespace Sys2Proof.Machine

/-- One step of the machine. The block fetches nothing (10_state.md R34): its program is the host's
accesses, which wait in `inputs` (log entry 1). -/
def step (s : State) : Host.Outcome State Fault Refusal := performNext s

/-- `s` with the instruction of `nbits` bits `w` where the step finds its next one: a host write of that
command word, put before the inputs that wait. -/
def State.withFetchWord (s : State) (nbits w : Nat) : State :=
  s.withCommandWord (BitVec.ofNat 32 (w % 2 ^ nbits))

end Sys2Proof.Machine
end

