-- ==== Sys2Proof/Safety.lean ====
section
/-! DEFINITION. The terms the statements use: the invariant of the block, runs of appends and of
checksum feeds, the effect of an append, and the round-trip table. Nothing here is part of the
machine. -/

namespace Sys2Proof.Machine

/-- What every step keeps. -/
structure State.Inv (s : State) : Prop where
  /-- The parameters meet 00_scope.md R6. -/
  config : configOk s.cfg = true
  /-- `BUF` is in canonical form. -/
  bufForm : Memory.wf .buf s.buf = true
  /-- `XBUF` is in canonical form. -/
  xbufForm : Memory.wf .xbuf s.xbuf = true
  /-- No byte outside `BUF[0..BUF_SIZE)` is held (20_memory.md R59). -/
  bufInside : Memory.within s.cfg.bufSize s.buf = true
  /-- No byte outside `XBUF[0..XBUF_SIZE)` is held (20_memory.md R59). -/
  xbufInside : Memory.within s.cfg.xbufSize s.xbuf = true
  /-- Codes 7 to 15 are never produced (60_exceptions.md R211). -/
  codeLegal : s.code.toNat ≤ 6
  /-- `FCOUNT` has values 0 to 256 (10_state.md R28). -/
  countLegal : s.fcount.toNat ≤ 256
  /-- Until a count is computed the cursor is as `CLEAR` and reset leave it (10_state.md R28). -/
  cursorFresh : s.cvalid = false → s.fcount = 0#9 ∧ s.cidx = 0#8
  /-- The cursor is clamped to `[0, fieldCount-1]` (10_state.md R28). -/
  cursorClamped : s.cidx.toNat = 0 ∨ s.cidx.toNat < s.fcount.toNat
  /-- The located segment lies inside a payload of at most 255 bytes (10_state.md R27). -/
  locInside : s.lstart.toNat + s.llen.toNat ≤ 255

/-- The append commands (30_encoding.md R75). -/
def appendCommands : List Instr :=
  [.appU8, .appU16, .appI16, .appU32, .appI32, .appBool, .appFloat, .appStr]

/-- The cursor commands (30_encoding.md R75). -/
def cursorCommands : List Instr := [.curFirst, .curLast, .curNext, .curPrev]

/-- The commands of 41_crc.md, the only ones with reset that write `CRC` (10_state.md R26). -/
def engineCommands : List Instr :=
  [.crcSeed, .crcInitN, .crcInitI, .crcByteN, .crcByteI, .crcRangeN, .crcRangeI, .msgCsum,
    .msgSetcsum, .msgVerify]

/-- The bytes of the field an append command would add at `s` (42_field_encode.md R133 to R142); `none`
for any other command, and for a float with no integer part. A float's bytes are those of the binary32
reading of log entry 14. -/
def fieldBytes (i : Instr) (s : State) : Option (List Byte) :=
  match i with
  | .appU8 => some (intBytes (valueU8 s))
  | .appU16 => some (intBytes (valueU16 s))
  | .appI16 => some (intBytes (valueI16 s))
  | .appU32 => some (intBytes (valueU32 s))
  | .appI32 => some (intBytes (valueI32 s))
  | .appBool => some [valueBool s]
  | .appFloat => (truncFloat s.opa).map fun t => beBytes t 4
  | .appStr => some (s.xbufRange 0 (byteCount s))
  | _ => none

/-- `t` is `s` after `append_bytes(bs)` succeeded (42_field_encode.md R130), byte by byte: nothing but
`BUF` and the code changed, and of `BUF` only `DSIZE`, the delimiter and the field. -/
def Appended (bs : List Byte) (s t : State) : Prop :=
  let d := s.dsize
  let sep := if 0 < d then 1 else 0
  t = { s with buf := t.buf, code := 0#4 } ∧
  t.dsize = d + sep + bs.length ∧
  (0 < d → t.bufByte (6 + d) = s.cfg.delim) ∧
  (∀ j (h : j < bs.length), t.bufByte (6 + d + sep + j) = bs[j]) ∧
  (∀ a, a ≠ 5 → (a < 6 + d ∨ 6 + d + sep + bs.length ≤ a) → t.bufByte a = s.bufByte a)

/-- The whole effect of the append command `i` at `s` when its field is `bs`: `OVERSIZE` with nothing
else written, or `Appended`. -/
def AppendEffect (i : Instr) (s : State) (bs : List Byte) : Prop :=
  if s.cfg.maxSize - 8 < s.dsize + (if 0 < s.dsize then 1 else 0) + bs.length then
    exec i s = .next { s with code := 1#4 }
  else ∃ t, exec i s = .next t ∧ Appended bs s t

/-- A run of successful appends from `s` to `t`. Each entry is a command and the state it started in:
between two appends the host may change anything but `BUF` and the parameters. -/
def AppendRun : State → List (Instr × State) → State → Prop
  | s, [], t => t = s
  | s, (i, u) :: es, t =>
    u.buf = s.buf ∧ u.cfg = s.cfg ∧ i ∈ appendCommands ∧
      ∃ v, exec i u = .next v ∧ v.code = 0#4 ∧ AppendRun v es t

/-- The field an entry of a run added. -/
def entryBytes (e : Instr × State) : List Byte := (fieldBytes e.1 e.2).getD []

/-- The bytes a feeding command gives the accumulator (41_crc.md R105 to R108). -/
def fedBytes (i : Instr) (s : State) : List Byte :=
  match i with
  | .crcByteN => [opaByte s]
  | .crcByteI => [opaByte s]
  | .crcRangeN => s.bufRange (startOffset s) (byteCount s)
  | .crcRangeI => s.bufRange (startOffset s) (byteCount s)
  | _ => []

/-- The checksum function of a feeding command's convention (41_crc.md R105 to R108). -/
def feedFunction (i : Instr) (c : Half) (bs : List Byte) : Half :=
  match i with
  | .crcByteN => crcN c bs
  | .crcRangeN => crcN c bs
  | .crcByteI => crcI c bs
  | .crcRangeI => crcI c bs
  | _ => c

/-- A run of successful feeds from accumulator `a` to `b`: between two feeds the host may change
anything, but each starts with the accumulator the one before left. -/
def FeedRun : Half → List (Instr × State) → Half → Prop
  | a, [], b => b = a
  | a, (i, u) :: es, b =>
    i ∈ [Instr.crcByteN, .crcByteI, .crcRangeN, .crcRangeI] ∧ u.crc = a ∧
      ∃ v, exec i u = .next v ∧ v.code = 0#4 ∧ FeedRun v.crc es b

/-- The reader `i` gives `v`: `RES` takes it, the code is `OK`, nothing else changes. -/
def Reads (i : Instr) (s : State) (v : Word) : Prop :=
  exec i s = .next { s with res := v, code := 0#4 }

/-- The table of 43_field_decode.md R175: the field that command `i` added at `u` reads back so at `w`,
where `ix` names it. -/
def ReadsBack (i : Instr) (u w : State) (ix : Index) : Prop :=
  match i with
  | .appU8 =>
    ∀ r ∈ [Instr.rdU8 ix, .rdU16 ix, .rdU32 ix, .rdI16 ix, .rdI32 ix],
      Reads r w ((u.opa.extractLsb' 0 8).setWidth 32)
  | .appU16 =>
    Reads (.rdU16 ix) w ((u.opa.extractLsb' 0 16).setWidth 32) ∧
    Reads (.rdU32 ix) w ((u.opa.extractLsb' 0 16).setWidth 32) ∧
    (if (u.opa.extractLsb' 0 16).toNat ≤ 255 then
      Reads (.rdU8 ix) w ((u.opa.extractLsb' 0 16).setWidth 32)
    else exec (.rdU8 ix) w = .next { w with code := 3#4 })
  | .appI16 =>
    Reads (.rdI16 ix) w ((u.opa.extractLsb' 0 16).signExtend 32) ∧
    Reads (.rdI32 ix) w ((u.opa.extractLsb' 0 16).setWidth 32)
  | .appU32 => Reads (.rdU32 ix) w u.opa
  | .appI32 =>
    if -32768 ≤ u.opa.toInt ∧ u.opa.toInt ≤ -1 then
      Reads (.rdI32 ix) w (u.opa + 65536#32) ∧ Reads (.rdI16 ix) w u.opa
    else Reads (.rdI32 ix) w u.opa
  | .appBool => Reads (.rdU8 ix) w (if u.opa = 0#32 then 0#32 else 1#32)
  | .appFloat => ∀ t, truncFloat u.opa = some t → Reads (.rdI32 ix) w (BitVec.ofInt 32 t)
  | .appStr =>
    ∃ x, exec (.rdBytes ix) w = .next x ∧
      x = { w with xbuf := x.xbuf, res := BitVec.ofNat 32 (byteCount u), code := 0#4 } ∧
      ∀ j, x.xbufByte j = if j < byteCount u then u.xbufByte j else w.xbufByte j
  | _ => True

/-- The bits of `OPA` and `OPB` that a command reads (30_encoding.md R74). -/
def operandMask : Instr → Word × Word
  | .crcSeed => (0x0000FFFF#32, 0#32)
  | .crcByteN => (0x000000FF#32, 0#32)
  | .crcByteI => (0x000000FF#32, 0#32)
  | .crcRangeN => (0x0000FFFF#32, 0x0000FFFF#32)
  | .crcRangeI => (0x0000FFFF#32, 0x0000FFFF#32)
  | .msgCsum => (0x0000FFFF#32, 0#32)
  | .msgSetcsum => (0x0000FFFF#32, 0#32)
  | .msgVerify => (0x0000FFFF#32, 0#32)
  | .appU8 => (0x000000FF#32, 0#32)
  | .appU16 => (0x0000FFFF#32, 0#32)
  | .appI16 => (0x0000FFFF#32, 0#32)
  | .appU32 => (0xFFFFFFFF#32, 0#32)
  | .appI32 => (0xFFFFFFFF#32, 0#32)
  | .appBool => (0xFFFFFFFF#32, 0#32)
  | .appFloat => (0xFFFFFFFF#32, 0#32)
  | .appStr => (0#32, 0x0000FFFF#32)
  | _ => (0#32, 0#32)

/-- The codes a legal word of a command can end with (60_exceptions.md R213). -/
def codesOf : Instr → List (BitVec 4)
  | .nop | .sreset | .crcSeed | .crcInitN | .crcInitI | .crcByteN | .crcByteI | .clear => [0#4]
  | .crcRangeN | .crcRangeI | .msgCsum | .msgSetcsum | .fieldCount => [0#4, 4#4]
  | .msgVerify => [0#4, 5#4, 4#4]
  | .appU8 | .appU16 | .appI16 | .appU32 | .appI32 | .appBool => [0#4, 1#4]
  | .appFloat | .appStr => [0#4, 1#4, 4#4]
  | .locate _ | .rdBytes _ => [0#4, 2#4, 4#4]
  | .rdU8 _ | .rdU16 _ | .rdI16 _ | .rdU32 _ | .rdI32 _ => [0#4, 2#4, 3#4, 4#4]
  | .curFirst | .curLast | .curNext | .curPrev => [0#4, 2#4, 4#4]

/-- The value of a finite binary32 pattern (42_field_encode.md R141), as a rational number. -/
def binary32Value (w : Word) : ℚ :=
  let e := (w.extractLsb' 23 8).toNat
  let m := (w.extractLsb' 0 23).toNat
  (if w.extractLsb' 31 1 = 1#1 then -1 else 1) *
    (if e = 0 then (m : ℚ) * 2 ^ (-149 : ℤ) else (2 ^ 23 + (m : ℚ)) * 2 ^ ((e : ℤ) - 150))

/-- Truncation toward zero (42_field_encode.md R141). -/
def truncRat (x : ℚ) : ℤ := if 0 ≤ x then ⌊x⌋ else ⌈x⌉

end Sys2Proof.Machine
end

