-- ==== Sys2Proof/Certificates/Slice0/Obligations.lean ====
section
/-! DEFINITION. The statements for the provers. Each is about every state, so about every configuration
and every draw of the free `XBUF` bytes. Code numbers are those of 60_exceptions.md R211: 0 `OK`,
1 `OVERSIZE`, 2 `NOTFOUND`, 3 `FORMAT`, 4 `RANGE`, 5 `AUTH`, 6 `ILLEGAL`. Where a statement speaks of
`inputs` or `replies`, these are the model's own lists of what the host does and reads (log entries 1 and 7),
and a reset input or power-up is one of the inputs (log entry 8). -/

open Sys2Proof Sys2Proof.Machine

/-! ## Encoding (30_encoding.md) -/

/-- Decoding the encoding of a well-formed command gives that command, for every command and every
index (R71, R72, R75). -/
def Obligations.DecodeOfEncodeIsTheCommand : Prop :=
  ∀ i : Instr, i.wellFormed = true → decode (encode i) = .ok i

/-- A word that decodes is the encoding of its command, but for the `IDX` bits that `C = 1` makes the
block ignore (R72, R73). -/
def Obligations.DecodedWordIsTheEncoding : Prop :=
  ∀ (w : Word) (i : Instr), decode w = .ok i →
    i.wellFormed = true ∧ encode i = (if w.getLsbD 16 then w &&& 0xFFFF00FF#32 else w)

/-- A word is illegal exactly when R76 says so, and then it only leaves `CMD` and the code `ILLEGAL`. -/
def Obligations.IllegalWordsAreThoseOfRuleSeventySix : Prop :=
  ∀ w : Word,
    let op := w.extractLsb' 0 8
    let zForm := op ∈ [0x00#8, 0x01#8, 0x10#8, 0x11#8, 0x12#8, 0x13#8, 0x14#8, 0x15#8, 0x16#8, 0x18#8,
      0x19#8, 0x1A#8, 0x20#8, 0x21#8, 0x22#8, 0x23#8, 0x24#8, 0x25#8, 0x26#8, 0x27#8, 0x28#8, 0x31#8,
      0x38#8, 0x39#8, 0x3A#8, 0x3B#8]
    let iForm := op ∈ [0x30#8, 0x32#8, 0x33#8, 0x34#8, 0x35#8, 0x36#8, 0x37#8]
    let illegal := (¬ zForm ∧ ¬ iForm) ∨ w.extractLsb' 17 15 ≠ 0#15 ∨
      (zForm ∧ (w.extractLsb' 8 8 ≠ 0#8 ∨ w.extractLsb' 16 1 ≠ 0#1))
    ((∀ i, decode w ≠ .ok i) ↔ illegal) ∧
    ∀ (s : State) (rest : List Input), illegal → configOk s.cfg = true →
      s.inputs = .access (.write 0x000 32 w) :: rest →
      step s = .next { s with cmd := w, code := 6#4, inputs := rest }

/-- Words written out from the table of R75 decode to the commands it gives them. -/
def Obligations.TableWordsDecodeToTheirCommands : Prop :=
  decode 0x00000000#32 = .ok .nop ∧ decode 0x00000010#32 = .ok .crcSeed ∧
  decode 0x0000001A#32 = .ok .msgVerify ∧ decode 0x00000028#32 = .ok .appStr ∧
  decode 0x00000137#32 = .ok (.rdBytes (.field 1)) ∧ decode 0x0000FF30#32 = .ok (.locate (.field 255)) ∧
  decode 0x00010533#32 = .ok (.rdU16 .cursor) ∧ decode 0x0000003B#32 = .ok .curPrev

/-- An I-form command with `C = 1` acts on the field `CIDX` names, whatever its `IDX` holds, and with
`C = 0` on the field `IDX` names (R73). -/
def Obligations.IndexComesFromTheWordOrTheCursor : Prop :=
  (∀ (op idx : Byte) (f : Index → Instr),
    (op, f) ∈ [(0x30#8, Instr.locate), (0x32#8, .rdU8), (0x33#8, .rdU16), (0x34#8, .rdI16),
      (0x35#8, .rdU32), (0x36#8, .rdI32), (0x37#8, .rdBytes)] →
    decode ((op.setWidth 32) ||| (idx.setWidth 32 <<< 8)) = .ok (f (.field idx.toNat)) ∧
    decode ((op.setWidth 32) ||| (idx.setWidth 32 <<< 8) ||| 0x00010000#32) = .ok (f .cursor)) ∧
  ∀ (f : Index → Instr) (s : State),
    f ∈ [Instr.locate, .rdU8, .rdU16, .rdI16, .rdU32, .rdI32, .rdBytes] →
    exec (f .cursor) s = exec (f (.field s.cidx.toNat)) s

/-! ## Steps and the host interface (20_memory.md) -/

/-- When the next input is a host write of a word that decodes, the step stores the word in `CMD`, takes
the input off the queue and is `exec` of the decoded command, which is well formed (R60, 10_state.md
R21; the queue is the model's own, log entry 1). -/
def Obligations.StepRunsTheDecodedCommand : Prop :=
  ∀ (s : State) (w : Word) (i : Instr) (rest : List Input), configOk s.cfg = true →
    s.inputs = .access (.write 0x000 32 w) :: rest → decode w = .ok i →
    i.wellFormed = true ∧ step s = exec i { s with cmd := w, inputs := rest }

/-- A host read gives the mapped value and changes nothing of the block (R56, R58; the reply list is the
model's own, log entry 7). -/
def Obligations.HostReadsGiveTheMappedValue : Prop :=
  ∀ (s : State) (rest : List Input), configOk s.cfg = true →
    (∀ (offset : Nat) (v : Word),
      (offset, v) ∈ [(0x000, s.cmd), (0x004, s.opa), (0x008, s.opb), (0x00C, s.res),
        (0x010, BitVec.ofNat 32 s.code.toNat), (0x014, BitVec.ofNat 32 s.crc.toNat),
        (0x018, BitVec.ofNat 32 (s.lstart.toNat + 2 ^ 8 * s.llen.toNat)),
        (0x01C, BitVec.ofNat 32 (s.cidx.toNat + 2 ^ 16 * s.fcount.toNat + 2 ^ 31 * s.cvalid.toNat)),
        (0x020, BitVec.ofNat 32 s.cfg.delim.toNat),
        (0x024, BitVec.ofNat 32 (s.cfg.maxSize + 2 ^ 16 * s.cfg.bufSize)),
        (0x028, BitVec.ofNat 32 s.cfg.xbufSize)] →
      s.inputs = .access (.read offset 32) :: rest →
      step s = .next { s with inputs := rest, replies := s.replies ++ [.word v] }) ∧
    (∀ i, i < s.cfg.bufSize → s.inputs = .access (.read (0x1000 + i) 8) :: rest →
      step s = .next { s with inputs := rest, replies := s.replies ++ [.byte (s.bufByte i)] }) ∧
    (∀ i, i < s.cfg.xbufSize → s.inputs = .access (.read (0x2000 + i) 8) :: rest →
      step s = .next { s with inputs := rest, replies := s.replies ++ [.byte (s.xbufByte i)] })

/-- A host write to `OPA`, `OPB`, `BUF[i]` or `XBUF[i]` has no effect beyond the written cell; a write to
`BUF[5]` is a write to `DSIZE` (R58, 10_state.md R31). That the queue holds the write, and that an 8-bit
write stores the low 8 bits of its 32-bit value, are the model's choices (log entries 1 and 10). -/
def Obligations.HostWritesChangeOnlyTheirCell : Prop :=
  ∀ (s : State) (rest : List Input) (v : Word), configOk s.cfg = true →
    (s.inputs = .access (.write 0x004 32 v) :: rest → step s = .next { s with opa := v, inputs := rest }) ∧
    (s.inputs = .access (.write 0x008 32 v) :: rest → step s = .next { s with opb := v, inputs := rest }) ∧
    (∀ i, i < s.cfg.bufSize → s.inputs = .access (.write (0x1000 + i) 8 v) :: rest →
      ∃ t, step s = .next t ∧ t = { s with buf := t.buf, inputs := rest } ∧
        (∀ a, t.bufByte a = if a = i then v.extractLsb' 0 8 else s.bufByte a) ∧
        (i = 5 → t.dsize = (v.extractLsb' 0 8).toNat)) ∧
    (∀ i, i < s.cfg.xbufSize → s.inputs = .access (.write (0x2000 + i) 8 v) :: rest →
      ∃ t, step s = .next t ∧ t = { s with xbuf := t.xbuf, inputs := rest } ∧
        ∀ a, t.xbufByte a = if a = i then v.extractLsb' 0 8 else s.xbufByte a)

/-- The step refuses a host access exactly when R57 excludes it: an unmapped offset, a width or
alignment R55 does not admit, or a write to a read-only register. -/
def Obligations.AccessesOutsideTheContractAreRefused : Prop :=
  ∀ (s : State) (rest : List Input) (offset width : Nat) (v : Word), configOk s.cfg = true →
    let cell := width = 8 ∧ ((0x1000 ≤ offset ∧ offset < 0x1000 + s.cfg.bufSize) ∨
      (0x2000 ≤ offset ∧ offset < 0x2000 + s.cfg.xbufSize))
    (s.inputs = .access (.read offset width) :: rest →
      ((∃ r, step s = .refused r) ↔
        ¬ ((width = 32 ∧ offset ≤ 0x028 ∧ offset % 4 = 0) ∨ cell))) ∧
    (s.inputs = .access (.write offset width v) :: rest →
      ((∃ r, step s = .refused r) ↔ ¬ ((width = 32 ∧ offset ∈ [0x000, 0x004, 0x008]) ∨ cell)))

/-- A step of a block whose parameters break the bounds of 00_scope.md R6 is refused by that name, and
no other step is. -/
def Obligations.ConfigurationOutsideTheBoundsIsRefused : Prop :=
  ∀ s : State, step s = .refused .badConfiguration ↔
    ¬ (9 ≤ s.cfg.maxSize ∧ s.cfg.maxSize ≤ s.cfg.bufSize ∧ s.cfg.maxSize ≤ 263 ∧ s.cfg.bufSize ≤ 4096 ∧
      s.cfg.maxSize - 8 ≤ s.cfg.xbufSize ∧ s.cfg.xbufSize ≤ 4096)

/-- The reset input leaves every register, `BUF` and the cursor at the values of 10_state.md R40 and
keeps `XBUF`; a power-up leaves the same values and gives `XBUF` up for a fresh draw of every cell
(70_reset_and_hazards.md R240, 10_state.md R41). Both as inputs of the queue, the opaque constant that is the
draw and the counter that selects it are the model's choices (log entries 8, 5 and 6). -/
def Obligations.ResetInputAndPowerUpLeaveTheResetValues : Prop :=
  ∀ (s : State) (rest : List Input), configOk s.cfg = true →
    (s.inputs = .resetInput :: rest →
      ∃ t, step s = .next t ∧ t.xbuf = s.xbuf ∧ t.powerUps = s.powerUps ∧
        t.cmd = 0#32 ∧ t.opa = 0#32 ∧ t.opb = 0#32 ∧ t.res = 0#32 ∧ t.code = 0#4 ∧ t.crc = 0#16 ∧
        t.lstart = 0#8 ∧ t.llen = 0#8 ∧ t.cidx = 0#8 ∧ t.fcount = 0#9 ∧ t.cvalid = false ∧
        (∀ a, t.bufByte a = 0#8) ∧ t.cfg = s.cfg ∧ t.inputs = rest ∧ t.replies = s.replies) ∧
    (s.inputs = .powerUp :: rest →
      ∃ t, step s = .next t ∧
        t.cmd = 0#32 ∧ t.opa = 0#32 ∧ t.opb = 0#32 ∧ t.res = 0#32 ∧ t.code = 0#4 ∧ t.crc = 0#16 ∧
        t.lstart = 0#8 ∧ t.llen = 0#8 ∧ t.cidx = 0#8 ∧ t.fcount = 0#9 ∧ t.cvalid = false ∧
        (∀ a, t.bufByte a = 0#8) ∧ t.cfg = s.cfg ∧ t.inputs = rest ∧ t.replies = s.replies ∧
        t.powerUps = s.powerUps + 1 ∧ ∀ a, t.xbufByte a = Config.xbufPowerUp t.powerUps a)

/-! ## The invariant -/

/-- The reset state meets the invariant, and so does the state after any power-up, for every admitted
configuration. -/
def Obligations.PowerUpStateMeetsTheInvariant : Prop :=
  State.reset.Inv ∧ ∀ (c : Config) (n : Nat), configOk c = true → (State.atPowerUp c n).Inv

/-- Every step keeps the invariant: canonical buffers inside their sizes, a legal code, a count of at
most 256, a fresh or clamped cursor, a located segment inside a payload. -/
def Obligations.EveryStepKeepsTheInvariant : Prop :=
  ∀ s t : State, s.Inv → step s = .next t → t.Inv

/-! ## Control commands (45_control.md) -/

/-- `NOP` sets the code to `OK` and changes nothing else; its word is 0, and any other word with its
opcode is illegal (R200). -/
def Obligations.NopSetsOnlyTheCode : Prop :=
  (∀ w : Word, w.extractLsb' 0 8 = 0x00#8 → (decode w = .ok .nop ↔ w = 0x00000000#32) ∧
    (w ≠ 0x00000000#32 → ∀ i, decode w ≠ .ok i)) ∧
  ∀ s : State, exec .nop s = .next { s with code := 0#4 }

/-- `SRESET` puts every piece of state at its reset value but `CMD` and `XBUF`, which stay, and is the
reset input apart from `CMD` (R201; the reset input stands in the model's queue, log entry 8). -/
def Obligations.SresetLeavesTheResetStateButCmd : Prop :=
  decode 0x00000001#32 = .ok .sreset ∧
  ∀ s : State, ∃ t, exec .sreset s = .next t ∧
    t.cmd = s.cmd ∧ t.xbuf = s.xbuf ∧ t.powerUps = s.powerUps ∧ t.opa = 0#32 ∧ t.opb = 0#32 ∧
    t.res = 0#32 ∧ t.code = 0#4 ∧ t.crc = 0#16 ∧ t.lstart = 0#8 ∧ t.llen = 0#8 ∧ t.cidx = 0#8 ∧
    t.fcount = 0#9 ∧ t.cvalid = false ∧ (∀ a, t.bufByte a = 0#8) ∧ t.cfg = s.cfg ∧
    t.inputs = s.inputs ∧ t.replies = s.replies ∧
    (∀ rest, configOk s.cfg = true → s.inputs = .access (.write 0x000 32 0x00000001#32) :: rest →
      step s = .next { t with cmd := 0x00000001#32, inputs := rest }) ∧
    (∀ rest, configOk s.cfg = true → s.inputs = .resetInput :: rest →
      step s = .next { t with cmd := 0#32, inputs := rest })

/-! ## The Checksum Engine (41_crc.md) -/

/-- `CRC_SEED` loads `OPA[15:0]`, `CRC_INIT_N` 0x0000 and `CRC_INIT_I` 0xFFFF, and nothing else changes
but the code (R102 to R104). -/
def Obligations.SeedCommandsSetTheAccumulator : Prop :=
  decode 0x00000010#32 = .ok .crcSeed ∧ decode 0x00000011#32 = .ok .crcInitN ∧
  decode 0x00000012#32 = .ok .crcInitI ∧
  ∀ s : State,
    exec .crcSeed s = .next { s with crc := s.opa.extractLsb' 0 16, code := 0#4 } ∧
    exec .crcInitN s = .next { s with crc := 0x0000#16, code := 0#4 } ∧
    exec .crcInitI s = .next { s with crc := 0xFFFF#16, code := 0#4 }

/-- `CRC_BYTE_N` and `CRC_BYTE_I` feed `OPA[7:0]` and change nothing else but the code (R105, R106). -/
def Obligations.ByteCommandsFeedOneByte : Prop :=
  decode 0x00000013#32 = .ok .crcByteN ∧ decode 0x00000014#32 = .ok .crcByteI ∧
  ∀ s : State,
    exec .crcByteN s = .next { s with crc := crcNByte s.crc (s.opa.extractLsb' 0 8), code := 0#4 } ∧
    exec .crcByteI s = .next { s with crc := crcIByte s.crc (s.opa.extractLsb' 0 8), code := 0#4 }

/-- `CRC_RANGE_N` and `CRC_RANGE_I` feed `BUF[a..a+n)` in rising order, or end with `RANGE` and leave
`CRC` (R107, R108). -/
def Obligations.RangeCommandsFeedTheRange : Prop :=
  decode 0x00000015#32 = .ok .crcRangeN ∧ decode 0x00000016#32 = .ok .crcRangeI ∧
  ∀ s : State,
    let a := (s.opa.extractLsb' 0 16).toNat
    let n := (s.opb.extractLsb' 0 16).toNat
    let bytes := List.ofFn fun j : Fin n => s.bufByte (a + j)
    (a + n ≤ s.cfg.bufSize →
      exec .crcRangeN s = .next { s with crc := crcN s.crc bytes, code := 0#4 } ∧
      exec .crcRangeI s = .next { s with crc := crcI s.crc bytes, code := 0#4 }) ∧
    (s.cfg.bufSize < a + n →
      exec .crcRangeN s = .next { s with code := 4#4 } ∧
      exec .crcRangeI s = .next { s with code := 4#4 })

/-- The normal function's 17-bit shift and mask equal a conditional XOR on the 16-bit value by its top
bit (R100). -/
def Obligations.NormalByteIsTheSixteenBitShiftRegister : Prop :=
  ∀ (acc : Half) (b : Byte),
    crcNByte acc b =
      (fun a : Half => if a.getLsbD 15 then (a <<< 1) ^^^ 0x1021#16 else a <<< 1)^[8]
        (acc ^^^ (b.setWidth 16 <<< 8))

/-- The inverse function is the normal one with every operand bit-reversed, 0x8408 being 0x1021 reversed
(R101). -/
def Obligations.InverseByteIsTheReversedNormalByte : Prop :=
  BitVec.reverse 0x1021#16 = 0x8408#16 ∧
  ∀ (acc : Half) (b : Byte), crcIByte acc b = (crcNByte acc.reverse b.reverse).reverse

/-- The threading law: a sequence fed in any pieces gives the CRC of the whole, for any mix of the byte
and range commands of one convention; mixed conventions give the composition (R109). -/
def Obligations.FeedingInPiecesIsFeedingTheWhole : Prop :=
  (∀ (a : Half) (xs ys : List Byte),
    crcN a (xs ++ ys) = crcN (crcN a xs) ys ∧ crcI a (xs ++ ys) = crcI (crcI a xs) ys) ∧
  ∀ (a b : Half) (es : List (Instr × State)), FeedRun a es b →
    ((∀ e ∈ es, e.1 = .crcByteN ∨ e.1 = .crcRangeN) →
      b = crcN a (es.flatMap fun e => fedBytes e.1 e.2)) ∧
    ((∀ e ∈ es, e.1 = .crcByteI ∨ e.1 = .crcRangeI) →
      b = crcI a (es.flatMap fun e => fedBytes e.1 e.2)) ∧
    b = es.foldl (fun c e => feedFunction e.1 c (fedBytes e.1 e.2)) a

/-- `MSG_CSUM` computes the inverse CRC, seed 0xFFFF, of header and payload into `CRC` and `RES`, or ends
with `RANGE` and changes nothing else (R110). -/
def Obligations.MessageChecksumCoversHeaderAndPayload : Prop :=
  decode 0x00000018#32 = .ok .msgCsum ∧
  ∀ s : State,
    let a := (s.opa.extractLsb' 0 16).toNat
    let n := (s.bufByte (a + 5)).toNat
    let c := crcI 0xFFFF#16 (List.ofFn fun j : Fin (6 + n) => s.bufByte (a + j))
    (a + 6 + n ≤ s.cfg.bufSize →
      exec .msgCsum s = .next { s with crc := c, res := c.setWidth 32, code := 0#4 }) ∧
    (s.cfg.bufSize < a + 6 + n → exec .msgCsum s = .next { s with code := 4#4 })

/-- `MSG_SETCSUM` also stores the checksum's high and low byte after the payload, and no other byte of
`BUF` changes (R111). -/
def Obligations.SetChecksumStoresTheTrailer : Prop :=
  decode 0x00000019#32 = .ok .msgSetcsum ∧
  ∀ s : State,
    let a := (s.opa.extractLsb' 0 16).toNat
    let n := (s.bufByte (a + 5)).toNat
    let c := crcI 0xFFFF#16 (List.ofFn fun j : Fin (6 + n) => s.bufByte (a + j))
    (a + 8 + n ≤ s.cfg.bufSize →
      ∃ t, exec .msgSetcsum s = .next t ∧
        t = { s with buf := t.buf, crc := c, res := c.setWidth 32, code := 0#4 } ∧
        ∀ x, t.bufByte x =
          if x = a + 6 + n then c.extractLsb' 8 8
          else if x = a + 7 + n then c.extractLsb' 0 8
          else s.bufByte x) ∧
    (s.cfg.bufSize < a + 8 + n → exec .msgSetcsum s = .next { s with code := 4#4 })

/-- `MSG_VERIFY` compares the trailer with the checksum: 1 and `OK`, or 0 and `AUTH`; `BUF` is never
written (R112). -/
def Obligations.VerifyComparesTheTrailer : Prop :=
  decode 0x0000001A#32 = .ok .msgVerify ∧
  ∀ s : State,
    let a := (s.opa.extractLsb' 0 16).toNat
    let n := (s.bufByte (a + 5)).toNat
    let c := crcI 0xFFFF#16 (List.ofFn fun j : Fin (6 + n) => s.bufByte (a + j))
    (a + 8 + n ≤ s.cfg.bufSize →
      (s.bufByte (a + 6 + n) = c.extractLsb' 8 8 ∧ s.bufByte (a + 7 + n) = c.extractLsb' 0 8 →
        exec .msgVerify s = .next { s with crc := c, res := 1#32, code := 0#4 }) ∧
      (¬ (s.bufByte (a + 6 + n) = c.extractLsb' 8 8 ∧ s.bufByte (a + 7 + n) = c.extractLsb' 0 8) →
        exec .msgVerify s = .next { s with crc := c, res := 0#32, code := 5#4 })) ∧
    (s.cfg.bufSize < a + 8 + n → exec .msgVerify s = .next { s with code := 4#4 })

/-- After `MSG_SETCSUM`, `MSG_VERIFY` gives `OK` while the message is unchanged, and `AUTH` after any one
bit of the message but those of its length byte is flipped (R113). -/
def Obligations.VerifyDetectsEverySingleBitError : Prop :=
  ∀ (s t : State), exec .msgSetcsum s = .next t → t.code = 0#4 →
    let a := (s.opa.extractLsb' 0 16).toNat
    let n := (s.bufByte (a + 5)).toNat
    ∀ u : State, u.cfg = s.cfg → (u.opa.extractLsb' 0 16).toNat = a →
      ((∀ x, a ≤ x → x < a + 8 + n → u.bufByte x = t.bufByte x) →
        ∃ v, exec .msgVerify u = .next v ∧ v.code = 0#4 ∧ v.res = 1#32) ∧
      (∀ y k, a ≤ y → y < a + 8 + n → y ≠ a + 5 → k < 8 →
        u.bufByte y = t.bufByte y ^^^ (1#8 <<< k) →
        (∀ x, a ≤ x → x < a + 8 + n → x ≠ y → u.bufByte x = t.bufByte x) →
        ∃ v, exec .msgVerify u = .next v ∧ v.code = 5#4 ∧ v.res = 0#32)

/-! ## Clearing and encoding (42_field_encode.md) -/

/-- `CLEAR` zeroes all of `BUF` and resets the cursor and the located segment; nothing else but the code
changes (R132). -/
def Obligations.ClearZeroesTheMessage : Prop :=
  decode 0x00000020#32 = .ok .clear ∧
  ∀ s : State, ∃ t, exec .clear s = .next t ∧
    t = { s with buf := t.buf, cidx := 0#8, fcount := 0#9, cvalid := false, lstart := 0#8, llen := 0#8, code := 0#4 } ∧
    ∀ a, t.bufByte a = 0#8

/-- An integer field takes the width of the first range that holds its value, and its bytes are the
value's big-endian two's complement in that width (R133). -/
def Obligations.IntegerFieldsTakeTheSmallestWidth : Prop :=
  ∀ v : Int, -2 ^ 31 ≤ v → v ≤ 2 ^ 32 - 1 →
    (intBytes v).length =
      (if 0 ≤ v ∧ v ≤ 255 then 1
      else if (256 ≤ v ∧ v ≤ 65535) ∨ (-32768 ≤ v ∧ v ≤ -1) then 2 else 4) ∧
    ((beValue (intBytes v) : Nat) : Int) = v % 2 ^ (8 * (intBytes v).length)

/-- The width each append command gives its field, seen in `DSIZE` after one append to an empty payload
(R134); four bytes of room are enough for every one of them, for `APP_FLOAT` where the value is finite and
its integer part lies in the signed 32-bit range (R130). The binary32 reading in that clause is the model's,
from outside the source (log entry 14). -/
def Obligations.FieldWidthsByCommand : Prop :=
  ∀ s : State, configOk s.cfg = true → s.dsize = 0 →
    let u16 := (s.opa.extractLsb' 0 16).toNat
    let i16 := (s.opa.extractLsb' 0 16).toInt
    let u32 := s.opa.toNat
    let i32 := s.opa.toInt
    (∀ (i : Instr) (width : Nat),
      (i, width) ∈ [(Instr.appU8, 1), (.appU16, if u16 ≤ 255 then 1 else 2),
        (.appI16, if 0 ≤ i16 ∧ i16 ≤ 255 then 1 else 2),
        (.appU32, if u32 ≤ 255 then 1 else if u32 ≤ 65535 then 2 else 4),
        (.appI32, if 0 ≤ i32 ∧ i32 ≤ 255 then 1
          else if (256 ≤ i32 ∧ i32 ≤ 65535) ∨ (-32768 ≤ i32 ∧ i32 ≤ -1) then 2 else 4),
        (.appBool, 1)] →
      ∃ t, exec i s = .next t ∧ (4 ≤ s.cfg.maxSize - 8 → t.code = 0#4) ∧ (t.code = 0#4 → t.dsize = width)) ∧
    ∃ t, exec .appFloat s = .next t ∧ (t.code = 0#4 → t.dsize = 4) ∧
      (s.opa.extractLsb' 23 8 ≠ 0xFF#8 → -2 ^ 31 ≤ truncRat (binary32Value s.opa) →
        truncRat (binary32Value s.opa) ≤ 2 ^ 31 - 1 → 4 ≤ s.cfg.maxSize - 8 → t.code = 0#4)

/-- Every append is the common step: the field's bytes go after a delimiter where a field is present, or
`OVERSIZE` with nothing else written; only `APP_FLOAT` and `APP_STR` have a check of their own before it
(R130). Which bytes a float gives is the binary32 reading of log entry 14. -/
def Obligations.EveryAppendIsTheCommonStep : Prop :=
  ∀ (i : Instr) (s : State), i ∈ appendCommands → configOk s.cfg = true →
    (∃ bs, fieldBytes i s = some bs ∧ AppendEffect i s bs) ∨
    ((i = .appFloat ∨ i = .appStr) ∧ exec i s = .next { s with code := 4#4 })

/-- The five integer appends: the field is `int_bytes` of the value the command reads, appended after a
delimiter where a field is present, or `OVERSIZE` with nothing else written (R135 to R139). -/
def Obligations.IntegerAppendsAddTheirField : Prop :=
  decode 0x00000021#32 = .ok .appU8 ∧ decode 0x00000022#32 = .ok .appU16 ∧
  decode 0x00000023#32 = .ok .appI16 ∧ decode 0x00000024#32 = .ok .appU32 ∧
  decode 0x00000025#32 = .ok .appI32 ∧
  ∀ s : State, configOk s.cfg = true →
    AppendEffect .appU8 s [s.opa.extractLsb' 0 8] ∧
    AppendEffect .appU16 s (intBytes ((s.opa.extractLsb' 0 16).toNat : Int)) ∧
    AppendEffect .appI16 s (intBytes (s.opa.extractLsb' 0 16).toInt) ∧
    AppendEffect .appU32 s (intBytes (s.opa.toNat : Int)) ∧
    AppendEffect .appI32 s (intBytes s.opa.toInt)

/-- `APP_BOOL` appends one byte, 1 for every non-zero `OPA` and else 0 (R140). -/
def Obligations.BoolAppendAddsZeroOrOne : Prop :=
  decode 0x00000026#32 = .ok .appBool ∧
  ∀ s : State, configOk s.cfg = true →
    AppendEffect .appBool s [if s.opa ≠ 0#32 then 0x01#8 else 0x00#8]

/-- `APP_FLOAT` appends the four big-endian bytes of the binary32 value truncated toward zero; an
infinity, a NaN or a value outside the signed 32-bit range ends with `RANGE` (R141). The binary32 reading and
its formula are the model's, from outside the source (log entry 14). -/
def Obligations.FloatAppendAddsTheTruncatedInteger : Prop :=
  decode 0x00000027#32 = .ok .appFloat ∧
  ∀ s : State, configOk s.cfg = true →
    (s.opa.extractLsb' 23 8 = 0xFF#8 → exec .appFloat s = .next { s with code := 4#4 }) ∧
    (s.opa.extractLsb' 23 8 ≠ 0xFF#8 →
      let t := truncRat (binary32Value s.opa)
      (t < -2 ^ 31 ∨ 2 ^ 31 - 1 < t → exec .appFloat s = .next { s with code := 4#4 }) ∧
      (-2 ^ 31 ≤ t → t ≤ 2 ^ 31 - 1 → AppendEffect .appFloat s (beBytes t 4)))

/-- `APP_STR` appends `XBUF[0..L)`; a length beyond `XBUF` ends with `RANGE`, checked first (R142). -/
def Obligations.StringAppendCopiesTheStagingBuffer : Prop :=
  decode 0x00000028#32 = .ok .appStr ∧
  ∀ s : State, configOk s.cfg = true →
    let n := (s.opb.extractLsb' 0 16).toNat
    (s.cfg.xbufSize < n → exec .appStr s = .next { s with code := 4#4 }) ∧
    (n ≤ s.cfg.xbufSize → AppendEffect .appStr s (List.ofFn fun j : Fin n => s.xbufByte j))

/-- No append makes `DSIZE` exceed `PAYLOAD_CAP`; where the host already made it so, every append fails
with `OVERSIZE`, or with its own `RANGE` check, which comes first; no append writes outside `DSIZE` and
the first `PAYLOAD_CAP` payload bytes (R131, R216). -/
def Obligations.AppendsStayWithinThePayloadCap : Prop :=
  ∀ (i : Instr) (s : State), i ∈ appendCommands → configOk s.cfg = true →
    ∃ t, exec i s = .next t ∧
      (t.code = 0#4 → t.dsize ≤ s.cfg.maxSize - 8) ∧
      (s.cfg.maxSize - 8 < s.dsize → t = { s with code := t.code } ∧
        (t.code = 1#4 ∨ (t.code = 4#4 ∧ (i = .appFloat ∨ i = .appStr)))) ∧
      ∀ a, a ≠ 5 → (a < 6 ∨ 6 + (s.cfg.maxSize - 8) ≤ a) → t.bufByte a = s.bufByte a

/-- The payload shape: successful appends from the empty payload, the first field non-empty, leave the
fields joined by single delimiters, and `DSIZE` is their length; a failed append changes no byte of `BUF`,
nor does an empty first field (R143). -/
def Obligations.AppendsBuildTheDelimitedPayload : Prop :=
  (∀ (s t : State) (e : Instr × State) (es : List (Instr × State)), configOk s.cfg = true →
    s.dsize = 0 → AppendRun s (e :: es) t → entryBytes e ≠ [] →
    t.payload = List.intercalate [s.cfg.delim] ((e :: es).map entryBytes) ∧
    t.dsize = ((e :: es).map fun x => (entryBytes x).length).sum + es.length) ∧
  (∀ (i : Instr) (s t : State), i ∈ appendCommands → exec i s = .next t → t.code ≠ 0#4 →
    ∀ a, t.bufByte a = s.bufByte a) ∧
  ∀ (i : Instr) (s : State), i ∈ appendCommands → s.dsize = 0 → configOk s.cfg = true →
    fieldBytes i s = some [] →
    ∃ t, exec i s = .next t ∧ t.code = 0#4 ∧ ∀ a, t.bufByte a = s.bufByte a

/-- The round-trip law: in a run of successful appends from the empty payload, with no field byte equal to
`DELIM` and no field empty but leading ones, which are not counted, field number `k` reads back as the
table of 43_field_decode.md R175 says, from any state with that `BUF`. The float row rests on the model's
binary32 reading, from outside the source (log entry 14). -/
def Obligations.AppendedFieldsReadBack : Prop :=
  ∀ (s t : State) (es : List (Instr × State)), configOk s.cfg = true → s.dsize = 0 →
    AppendRun s es t → (∀ e ∈ es, s.cfg.delim ∉ entryBytes e) →
    (∀ e ∈ es.dropWhile (fun e => entryBytes e = []), entryBytes e ≠ []) →
    ∀ (k : Nat) (i : Instr) (u w : State) (ix : Index),
      (es.dropWhile fun e => entryBytes e = [])[k]? = some (i, u) →
      w.buf = t.buf → w.cfg = t.cfg → indexValue w ix = k → ReadsBack i u w ix

/-! ## Decoding (43_field_decode.md) -/

/-- `LOCATE` leaves the segment's start and length in `LSTART` and `LLEN`; `NOTFOUND` and `RANGE` change
only the code (R161). -/
def Obligations.LocateLeavesTheSegment : Prop :=
  (∀ n : Byte, decode (0x00000030#32 ||| (n.setWidth 32 <<< 8)) = .ok (.locate (.field n.toNat))) ∧
  decode 0x00010030#32 = .ok (.locate .cursor) ∧
  ∀ (s : State) (ix : Index),
    let k := indexValue s ix
    (6 + s.dsize ≤ s.cfg.bufSize →
      (∀ st ln, locate s.cfg.delim k s.payload = some (st, ln) →
        ∃ t, exec (.locate ix) s = .next t ∧ t.lstart.toNat = st ∧ t.llen.toNat = ln ∧
          t = { s with lstart := t.lstart, llen := t.llen, code := 0#4 }) ∧
      (locate s.cfg.delim k s.payload = none → exec (.locate ix) s = .next { s with code := 2#4 })) ∧
    (s.cfg.bufSize < 6 + s.dsize → exec (.locate ix) s = .next { s with code := 4#4 })

/-- `FIELD_COUNT` leaves the delimiters of the payload plus one in `RES`, 0 for the empty payload, and
does not touch the cursor (R162). -/
def Obligations.FieldCountCountsDelimiters : Prop :=
  decode 0x00000031#32 = .ok .fieldCount ∧
  ∀ s : State,
    (6 + s.dsize ≤ s.cfg.bufSize →
      exec .fieldCount s = .next
        { s with
          code := 0#4
          res := BitVec.ofNat 32 (if s.dsize = 0 then 0
            else ((List.range s.dsize).filter fun j => s.bufByte (6 + j) = s.cfg.delim).length + 1) }) ∧
    (s.cfg.bufSize < 6 + s.dsize → exec .fieldCount s = .next { s with code := 4#4 })

/-- The numeric readers: the located segment's big-endian value, zero-extended (sign-extended from 16
bits by `RD_I16`), for a segment of one byte up to the reader's width, else `FORMAT`; `NOTFOUND` and
`RANGE` before it; a failure changes only the code (R163 to R166, R168, R169). -/
def Obligations.NumericReadersReassembleTheSegment : Prop :=
  (∀ (op : Byte) (f : Index → Instr),
    (op, f) ∈ [(0x32#8, Instr.rdU8), (0x33#8, .rdU16), (0x34#8, .rdI16), (0x35#8, .rdU32), (0x36#8, .rdI32)] →
    ∀ n : Byte, decode (op.setWidth 32 ||| (n.setWidth 32 <<< 8)) = .ok (f (.field n.toNat)) ∧
      decode (op.setWidth 32 ||| 0x00010000#32) = .ok (f .cursor)) ∧
  ∀ (s : State) (ix : Index) (reader : Instr) (width : Nat) (result : Nat → Word),
    (reader, width) ∈ [(Instr.rdU8 ix, 1), (.rdU16 ix, 2), (.rdI16 ix, 2), (.rdU32 ix, 4), (.rdI32 ix, 4)] →
    result = (if reader = .rdI16 ix then fun u => (BitVec.ofNat 16 u).signExtend 32 else BitVec.ofNat 32) →
    (6 + s.dsize ≤ s.cfg.bufSize →
      (∀ st ln, locate s.cfg.delim (indexValue s ix) s.payload = some (st, ln) →
        (1 ≤ ln → ln ≤ width →
          exec reader s = .next
            { s with
              code := 0#4
              res := result (beValue (List.ofFn fun j : Fin ln => s.bufByte (6 + st + j))) }) ∧
        (ln = 0 ∨ width < ln → exec reader s = .next { s with code := 3#4 })) ∧
      (locate s.cfg.delim (indexValue s ix) s.payload = none →
        exec reader s = .next { s with code := 2#4 })) ∧
    (s.cfg.bufSize < 6 + s.dsize → exec reader s = .next { s with code := 4#4 })

/-- `RD_BYTES` copies the located segment to the start of `XBUF` and its length to `RES`; every other
byte of `XBUF` stays; a failure changes only the code (R167). -/
def Obligations.ReadBytesCopiesTheSegment : Prop :=
  (∀ n : Byte, decode (0x00000037#32 ||| (n.setWidth 32 <<< 8)) = .ok (.rdBytes (.field n.toNat))) ∧
  decode 0x00010037#32 = .ok (.rdBytes .cursor) ∧
  ∀ (s : State) (ix : Index),
    (6 + s.dsize ≤ s.cfg.bufSize →
      (∀ st ln, locate s.cfg.delim (indexValue s ix) s.payload = some (st, ln) →
        (ln ≤ s.cfg.xbufSize →
          ∃ t, exec (.rdBytes ix) s = .next t ∧
            t = { s with xbuf := t.xbuf, res := BitVec.ofNat 32 ln, code := 0#4 } ∧
            ∀ j, t.xbufByte j = if j < ln then s.bufByte (6 + st + j) else s.xbufByte j) ∧
        (s.cfg.xbufSize < ln → exec (.rdBytes ix) s = .next { s with code := 4#4 })) ∧
      (locate s.cfg.delim (indexValue s ix) s.payload = none →
        exec (.rdBytes ix) s = .next { s with code := 2#4 })) ∧
    (s.cfg.bufSize < 6 + s.dsize → exec (.rdBytes ix) s = .next { s with code := 4#4 })

/-- `LOCATE k` succeeds exactly for `k` below the count `FIELD_COUNT` gives, and the segments cover the
payload in order with exactly one delimiter between neighbours and none inside (R174). -/
def Obligations.SegmentsCoverThePayload : Prop :=
  ∀ s : State, 6 + s.dsize ≤ s.cfg.bufSize →
    ∃ segs : List (Nat × Nat),
      exec .fieldCount s = .next { s with res := BitVec.ofNat 32 segs.length, code := 0#4 } ∧
      segs.length ≤ 256 ∧
      (∀ k, k < segs.length → ∃ st ln, segs[k]? = some (st, ln) ∧
        exec (.locate (.field k)) s =
          .next { s with lstart := BitVec.ofNat 8 st, llen := BitVec.ofNat 8 ln, code := 0#4 } ∧
        st + ln ≤ s.dsize ∧ (∀ j, j < ln → s.bufByte (6 + st + j) ≠ s.cfg.delim) ∧
        (k = 0 → st = 0) ∧
        (k + 1 = segs.length → st + ln = s.dsize) ∧
        (∀ st' ln', segs[k + 1]? = some (st', ln') →
          st' = st + ln + 1 ∧ s.bufByte (6 + st + ln) = s.cfg.delim)) ∧
      (∀ k, segs.length ≤ k → exec (.locate (.field k)) s = .next { s with code := 2#4 })

/-! ## The cursor (43_field_decode.md section 3) -/

/-- The cursor commands: the count is filled on first use and then kept; the index moves to the first,
last, next or previous field, clamped and never wrapping, and `RES` takes it; with no field they leave
`CIDX` 0 and `NOTFOUND`; where the count cannot be computed, `RANGE` changes only the code (R170 to
R173). -/
def Obligations.CursorCommandsMoveAndClamp : Prop :=
  decode 0x00000038#32 = .ok .curFirst ∧ decode 0x00000039#32 = .ok .curLast ∧
  decode 0x0000003A#32 = .ok .curNext ∧ decode 0x0000003B#32 = .ok .curPrev ∧
  ∀ (s : State) (i : Instr) (target n : Nat), i ∈ cursorCommands →
    (s.cvalid = false ∧ s.cfg.bufSize < 6 + s.dsize → exec i s = .next { s with code := 4#4 }) ∧
    ((s.cvalid = true ∧ n = s.fcount.toNat) ∨
      (s.cvalid = false ∧ 6 + s.dsize ≤ s.cfg.bufSize ∧ n = countFields s.cfg.delim s.payload) →
      n ≤ 256 →
      (n = 0 →
        exec i s = .next { s with fcount := 0#9, cvalid := true, cidx := 0#8, code := 2#4 }) ∧
      (0 < n →
        (i, target) ∈ [(Instr.curFirst, 0), (.curLast, n - 1), (.curNext, min (s.cidx.toNat + 1) (n - 1)),
          (.curPrev, min (s.cidx.toNat - 1) (n - 1))] →
        exec i s = .next
          { s with
            fcount := BitVec.ofNat 9 n
            cvalid := true
            cidx := BitVec.ofNat 8 target
            res := BitVec.ofNat 32 target
            code := 0#4 }))

/-- The stale count: only the cursor commands, `CLEAR` and `SRESET` change the cached count, a cursor
command with a computed count keeps it and does not look at `BUF` at all, and a cached count of 0 gives
`NOTFOUND` (70_reset_and_hazards.md R250). -/
def Obligations.CachedCountIsKeptUntilCleared : Prop :=
  (∀ (i : Instr) (s : State), i ∉ cursorCommands → i ≠ .clear → i ≠ .sreset →
    ∃ t, exec i s = .next t ∧ t.fcount = s.fcount ∧ t.cvalid = s.cvalid ∧ t.cidx = s.cidx) ∧
  (∀ (i : Instr) (s : State) (m : Memory), i ∈ cursorCommands → s.cvalid = true →
    ∃ t, exec i s = .next t ∧ t.fcount = s.fcount ∧ t.cvalid = true ∧
      exec i { s with buf := m } = .next { t with buf := m } ∧
      (s.fcount = 0#9 → t = { s with cidx := 0#8, code := 2#4 }))

/-! ## The whole block -/

/-- Every command completes, from every state: no trap, no fault, no refusal (60_exceptions.md R210). -/
def Obligations.EveryCommandCompletes : Prop :=
  ∀ (i : Instr) (s : State), ∃ t, exec i s = .next t

/-- Every command answers, with no trap; one that ends with a code other than `OK` writes nothing else, but
for `MSG_VERIFY` at `AUTH` (`CRC` and `RES = 0`) and a cursor command at `NOTFOUND` (the filled count and
`CIDX = 0`); an illegal word writes only the code and `CMD` (60_exceptions.md R214). -/
def Obligations.FailuresWriteNothingButTheCode : Prop :=
  (∀ (i : Instr) (s : State), ∃ t, exec i s = .next t ∧ (t.code ≠ 0#4 →
    t = { s with code := t.code } ∨
    (i = .msgVerify ∧ t.code = 5#4 ∧ t = { s with crc := t.crc, res := 0#32, code := 5#4 }) ∨
    (i ∈ cursorCommands ∧ t.code = 2#4 ∧
      t = { s with fcount := 0#9, cvalid := true, cidx := 0#8, code := 2#4 }))) ∧
  ∀ (s : State) (w : Word) (rest : List Input), (∀ i, decode w ≠ .ok i) → configOk s.cfg = true →
    s.inputs = .access (.write 0x000 32 w) :: rest →
    step s = .next { s with cmd := w, code := 6#4, inputs := rest }

/-- Each command ends with a code its row of 60_exceptions.md R213 lists. -/
def Obligations.CommandsEndWithTheirCodes : Prop :=
  ∀ (i : Instr) (s : State), ∃ t, exec i s = .next t ∧ t.code ∈ codesOf i

/-- No command writes `CMD`, the configuration, or what belongs to the outside, and none but `SRESET`
writes `OPA` or `OPB`, which it sets to 0 (10_state.md R21 to R23, R29). -/
def Obligations.OperandRegistersAreWrittenOnlyByReset : Prop :=
  ∀ (i : Instr) (s : State), ∃ t, exec i s = .next t ∧
    t.cmd = s.cmd ∧ t.cfg = s.cfg ∧ t.powerUps = s.powerUps ∧ t.inputs = s.inputs ∧ t.replies = s.replies ∧
    (i ≠ .sreset → t.opa = s.opa ∧ t.opb = s.opb) ∧ (i = .sreset → t.opa = 0#32 ∧ t.opb = 0#32)

/-- The writers of `RES`, `CRC`, `LSTART` and `LLEN`: every other command leaves them, and a failing
command leaves `RES` but for `MSG_VERIFY` at `AUTH`, which sets it to 0 (10_state.md R24, R26, R27). -/
def Obligations.ResultRegistersHaveTheirWriters : Prop :=
  ∀ (i : Instr) (s : State), ∃ t, exec i s = .next t ∧
    (i ∉ [Instr.msgCsum, .msgSetcsum, .msgVerify, .fieldCount, .sreset] → i ∉ cursorCommands →
      (∀ ix, i ∉ [Instr.rdU8 ix, .rdU16 ix, .rdI16 ix, .rdU32 ix, .rdI32 ix, .rdBytes ix]) →
      t.res = s.res) ∧
    (t.code ≠ 0#4 → t.res = s.res ∨ (i = .msgVerify ∧ t.code = 5#4 ∧ t.res = 0#32)) ∧
    (i ∉ engineCommands → i ≠ .sreset → t.crc = s.crc) ∧
    ((∀ ix, i ≠ .locate ix) → i ≠ .clear → i ≠ .sreset → t.lstart = s.lstart ∧ t.llen = s.llen)

/-- Only the appends, `MSG_SETCSUM`, `CLEAR` and `SRESET` change a byte of `BUF`, only `RD_BYTES` one of
`XBUF`, and none a byte outside the buffers (10_state.md R33, 20_memory.md R59): for `CLEAR` and `SRESET`,
which empty all of `BUF`, where `BUF` holds nothing outside its size, as `State.Inv` says it does. -/
def Obligations.BuffersHaveTheirWriters : Prop :=
  ∀ (i : Instr) (s : State), configOk s.cfg = true → ∃ t, exec i s = .next t ∧
    (i ∉ appendCommands → i ∉ [Instr.msgSetcsum, .clear, .sreset] → t.buf = s.buf) ∧
    ((∀ ix, i ≠ .rdBytes ix) → t.xbuf = s.xbuf) ∧
    (i ≠ .clear → i ≠ .sreset → ∀ a, s.cfg.bufSize ≤ a → t.bufByte a = s.bufByte a) ∧
    (Memory.within s.cfg.bufSize s.buf = true → ∀ a, s.cfg.bufSize ≤ a → t.bufByte a = s.bufByte a) ∧
    ∀ a, s.cfg.xbufSize ≤ a → t.xbufByte a = s.xbufByte a

/-- Every command keeps `DSIZE <= PAYLOAD_CAP` (10_state.md R32). -/
def Obligations.CommandsKeepDsizeWithinTheCap : Prop :=
  ∀ (i : Instr) (s t : State), configOk s.cfg = true → s.dsize ≤ s.cfg.maxSize - 8 →
    exec i s = .next t → t.dsize ≤ s.cfg.maxSize - 8

/-- The two units are separate: outside the engine's commands and `SRESET` no command reads or changes
`CRC`, and no engine command reads or changes the codec's registers or `XBUF` (10_state.md R37). -/
def Obligations.EngineAndCodecAreSeparate : Prop :=
  (∀ (i : Instr) (s : State) (c : Half), i ∉ engineCommands → i ≠ .sreset →
    ∃ t, exec i s = .next t ∧ t.crc = s.crc ∧ exec i { s with crc := c } = .next { t with crc := c }) ∧
  ∀ (i : Instr) (s : State) (st ln cx : Byte) (n : BitVec 9) (v : Bool) (m : Memory),
    i ∈ engineCommands →
    ∃ t, exec i s = .next t ∧
      exec i { s with lstart := st, llen := ln, cidx := cx, fcount := n, cvalid := v, xbuf := m } =
        .next { t with lstart := st, llen := ln, cidx := cx, fcount := n, cvalid := v, xbuf := m }

/-- The free bytes: no command but `APP_STR` reads `XBUF`, so its content and its power-up draw change
nothing else of what a command does, and `APP_STR` reads only `XBUF[0..L)` (10_state.md R33, R41). -/
def Obligations.OnlyTheStringAppendReadsTheStagingBuffer : Prop :=
  (∀ (i : Instr) (s : State) (m : Memory) (p : Nat), i ≠ .appStr →
    ∃ t t', exec i s = .next t ∧ exec i { s with xbuf := m, powerUps := p } = .next t' ∧
      t' = { t with xbuf := t'.xbuf, powerUps := p }) ∧
  ∀ (s : State) (m : Memory) (p : Nat),
    (∀ j, j < (s.opb.extractLsb' 0 16).toNat →
      ({ s with xbuf := m, powerUps := p } : State).xbufByte j = s.xbufByte j) →
    ∃ t, exec .appStr s = .next t ∧
      exec .appStr { s with xbuf := m, powerUps := p } = .next { t with xbuf := m, powerUps := p }

/-- A command reads no bits of `OPA` and `OPB` but those R74 names, and keeps the others (30_encoding.md
R74, 10_state.md R22). -/
def Obligations.UnnamedOperandBitsAreIgnored : Prop :=
  ∀ (i : Instr) (s : State) (a b : Word), i ≠ .sreset →
    a &&& (operandMask i).1 = s.opa &&& (operandMask i).1 →
    b &&& (operandMask i).2 = s.opb &&& (operandMask i).2 →
    ∃ t, exec i s = .next t ∧ exec i { s with opa := a, opb := b } = .next { t with opa := a, opb := b }
end

