-- ==== Sys2Proof/Laws/Memory.lean ====
section
/-! SUPPORT. The laws of the byte buffers: read after write, and every write keeps the canonical form and
the buffer's size. -/

namespace Sys2Proof.Machine

/-! ## Looking up after a write -/

theorem Memory.lookup_insert (m : Memory) (a b : Nat) (v : Byte) :
    Memory.lookup (Memory.insert a v m) b = if a = b then some v else Memory.lookup m b := by
  induction m with
  | nil => simp [Memory.insert, Memory.lookup]
  | cons c m ih =>
    obtain ⟨k, w⟩ := c
    by_cases h1 : a < k
    · simp [Memory.insert, Memory.lookup, h1]
    · by_cases h2 : a = k
      · subst h2
        by_cases h3 : a = b <;> simp [Memory.insert, Memory.lookup, h3]
      · simp only [Memory.insert, if_neg h1, if_neg h2, Memory.lookup, ih]
        by_cases h3 : k = b
        · subst h3; simp [h2]
        · simp [h3]

theorem Memory.lookup_erase (m : Memory) (a b : Nat) :
    Memory.lookup (Memory.erase a m) b = if a = b then none else Memory.lookup m b := by
  induction m with
  | nil => simp [Memory.erase, Memory.lookup]
  | cons c m ih =>
    obtain ⟨k, w⟩ := c
    simp only [Memory.erase] at ih
    by_cases h1 : k = a
    · subst h1
      by_cases h2 : k = b <;> simp_all [Memory.erase, Memory.lookup]
    · by_cases h2 : k = b
      · subst h2; simp_all [Memory.erase, Memory.lookup, Ne.symm h1]
      · simp_all [Memory.erase, Memory.lookup]

/-- What a cell reads as: its entry, else what an unlisted offset reads as. -/
def Memory.value (k : Buffer) (m : Memory) (a : Nat) : Option Byte :=
  (Memory.lookup m a).or (Memory.unlisted k)

theorem Memory.value_write (k : Buffer) (m : Memory) (a b : Nat) (v : Byte) :
    Memory.value k (Memory.write k m a v) b = if b = a then some v else Memory.value k m b := by
  unfold Memory.value Memory.write
  by_cases h : Memory.unlisted k = some v
  · by_cases hb : b = a
    · subst hb; simp [h, Memory.lookup_erase]
    · simp [h, Memory.lookup_erase, hb, Ne.symm hb]
  · by_cases hb : b = a
    · subst hb; simp [h, Memory.lookup_insert]
    · simp [h, Memory.lookup_insert, hb, Ne.symm hb]

/-- The cell `b` after `MemWrite` of `bs` at `a`: the written byte inside the range, else as before. -/
theorem Memory.value_writeBytes (k : Buffer) (bs : List Byte) :
    ∀ (m : Memory) (a b : Nat),
      Memory.value k (Memory.writeBytes k m a bs) b =
        if a ≤ b ∧ b < a + bs.length then bs[b - a]? else Memory.value k m b := by
  induction bs with
  | nil => intro m a b; simp [Memory.writeBytes]
  | cons v bs ih =>
    intro m a b
    rw [Memory.writeBytes, ih, Memory.value_write]
    by_cases h1 : b = a
    · subst h1; simp
    · by_cases h2 : a + 1 ≤ b ∧ b < a + 1 + bs.length
      · have h3 : a ≤ b ∧ b < a + (v :: bs).length := by simp only [List.length_cons]; omega
        have h4 : b - a = (b - (a + 1)) + 1 := by omega
        rw [if_pos h2, if_pos h3, h4, List.getElem?_cons_succ]
      · have h3 : ¬ (a ≤ b ∧ b < a + (v :: bs).length) := by simp only [List.length_cons]; omega
        rw [if_neg h2, if_neg h3, if_neg h1]

/-! ## The canonical form -/

theorem Memory.rising_weaken {lo : Option Nat} {m : Memory} (h : Memory.rising lo m = true) :
    Memory.rising none m = true := by
  cases m with
  | nil => rfl
  | cons c m => cases lo <;> simp_all [Memory.rising]

theorem Memory.rising_some_iff (lo : Nat) (m : Memory) :
    Memory.rising (some lo) m = true ↔
      Memory.rising none m = true ∧ ∀ c ∈ m, lo < c.1 := by
  induction m generalizing lo with
  | nil => simp [Memory.rising]
  | cons c m ih =>
    obtain ⟨k, w⟩ := c
    simp only [Memory.rising, Bool.and_eq_true, decide_eq_true_eq, List.mem_cons, forall_eq_or_imp]
    refine ⟨fun ⟨h1, h2⟩ => ⟨h2, h1, fun c hc => ?_⟩, fun ⟨h1, h2, _⟩ => ⟨h2, h1⟩⟩
    exact Nat.lt_trans h1 (((ih k).1 h2).2 c hc)

/-- The rising order, as Mathlib's pairwise order on the offsets. -/
theorem Memory.rising_iff_pairwise (m : Memory) :
    Memory.rising none m = true ↔ m.Pairwise fun c d => c.1 < d.1 := by
  induction m with
  | nil => simp [Memory.rising]
  | cons c m ih =>
    obtain ⟨k, w⟩ := c
    simp only [Memory.rising, Memory.rising_some_iff, ih, List.pairwise_cons]
    exact and_comm

theorem Memory.mem_insert {a : Nat} {v : Byte} {m : Memory} {c : Host.Cell}
    (h : c ∈ Memory.insert a v m) : c = (a, v) ∨ c ∈ m := by
  induction m with
  | nil => simpa [Memory.insert] using h
  | cons d m ih =>
    obtain ⟨k, w⟩ := d
    simp only [Memory.insert] at h
    split at h
    · simpa using h
    · split at h
      · rcases List.mem_cons.1 h with h | h
        · exact .inl h
        · exact .inr (List.mem_cons_of_mem _ h)
      · rcases List.mem_cons.1 h with h | h
        · exact .inr (by simp [h])
        · rcases ih h with h | h
          · exact .inl h
          · exact .inr (List.mem_cons_of_mem _ h)

theorem Memory.insert_pairwise (a : Nat) (v : Byte) {m : Memory}
    (h : m.Pairwise fun c d => c.1 < d.1) :
    (Memory.insert a v m).Pairwise fun c d => c.1 < d.1 := by
  induction m with
  | nil => simp [Memory.insert]
  | cons d m ih =>
    obtain ⟨k, w⟩ := d
    obtain ⟨h1, h2⟩ := List.pairwise_cons.1 h
    simp only [Memory.insert]
    split
    · rename_i hlt
      refine List.pairwise_cons.2 ⟨fun c hc => ?_, h⟩
      rcases List.mem_cons.1 hc with rfl | hc
      · exact hlt
      · exact Nat.lt_trans hlt (h1 c hc)
    · split
      · rename_i _ heq
        subst heq
        exact List.pairwise_cons.2 ⟨h1, h2⟩
      · rename_i hlt hne
        refine List.pairwise_cons.2 ⟨fun c hc => ?_, ih h2⟩
        rcases Memory.mem_insert hc with rfl | hc
        · simp only; omega
        · exact h1 c hc

/-- Writing a byte keeps the canonical form. -/
theorem Memory.wf_write (k : Buffer) {m : Memory} (a : Nat) (v : Byte) (h : Memory.wf k m = true) :
    Memory.wf k (Memory.write k m a v) = true := by
  simp only [Memory.wf, Bool.and_eq_true, Memory.rising_iff_pairwise, List.all_eq_true,
    decide_eq_true_eq] at h ⊢
  unfold Memory.write
  split
  · exact ⟨h.1.filter _, fun c hc => h.2 c (List.mem_filter.1 hc).1⟩
  · rename_i hv
    refine ⟨Memory.insert_pairwise a v h.1, fun c hc => ?_⟩
    rcases Memory.mem_insert hc with rfl | hc
    · exact hv
    · exact h.2 c hc

/-- Writing a range keeps the canonical form. -/
theorem Memory.wf_writeBytes (k : Buffer) (bs : List Byte) :
    ∀ {m : Memory} (a : Nat), Memory.wf k m = true → Memory.wf k (Memory.writeBytes k m a bs) = true := by
  induction bs with
  | nil => intro m a h; exact h
  | cons v bs ih => intro m a h; exact ih (a + 1) (Memory.wf_write k a v h)

/-- The empty memory, all of it as an unlisted offset reads, is in canonical form. -/
theorem Memory.wf_nil (k : Buffer) : Memory.wf k [] = true := rfl

/-! ## The buffer's size -/

theorem Memory.within_write (k : Buffer) {size : Nat} {m : Memory} {a : Nat} (v : Byte) (ha : a < size)
    (h : Memory.within size m = true) : Memory.within size (Memory.write k m a v) = true := by
  simp only [Memory.within, List.all_eq_true, decide_eq_true_eq] at h ⊢
  unfold Memory.write
  split
  · exact fun c hc => h c (List.mem_filter.1 hc).1
  · intro c hc
    rcases Memory.mem_insert hc with rfl | hc
    · exact ha
    · exact h c hc

/-- Writing a range inside the buffer lists no cell outside it. -/
theorem Memory.within_writeBytes (k : Buffer) {size : Nat} (bs : List Byte) :
    ∀ {m : Memory} {a : Nat}, a + bs.length ≤ size → Memory.within size m = true →
      Memory.within size (Memory.writeBytes k m a bs) = true := by
  induction bs with
  | nil => intro m a _ h; exact h
  | cons v bs ih =>
    intro m a ha h
    simp only [List.length_cons] at ha
    exact ih (by omega) (Memory.within_write k v (by omega) h)

end Sys2Proof.Machine
end

