-- ==== Sys2Proof/Laws/State.lean ====
section
/-! SUPPORT. One lemma per field per update of the state, so that no proof unfolds an update. -/

namespace Sys2Proof.Machine

variable (s : State)

/-! ### `setCmd` -/

@[simp] theorem setCmd_cmd (v : Word) : (s.setCmd v).cmd = v := rfl
@[simp] theorem setCmd_opa (v : Word) : (s.setCmd v).opa = s.opa := rfl
@[simp] theorem setCmd_opb (v : Word) : (s.setCmd v).opb = s.opb := rfl
@[simp] theorem setCmd_res (v : Word) : (s.setCmd v).res = s.res := rfl
@[simp] theorem setCmd_code (v : Word) : (s.setCmd v).code = s.code := rfl
@[simp] theorem setCmd_crc (v : Word) : (s.setCmd v).crc = s.crc := rfl
@[simp] theorem setCmd_lstart (v : Word) : (s.setCmd v).lstart = s.lstart := rfl
@[simp] theorem setCmd_llen (v : Word) : (s.setCmd v).llen = s.llen := rfl
@[simp] theorem setCmd_cidx (v : Word) : (s.setCmd v).cidx = s.cidx := rfl
@[simp] theorem setCmd_fcount (v : Word) : (s.setCmd v).fcount = s.fcount := rfl
@[simp] theorem setCmd_cvalid (v : Word) : (s.setCmd v).cvalid = s.cvalid := rfl
@[simp] theorem setCmd_buf (v : Word) : (s.setCmd v).buf = s.buf := rfl
@[simp] theorem setCmd_xbuf (v : Word) : (s.setCmd v).xbuf = s.xbuf := rfl
@[simp] theorem setCmd_cfg (v : Word) : (s.setCmd v).cfg = s.cfg := rfl
@[simp] theorem setCmd_powerUps (v : Word) : (s.setCmd v).powerUps = s.powerUps := rfl
@[simp] theorem setCmd_inputs (v : Word) : (s.setCmd v).inputs = s.inputs := rfl
@[simp] theorem setCmd_replies (v : Word) : (s.setCmd v).replies = s.replies := rfl

/-! ### `setOpa` -/

@[simp] theorem setOpa_cmd (v : Word) : (s.setOpa v).cmd = s.cmd := rfl
@[simp] theorem setOpa_opa (v : Word) : (s.setOpa v).opa = v := rfl
@[simp] theorem setOpa_opb (v : Word) : (s.setOpa v).opb = s.opb := rfl
@[simp] theorem setOpa_res (v : Word) : (s.setOpa v).res = s.res := rfl
@[simp] theorem setOpa_code (v : Word) : (s.setOpa v).code = s.code := rfl
@[simp] theorem setOpa_crc (v : Word) : (s.setOpa v).crc = s.crc := rfl
@[simp] theorem setOpa_lstart (v : Word) : (s.setOpa v).lstart = s.lstart := rfl
@[simp] theorem setOpa_llen (v : Word) : (s.setOpa v).llen = s.llen := rfl
@[simp] theorem setOpa_cidx (v : Word) : (s.setOpa v).cidx = s.cidx := rfl
@[simp] theorem setOpa_fcount (v : Word) : (s.setOpa v).fcount = s.fcount := rfl
@[simp] theorem setOpa_cvalid (v : Word) : (s.setOpa v).cvalid = s.cvalid := rfl
@[simp] theorem setOpa_buf (v : Word) : (s.setOpa v).buf = s.buf := rfl
@[simp] theorem setOpa_xbuf (v : Word) : (s.setOpa v).xbuf = s.xbuf := rfl
@[simp] theorem setOpa_cfg (v : Word) : (s.setOpa v).cfg = s.cfg := rfl
@[simp] theorem setOpa_powerUps (v : Word) : (s.setOpa v).powerUps = s.powerUps := rfl
@[simp] theorem setOpa_inputs (v : Word) : (s.setOpa v).inputs = s.inputs := rfl
@[simp] theorem setOpa_replies (v : Word) : (s.setOpa v).replies = s.replies := rfl

/-! ### `setOpb` -/

@[simp] theorem setOpb_cmd (v : Word) : (s.setOpb v).cmd = s.cmd := rfl
@[simp] theorem setOpb_opa (v : Word) : (s.setOpb v).opa = s.opa := rfl
@[simp] theorem setOpb_opb (v : Word) : (s.setOpb v).opb = v := rfl
@[simp] theorem setOpb_res (v : Word) : (s.setOpb v).res = s.res := rfl
@[simp] theorem setOpb_code (v : Word) : (s.setOpb v).code = s.code := rfl
@[simp] theorem setOpb_crc (v : Word) : (s.setOpb v).crc = s.crc := rfl
@[simp] theorem setOpb_lstart (v : Word) : (s.setOpb v).lstart = s.lstart := rfl
@[simp] theorem setOpb_llen (v : Word) : (s.setOpb v).llen = s.llen := rfl
@[simp] theorem setOpb_cidx (v : Word) : (s.setOpb v).cidx = s.cidx := rfl
@[simp] theorem setOpb_fcount (v : Word) : (s.setOpb v).fcount = s.fcount := rfl
@[simp] theorem setOpb_cvalid (v : Word) : (s.setOpb v).cvalid = s.cvalid := rfl
@[simp] theorem setOpb_buf (v : Word) : (s.setOpb v).buf = s.buf := rfl
@[simp] theorem setOpb_xbuf (v : Word) : (s.setOpb v).xbuf = s.xbuf := rfl
@[simp] theorem setOpb_cfg (v : Word) : (s.setOpb v).cfg = s.cfg := rfl
@[simp] theorem setOpb_powerUps (v : Word) : (s.setOpb v).powerUps = s.powerUps := rfl
@[simp] theorem setOpb_inputs (v : Word) : (s.setOpb v).inputs = s.inputs := rfl
@[simp] theorem setOpb_replies (v : Word) : (s.setOpb v).replies = s.replies := rfl

/-! ### `setRes` -/

@[simp] theorem setRes_cmd (v : Word) : (s.setRes v).cmd = s.cmd := rfl
@[simp] theorem setRes_opa (v : Word) : (s.setRes v).opa = s.opa := rfl
@[simp] theorem setRes_opb (v : Word) : (s.setRes v).opb = s.opb := rfl
@[simp] theorem setRes_res (v : Word) : (s.setRes v).res = v := rfl
@[simp] theorem setRes_code (v : Word) : (s.setRes v).code = s.code := rfl
@[simp] theorem setRes_crc (v : Word) : (s.setRes v).crc = s.crc := rfl
@[simp] theorem setRes_lstart (v : Word) : (s.setRes v).lstart = s.lstart := rfl
@[simp] theorem setRes_llen (v : Word) : (s.setRes v).llen = s.llen := rfl
@[simp] theorem setRes_cidx (v : Word) : (s.setRes v).cidx = s.cidx := rfl
@[simp] theorem setRes_fcount (v : Word) : (s.setRes v).fcount = s.fcount := rfl
@[simp] theorem setRes_cvalid (v : Word) : (s.setRes v).cvalid = s.cvalid := rfl
@[simp] theorem setRes_buf (v : Word) : (s.setRes v).buf = s.buf := rfl
@[simp] theorem setRes_xbuf (v : Word) : (s.setRes v).xbuf = s.xbuf := rfl
@[simp] theorem setRes_cfg (v : Word) : (s.setRes v).cfg = s.cfg := rfl
@[simp] theorem setRes_powerUps (v : Word) : (s.setRes v).powerUps = s.powerUps := rfl
@[simp] theorem setRes_inputs (v : Word) : (s.setRes v).inputs = s.inputs := rfl
@[simp] theorem setRes_replies (v : Word) : (s.setRes v).replies = s.replies := rfl

/-! ### `setCode` -/

@[simp] theorem setCode_cmd (c : Code) : (s.setCode c).cmd = s.cmd := rfl
@[simp] theorem setCode_opa (c : Code) : (s.setCode c).opa = s.opa := rfl
@[simp] theorem setCode_opb (c : Code) : (s.setCode c).opb = s.opb := rfl
@[simp] theorem setCode_res (c : Code) : (s.setCode c).res = s.res := rfl
@[simp] theorem setCode_code (c : Code) : (s.setCode c).code = codeBits c := rfl
@[simp] theorem setCode_crc (c : Code) : (s.setCode c).crc = s.crc := rfl
@[simp] theorem setCode_lstart (c : Code) : (s.setCode c).lstart = s.lstart := rfl
@[simp] theorem setCode_llen (c : Code) : (s.setCode c).llen = s.llen := rfl
@[simp] theorem setCode_cidx (c : Code) : (s.setCode c).cidx = s.cidx := rfl
@[simp] theorem setCode_fcount (c : Code) : (s.setCode c).fcount = s.fcount := rfl
@[simp] theorem setCode_cvalid (c : Code) : (s.setCode c).cvalid = s.cvalid := rfl
@[simp] theorem setCode_buf (c : Code) : (s.setCode c).buf = s.buf := rfl
@[simp] theorem setCode_xbuf (c : Code) : (s.setCode c).xbuf = s.xbuf := rfl
@[simp] theorem setCode_cfg (c : Code) : (s.setCode c).cfg = s.cfg := rfl
@[simp] theorem setCode_powerUps (c : Code) : (s.setCode c).powerUps = s.powerUps := rfl
@[simp] theorem setCode_inputs (c : Code) : (s.setCode c).inputs = s.inputs := rfl
@[simp] theorem setCode_replies (c : Code) : (s.setCode c).replies = s.replies := rfl

/-! ### `setCrc` -/

@[simp] theorem setCrc_cmd (v : Half) : (s.setCrc v).cmd = s.cmd := rfl
@[simp] theorem setCrc_opa (v : Half) : (s.setCrc v).opa = s.opa := rfl
@[simp] theorem setCrc_opb (v : Half) : (s.setCrc v).opb = s.opb := rfl
@[simp] theorem setCrc_res (v : Half) : (s.setCrc v).res = s.res := rfl
@[simp] theorem setCrc_code (v : Half) : (s.setCrc v).code = s.code := rfl
@[simp] theorem setCrc_crc (v : Half) : (s.setCrc v).crc = v := rfl
@[simp] theorem setCrc_lstart (v : Half) : (s.setCrc v).lstart = s.lstart := rfl
@[simp] theorem setCrc_llen (v : Half) : (s.setCrc v).llen = s.llen := rfl
@[simp] theorem setCrc_cidx (v : Half) : (s.setCrc v).cidx = s.cidx := rfl
@[simp] theorem setCrc_fcount (v : Half) : (s.setCrc v).fcount = s.fcount := rfl
@[simp] theorem setCrc_cvalid (v : Half) : (s.setCrc v).cvalid = s.cvalid := rfl
@[simp] theorem setCrc_buf (v : Half) : (s.setCrc v).buf = s.buf := rfl
@[simp] theorem setCrc_xbuf (v : Half) : (s.setCrc v).xbuf = s.xbuf := rfl
@[simp] theorem setCrc_cfg (v : Half) : (s.setCrc v).cfg = s.cfg := rfl
@[simp] theorem setCrc_powerUps (v : Half) : (s.setCrc v).powerUps = s.powerUps := rfl
@[simp] theorem setCrc_inputs (v : Half) : (s.setCrc v).inputs = s.inputs := rfl
@[simp] theorem setCrc_replies (v : Half) : (s.setCrc v).replies = s.replies := rfl

/-! ### `setLoc` -/

@[simp] theorem setLoc_cmd (x y : Byte) : (s.setLoc x y).cmd = s.cmd := rfl
@[simp] theorem setLoc_opa (x y : Byte) : (s.setLoc x y).opa = s.opa := rfl
@[simp] theorem setLoc_opb (x y : Byte) : (s.setLoc x y).opb = s.opb := rfl
@[simp] theorem setLoc_res (x y : Byte) : (s.setLoc x y).res = s.res := rfl
@[simp] theorem setLoc_code (x y : Byte) : (s.setLoc x y).code = s.code := rfl
@[simp] theorem setLoc_crc (x y : Byte) : (s.setLoc x y).crc = s.crc := rfl
@[simp] theorem setLoc_lstart (x y : Byte) : (s.setLoc x y).lstart = x := rfl
@[simp] theorem setLoc_llen (x y : Byte) : (s.setLoc x y).llen = y := rfl
@[simp] theorem setLoc_cidx (x y : Byte) : (s.setLoc x y).cidx = s.cidx := rfl
@[simp] theorem setLoc_fcount (x y : Byte) : (s.setLoc x y).fcount = s.fcount := rfl
@[simp] theorem setLoc_cvalid (x y : Byte) : (s.setLoc x y).cvalid = s.cvalid := rfl
@[simp] theorem setLoc_buf (x y : Byte) : (s.setLoc x y).buf = s.buf := rfl
@[simp] theorem setLoc_xbuf (x y : Byte) : (s.setLoc x y).xbuf = s.xbuf := rfl
@[simp] theorem setLoc_cfg (x y : Byte) : (s.setLoc x y).cfg = s.cfg := rfl
@[simp] theorem setLoc_powerUps (x y : Byte) : (s.setLoc x y).powerUps = s.powerUps := rfl
@[simp] theorem setLoc_inputs (x y : Byte) : (s.setLoc x y).inputs = s.inputs := rfl
@[simp] theorem setLoc_replies (x y : Byte) : (s.setLoc x y).replies = s.replies := rfl

/-! ### `setCidx` -/

@[simp] theorem setCidx_cmd (v : Byte) : (s.setCidx v).cmd = s.cmd := rfl
@[simp] theorem setCidx_opa (v : Byte) : (s.setCidx v).opa = s.opa := rfl
@[simp] theorem setCidx_opb (v : Byte) : (s.setCidx v).opb = s.opb := rfl
@[simp] theorem setCidx_res (v : Byte) : (s.setCidx v).res = s.res := rfl
@[simp] theorem setCidx_code (v : Byte) : (s.setCidx v).code = s.code := rfl
@[simp] theorem setCidx_crc (v : Byte) : (s.setCidx v).crc = s.crc := rfl
@[simp] theorem setCidx_lstart (v : Byte) : (s.setCidx v).lstart = s.lstart := rfl
@[simp] theorem setCidx_llen (v : Byte) : (s.setCidx v).llen = s.llen := rfl
@[simp] theorem setCidx_cidx (v : Byte) : (s.setCidx v).cidx = v := rfl
@[simp] theorem setCidx_fcount (v : Byte) : (s.setCidx v).fcount = s.fcount := rfl
@[simp] theorem setCidx_cvalid (v : Byte) : (s.setCidx v).cvalid = s.cvalid := rfl
@[simp] theorem setCidx_buf (v : Byte) : (s.setCidx v).buf = s.buf := rfl
@[simp] theorem setCidx_xbuf (v : Byte) : (s.setCidx v).xbuf = s.xbuf := rfl
@[simp] theorem setCidx_cfg (v : Byte) : (s.setCidx v).cfg = s.cfg := rfl
@[simp] theorem setCidx_powerUps (v : Byte) : (s.setCidx v).powerUps = s.powerUps := rfl
@[simp] theorem setCidx_inputs (v : Byte) : (s.setCidx v).inputs = s.inputs := rfl
@[simp] theorem setCidx_replies (v : Byte) : (s.setCidx v).replies = s.replies := rfl

/-! ### `setCount` -/

@[simp] theorem setCount_cmd (n : BitVec 9) (b : Bool) : (s.setCount n b).cmd = s.cmd := rfl
@[simp] theorem setCount_opa (n : BitVec 9) (b : Bool) : (s.setCount n b).opa = s.opa := rfl
@[simp] theorem setCount_opb (n : BitVec 9) (b : Bool) : (s.setCount n b).opb = s.opb := rfl
@[simp] theorem setCount_res (n : BitVec 9) (b : Bool) : (s.setCount n b).res = s.res := rfl
@[simp] theorem setCount_code (n : BitVec 9) (b : Bool) : (s.setCount n b).code = s.code := rfl
@[simp] theorem setCount_crc (n : BitVec 9) (b : Bool) : (s.setCount n b).crc = s.crc := rfl
@[simp] theorem setCount_lstart (n : BitVec 9) (b : Bool) : (s.setCount n b).lstart = s.lstart := rfl
@[simp] theorem setCount_llen (n : BitVec 9) (b : Bool) : (s.setCount n b).llen = s.llen := rfl
@[simp] theorem setCount_cidx (n : BitVec 9) (b : Bool) : (s.setCount n b).cidx = s.cidx := rfl
@[simp] theorem setCount_fcount (n : BitVec 9) (b : Bool) : (s.setCount n b).fcount = n := rfl
@[simp] theorem setCount_cvalid (n : BitVec 9) (b : Bool) : (s.setCount n b).cvalid = b := rfl
@[simp] theorem setCount_buf (n : BitVec 9) (b : Bool) : (s.setCount n b).buf = s.buf := rfl
@[simp] theorem setCount_xbuf (n : BitVec 9) (b : Bool) : (s.setCount n b).xbuf = s.xbuf := rfl
@[simp] theorem setCount_cfg (n : BitVec 9) (b : Bool) : (s.setCount n b).cfg = s.cfg := rfl
@[simp] theorem setCount_powerUps (n : BitVec 9) (b : Bool) : (s.setCount n b).powerUps = s.powerUps := rfl
@[simp] theorem setCount_inputs (n : BitVec 9) (b : Bool) : (s.setCount n b).inputs = s.inputs := rfl
@[simp] theorem setCount_replies (n : BitVec 9) (b : Bool) : (s.setCount n b).replies = s.replies := rfl

/-! ### `setBuf` -/

@[simp] theorem setBuf_cmd (m : Memory) : (s.setBuf m).cmd = s.cmd := rfl
@[simp] theorem setBuf_opa (m : Memory) : (s.setBuf m).opa = s.opa := rfl
@[simp] theorem setBuf_opb (m : Memory) : (s.setBuf m).opb = s.opb := rfl
@[simp] theorem setBuf_res (m : Memory) : (s.setBuf m).res = s.res := rfl
@[simp] theorem setBuf_code (m : Memory) : (s.setBuf m).code = s.code := rfl
@[simp] theorem setBuf_crc (m : Memory) : (s.setBuf m).crc = s.crc := rfl
@[simp] theorem setBuf_lstart (m : Memory) : (s.setBuf m).lstart = s.lstart := rfl
@[simp] theorem setBuf_llen (m : Memory) : (s.setBuf m).llen = s.llen := rfl
@[simp] theorem setBuf_cidx (m : Memory) : (s.setBuf m).cidx = s.cidx := rfl
@[simp] theorem setBuf_fcount (m : Memory) : (s.setBuf m).fcount = s.fcount := rfl
@[simp] theorem setBuf_cvalid (m : Memory) : (s.setBuf m).cvalid = s.cvalid := rfl
@[simp] theorem setBuf_buf (m : Memory) : (s.setBuf m).buf = m := rfl
@[simp] theorem setBuf_xbuf (m : Memory) : (s.setBuf m).xbuf = s.xbuf := rfl
@[simp] theorem setBuf_cfg (m : Memory) : (s.setBuf m).cfg = s.cfg := rfl
@[simp] theorem setBuf_powerUps (m : Memory) : (s.setBuf m).powerUps = s.powerUps := rfl
@[simp] theorem setBuf_inputs (m : Memory) : (s.setBuf m).inputs = s.inputs := rfl
@[simp] theorem setBuf_replies (m : Memory) : (s.setBuf m).replies = s.replies := rfl

/-! ### `setXbuf` -/

@[simp] theorem setXbuf_cmd (m : Memory) : (s.setXbuf m).cmd = s.cmd := rfl
@[simp] theorem setXbuf_opa (m : Memory) : (s.setXbuf m).opa = s.opa := rfl
@[simp] theorem setXbuf_opb (m : Memory) : (s.setXbuf m).opb = s.opb := rfl
@[simp] theorem setXbuf_res (m : Memory) : (s.setXbuf m).res = s.res := rfl
@[simp] theorem setXbuf_code (m : Memory) : (s.setXbuf m).code = s.code := rfl
@[simp] theorem setXbuf_crc (m : Memory) : (s.setXbuf m).crc = s.crc := rfl
@[simp] theorem setXbuf_lstart (m : Memory) : (s.setXbuf m).lstart = s.lstart := rfl
@[simp] theorem setXbuf_llen (m : Memory) : (s.setXbuf m).llen = s.llen := rfl
@[simp] theorem setXbuf_cidx (m : Memory) : (s.setXbuf m).cidx = s.cidx := rfl
@[simp] theorem setXbuf_fcount (m : Memory) : (s.setXbuf m).fcount = s.fcount := rfl
@[simp] theorem setXbuf_cvalid (m : Memory) : (s.setXbuf m).cvalid = s.cvalid := rfl
@[simp] theorem setXbuf_buf (m : Memory) : (s.setXbuf m).buf = s.buf := rfl
@[simp] theorem setXbuf_xbuf (m : Memory) : (s.setXbuf m).xbuf = m := rfl
@[simp] theorem setXbuf_cfg (m : Memory) : (s.setXbuf m).cfg = s.cfg := rfl
@[simp] theorem setXbuf_powerUps (m : Memory) : (s.setXbuf m).powerUps = s.powerUps := rfl
@[simp] theorem setXbuf_inputs (m : Memory) : (s.setXbuf m).inputs = s.inputs := rfl
@[simp] theorem setXbuf_replies (m : Memory) : (s.setXbuf m).replies = s.replies := rfl

/-! ### `setInputs` -/

@[simp] theorem setInputs_cmd (l : List Input) : (s.setInputs l).cmd = s.cmd := rfl
@[simp] theorem setInputs_opa (l : List Input) : (s.setInputs l).opa = s.opa := rfl
@[simp] theorem setInputs_opb (l : List Input) : (s.setInputs l).opb = s.opb := rfl
@[simp] theorem setInputs_res (l : List Input) : (s.setInputs l).res = s.res := rfl
@[simp] theorem setInputs_code (l : List Input) : (s.setInputs l).code = s.code := rfl
@[simp] theorem setInputs_crc (l : List Input) : (s.setInputs l).crc = s.crc := rfl
@[simp] theorem setInputs_lstart (l : List Input) : (s.setInputs l).lstart = s.lstart := rfl
@[simp] theorem setInputs_llen (l : List Input) : (s.setInputs l).llen = s.llen := rfl
@[simp] theorem setInputs_cidx (l : List Input) : (s.setInputs l).cidx = s.cidx := rfl
@[simp] theorem setInputs_fcount (l : List Input) : (s.setInputs l).fcount = s.fcount := rfl
@[simp] theorem setInputs_cvalid (l : List Input) : (s.setInputs l).cvalid = s.cvalid := rfl
@[simp] theorem setInputs_buf (l : List Input) : (s.setInputs l).buf = s.buf := rfl
@[simp] theorem setInputs_xbuf (l : List Input) : (s.setInputs l).xbuf = s.xbuf := rfl
@[simp] theorem setInputs_cfg (l : List Input) : (s.setInputs l).cfg = s.cfg := rfl
@[simp] theorem setInputs_powerUps (l : List Input) : (s.setInputs l).powerUps = s.powerUps := rfl
@[simp] theorem setInputs_inputs (l : List Input) : (s.setInputs l).inputs = l := rfl
@[simp] theorem setInputs_replies (l : List Input) : (s.setInputs l).replies = s.replies := rfl

/-! ### `addReply` -/

@[simp] theorem addReply_cmd (r : Reply) : (s.addReply r).cmd = s.cmd := rfl
@[simp] theorem addReply_opa (r : Reply) : (s.addReply r).opa = s.opa := rfl
@[simp] theorem addReply_opb (r : Reply) : (s.addReply r).opb = s.opb := rfl
@[simp] theorem addReply_res (r : Reply) : (s.addReply r).res = s.res := rfl
@[simp] theorem addReply_code (r : Reply) : (s.addReply r).code = s.code := rfl
@[simp] theorem addReply_crc (r : Reply) : (s.addReply r).crc = s.crc := rfl
@[simp] theorem addReply_lstart (r : Reply) : (s.addReply r).lstart = s.lstart := rfl
@[simp] theorem addReply_llen (r : Reply) : (s.addReply r).llen = s.llen := rfl
@[simp] theorem addReply_cidx (r : Reply) : (s.addReply r).cidx = s.cidx := rfl
@[simp] theorem addReply_fcount (r : Reply) : (s.addReply r).fcount = s.fcount := rfl
@[simp] theorem addReply_cvalid (r : Reply) : (s.addReply r).cvalid = s.cvalid := rfl
@[simp] theorem addReply_buf (r : Reply) : (s.addReply r).buf = s.buf := rfl
@[simp] theorem addReply_xbuf (r : Reply) : (s.addReply r).xbuf = s.xbuf := rfl
@[simp] theorem addReply_cfg (r : Reply) : (s.addReply r).cfg = s.cfg := rfl
@[simp] theorem addReply_powerUps (r : Reply) : (s.addReply r).powerUps = s.powerUps := rfl
@[simp] theorem addReply_inputs (r : Reply) : (s.addReply r).inputs = s.inputs := rfl
@[simp] theorem addReply_replies (r : Reply) : (s.addReply r).replies = s.replies ++ [r] := rfl

/-! ### `putBuf` -/

@[simp] theorem putBuf_cmd (a : Nat) (bs : List Byte) : (s.putBuf a bs).cmd = s.cmd := rfl
@[simp] theorem putBuf_opa (a : Nat) (bs : List Byte) : (s.putBuf a bs).opa = s.opa := rfl
@[simp] theorem putBuf_opb (a : Nat) (bs : List Byte) : (s.putBuf a bs).opb = s.opb := rfl
@[simp] theorem putBuf_res (a : Nat) (bs : List Byte) : (s.putBuf a bs).res = s.res := rfl
@[simp] theorem putBuf_code (a : Nat) (bs : List Byte) : (s.putBuf a bs).code = s.code := rfl
@[simp] theorem putBuf_crc (a : Nat) (bs : List Byte) : (s.putBuf a bs).crc = s.crc := rfl
@[simp] theorem putBuf_lstart (a : Nat) (bs : List Byte) : (s.putBuf a bs).lstart = s.lstart := rfl
@[simp] theorem putBuf_llen (a : Nat) (bs : List Byte) : (s.putBuf a bs).llen = s.llen := rfl
@[simp] theorem putBuf_cidx (a : Nat) (bs : List Byte) : (s.putBuf a bs).cidx = s.cidx := rfl
@[simp] theorem putBuf_fcount (a : Nat) (bs : List Byte) : (s.putBuf a bs).fcount = s.fcount := rfl
@[simp] theorem putBuf_cvalid (a : Nat) (bs : List Byte) : (s.putBuf a bs).cvalid = s.cvalid := rfl
@[simp] theorem putBuf_buf (a : Nat) (bs : List Byte) : (s.putBuf a bs).buf = Memory.writeBytes .buf s.buf a bs := rfl
@[simp] theorem putBuf_xbuf (a : Nat) (bs : List Byte) : (s.putBuf a bs).xbuf = s.xbuf := rfl
@[simp] theorem putBuf_cfg (a : Nat) (bs : List Byte) : (s.putBuf a bs).cfg = s.cfg := rfl
@[simp] theorem putBuf_powerUps (a : Nat) (bs : List Byte) : (s.putBuf a bs).powerUps = s.powerUps := rfl
@[simp] theorem putBuf_inputs (a : Nat) (bs : List Byte) : (s.putBuf a bs).inputs = s.inputs := rfl
@[simp] theorem putBuf_replies (a : Nat) (bs : List Byte) : (s.putBuf a bs).replies = s.replies := rfl

/-! ### `putXbuf` -/

@[simp] theorem putXbuf_cmd (a : Nat) (bs : List Byte) : (s.putXbuf a bs).cmd = s.cmd := rfl
@[simp] theorem putXbuf_opa (a : Nat) (bs : List Byte) : (s.putXbuf a bs).opa = s.opa := rfl
@[simp] theorem putXbuf_opb (a : Nat) (bs : List Byte) : (s.putXbuf a bs).opb = s.opb := rfl
@[simp] theorem putXbuf_res (a : Nat) (bs : List Byte) : (s.putXbuf a bs).res = s.res := rfl
@[simp] theorem putXbuf_code (a : Nat) (bs : List Byte) : (s.putXbuf a bs).code = s.code := rfl
@[simp] theorem putXbuf_crc (a : Nat) (bs : List Byte) : (s.putXbuf a bs).crc = s.crc := rfl
@[simp] theorem putXbuf_lstart (a : Nat) (bs : List Byte) : (s.putXbuf a bs).lstart = s.lstart := rfl
@[simp] theorem putXbuf_llen (a : Nat) (bs : List Byte) : (s.putXbuf a bs).llen = s.llen := rfl
@[simp] theorem putXbuf_cidx (a : Nat) (bs : List Byte) : (s.putXbuf a bs).cidx = s.cidx := rfl
@[simp] theorem putXbuf_fcount (a : Nat) (bs : List Byte) : (s.putXbuf a bs).fcount = s.fcount := rfl
@[simp] theorem putXbuf_cvalid (a : Nat) (bs : List Byte) : (s.putXbuf a bs).cvalid = s.cvalid := rfl
@[simp] theorem putXbuf_buf (a : Nat) (bs : List Byte) : (s.putXbuf a bs).buf = s.buf := rfl
@[simp] theorem putXbuf_xbuf (a : Nat) (bs : List Byte) : (s.putXbuf a bs).xbuf = Memory.writeBytes .xbuf s.xbuf a bs := rfl
@[simp] theorem putXbuf_cfg (a : Nat) (bs : List Byte) : (s.putXbuf a bs).cfg = s.cfg := rfl
@[simp] theorem putXbuf_powerUps (a : Nat) (bs : List Byte) : (s.putXbuf a bs).powerUps = s.powerUps := rfl
@[simp] theorem putXbuf_inputs (a : Nat) (bs : List Byte) : (s.putXbuf a bs).inputs = s.inputs := rfl
@[simp] theorem putXbuf_replies (a : Nat) (bs : List Byte) : (s.putXbuf a bs).replies = s.replies := rfl

/-! ### `resetKeepingCmd` -/

@[simp] theorem resetKeepingCmd_cmd : s.resetKeepingCmd.cmd = s.cmd := rfl
@[simp] theorem resetKeepingCmd_opa : s.resetKeepingCmd.opa = 0#32 := rfl
@[simp] theorem resetKeepingCmd_opb : s.resetKeepingCmd.opb = 0#32 := rfl
@[simp] theorem resetKeepingCmd_res : s.resetKeepingCmd.res = 0#32 := rfl
@[simp] theorem resetKeepingCmd_code : s.resetKeepingCmd.code = 0#4 := rfl
@[simp] theorem resetKeepingCmd_crc : s.resetKeepingCmd.crc = 0#16 := rfl
@[simp] theorem resetKeepingCmd_lstart : s.resetKeepingCmd.lstart = 0#8 := rfl
@[simp] theorem resetKeepingCmd_llen : s.resetKeepingCmd.llen = 0#8 := rfl
@[simp] theorem resetKeepingCmd_cidx : s.resetKeepingCmd.cidx = 0#8 := rfl
@[simp] theorem resetKeepingCmd_fcount : s.resetKeepingCmd.fcount = 0#9 := rfl
@[simp] theorem resetKeepingCmd_cvalid : s.resetKeepingCmd.cvalid = false := rfl
@[simp] theorem resetKeepingCmd_buf : s.resetKeepingCmd.buf = [] := rfl
@[simp] theorem resetKeepingCmd_xbuf : s.resetKeepingCmd.xbuf = s.xbuf := rfl
@[simp] theorem resetKeepingCmd_cfg : s.resetKeepingCmd.cfg = s.cfg := rfl
@[simp] theorem resetKeepingCmd_powerUps : s.resetKeepingCmd.powerUps = s.powerUps := rfl
@[simp] theorem resetKeepingCmd_inputs : s.resetKeepingCmd.inputs = s.inputs := rfl
@[simp] theorem resetKeepingCmd_replies : s.resetKeepingCmd.replies = s.replies := rfl

/-! ### `withCommandWord` -/

@[simp] theorem withCommandWord_cmd (w : Word) : (s.withCommandWord w).cmd = s.cmd := rfl
@[simp] theorem withCommandWord_opa (w : Word) : (s.withCommandWord w).opa = s.opa := rfl
@[simp] theorem withCommandWord_opb (w : Word) : (s.withCommandWord w).opb = s.opb := rfl
@[simp] theorem withCommandWord_res (w : Word) : (s.withCommandWord w).res = s.res := rfl
@[simp] theorem withCommandWord_code (w : Word) : (s.withCommandWord w).code = s.code := rfl
@[simp] theorem withCommandWord_crc (w : Word) : (s.withCommandWord w).crc = s.crc := rfl
@[simp] theorem withCommandWord_lstart (w : Word) : (s.withCommandWord w).lstart = s.lstart := rfl
@[simp] theorem withCommandWord_llen (w : Word) : (s.withCommandWord w).llen = s.llen := rfl
@[simp] theorem withCommandWord_cidx (w : Word) : (s.withCommandWord w).cidx = s.cidx := rfl
@[simp] theorem withCommandWord_fcount (w : Word) : (s.withCommandWord w).fcount = s.fcount := rfl
@[simp] theorem withCommandWord_cvalid (w : Word) : (s.withCommandWord w).cvalid = s.cvalid := rfl
@[simp] theorem withCommandWord_buf (w : Word) : (s.withCommandWord w).buf = s.buf := rfl
@[simp] theorem withCommandWord_xbuf (w : Word) : (s.withCommandWord w).xbuf = s.xbuf := rfl
@[simp] theorem withCommandWord_cfg (w : Word) : (s.withCommandWord w).cfg = s.cfg := rfl
@[simp] theorem withCommandWord_powerUps (w : Word) : (s.withCommandWord w).powerUps = s.powerUps := rfl
@[simp] theorem withCommandWord_inputs (w : Word) : (s.withCommandWord w).inputs = .access (.write 0x000 32 w) :: s.inputs := rfl
@[simp] theorem withCommandWord_replies (w : Word) : (s.withCommandWord w).replies = s.replies := rfl

end Sys2Proof.Machine
end

