-- ==== Sys2Proof/Laws/Ops.lean ====
section
/-! SUPPORT. One lemma for each shared operation: what it can do. -/

namespace Sys2Proof.Machine

/-! ## Bytes of the buffers -/

theorem State.bufByte_eq_value (s : State) (a : Nat) :
    s.bufByte a = (Memory.value .buf s.buf a).getD 0#8 := rfl

theorem State.xbufByte_eq_value (s : State) (a : Nat) :
    s.xbufByte a = (Memory.value .xbuf s.xbuf a).getD (Config.xbufPowerUp s.powerUps a) := rfl

theorem State.bufByte_congr {s t : State} (h : s.buf = t.buf) (a : Nat) : s.bufByte a = t.bufByte a := by
  simp only [State.bufByte, h]

theorem State.bufByte_nil {s : State} (h : s.buf = []) (a : Nat) : s.bufByte a = 0#8 := by
  simp [State.bufByte, h, Memory.lookup, Memory.unlisted]

/-- `BUF[b]` after `MemWrite(BUF, a, len(bs), bs)`. -/
theorem State.bufByte_putBuf (s : State) (a : Nat) (bs : List Byte) (b : Nat) :
    (s.putBuf a bs).bufByte b =
      if h : a ≤ b ∧ b < a + bs.length then bs[b - a]'(by omega) else s.bufByte b := by
  rw [State.bufByte_eq_value, putBuf_buf, Memory.value_writeBytes]
  split
  · rename_i h
    rw [List.getElem?_eq_getElem (by omega)]; simp
  · rfl

theorem State.bufByte_putBuf_inside {s : State} {a : Nat} {bs : List Byte} {j : Nat}
    (h : j < bs.length) : (s.putBuf a bs).bufByte (a + j) = bs[j] := by
  rw [State.bufByte_putBuf, dif_pos ⟨by omega, by omega⟩]
  congr 1; omega

theorem State.bufByte_putBuf_outside {s : State} {a : Nat} {bs : List Byte} {b : Nat}
    (h : b < a ∨ a + bs.length ≤ b) : (s.putBuf a bs).bufByte b = s.bufByte b := by
  rw [State.bufByte_putBuf, dif_neg (by omega)]

/-- `XBUF[b]` after `MemWrite(XBUF, a, len(bs), bs)`. -/
theorem State.xbufByte_putXbuf (s : State) (a : Nat) (bs : List Byte) (b : Nat) :
    (s.putXbuf a bs).xbufByte b =
      if h : a ≤ b ∧ b < a + bs.length then bs[b - a]'(by omega) else s.xbufByte b := by
  rw [State.xbufByte_eq_value, putXbuf_xbuf, Memory.value_writeBytes]
  split
  · rename_i h
    rw [List.getElem?_eq_getElem (by omega)]; simp
  · rfl

@[simp] theorem State.length_bufRange (s : State) (a n : Nat) : (s.bufRange a n).length = n := by
  simp [State.bufRange]

@[simp] theorem State.length_xbufRange (s : State) (a n : Nat) : (s.xbufRange a n).length = n := by
  simp [State.xbufRange]

@[simp] theorem State.getElem_bufRange (s : State) (a n j : Nat) (h : j < (s.bufRange a n).length) :
    (s.bufRange a n)[j] = s.bufByte (a + j) := by simp [State.bufRange]

@[simp] theorem State.getElem_xbufRange (s : State) (a n j : Nat) (h : j < (s.xbufRange a n).length) :
    (s.xbufRange a n)[j] = s.xbufByte (a + j) := by simp [State.xbufRange]

/-- A range reads the same in two states whose bytes agree on it. -/
theorem State.bufRange_congr {s t : State} {a n : Nat}
    (h : ∀ j, j < n → s.bufByte (a + j) = t.bufByte (a + j)) : s.bufRange a n = t.bufRange a n :=
  List.map_congr_left fun j hj => h j (List.mem_range.1 hj)

theorem State.bufRange_eq_ofFn (s : State) (a n : Nat) :
    s.bufRange a n = List.ofFn fun j : Fin n => s.bufByte (a + j) :=
  List.ext_getElem (by simp) (by simp)

theorem State.xbufRange_zero_eq_ofFn (s : State) (n : Nat) :
    s.xbufRange 0 n = List.ofFn fun j : Fin n => s.xbufByte j :=
  List.ext_getElem (by simp) (by simp)

theorem State.dsize_lt (s : State) : s.dsize < 256 := (s.bufByte dsizeOffset).isLt

/-- `DSIZE` and the payload depend on `BUF` alone. -/
theorem State.dsize_congr {s t : State} (h : s.buf = t.buf) : s.dsize = t.dsize := by
  simp only [State.dsize, State.bufByte_congr h]

theorem State.payload_congr {s t : State} (h : s.buf = t.buf) : s.payload = t.payload := by
  unfold State.payload
  rw [State.dsize_congr h]
  exact State.bufRange_congr fun j _ => State.bufByte_congr h _

@[simp] theorem State.length_payload (s : State) : s.payload.length = s.dsize := by
  simp [State.payload]

/-! ## The configuration -/

/-- What `configOk` says, in the words of 00_scope.md R6. -/
theorem configOk_iff (c : Config) :
    configOk c = true ↔ 9 ≤ c.maxSize ∧ c.maxSize ≤ c.bufSize ∧ c.maxSize ≤ 263 ∧ c.bufSize ≤ 4096 ∧
      c.maxSize - 8 ≤ c.xbufSize ∧ c.xbufSize ≤ 4096 := by
  unfold configOk payloadCap hdrLen trlLen
  simp [and_assoc]

/-! ## Ending a command -/

/-- `finish` and `fail` always answer, and write the code alone. -/
theorem finish_next {c : Code} {s t : State} (h : finish c s = .next t) : t = s.setCode c := by
  cases h; rfl

theorem fail_next {c : Code} {s t : State} (h : fail c s = .next t) : t = s.setCode c := by
  cases h; rfl

/-! ## Byte order -/

@[simp] theorem length_beBytes (v : Int) (w : Nat) : (beBytes v w).length = w := by simp [beBytes]

theorem beValue_append (xs ys : List Byte) :
    beValue (xs ++ ys) = beValue xs * 2 ^ (8 * ys.length) + beValue ys := by
  induction xs with
  | nil => simp [beValue]
  | cons x xs ih => simp [beValue, ih, Nat.mul_add, pow_add]; ring

theorem beValue_lt (xs : List Byte) : beValue xs < 2 ^ (8 * xs.length) := by
  induction xs with
  | nil => simp [beValue]
  | cons x xs ih =>
    have hx : x.toNat + 1 ≤ 2 ^ 8 := x.isLt
    have hm := Nat.mul_le_mul_right (2 ^ (8 * xs.length)) hx
    simp only [beValue, List.length_cons, Nat.mul_add, pow_add, Nat.mul_one]
    rw [Nat.mul_comm (2 ^ (8 * xs.length)) (2 ^ 8)]
    rw [Nat.add_mul] at hm
    omega

/-- Every width that `int_bytes` takes. -/
theorem length_intBytes_le (v : Int) : (intBytes v).length ≤ 4 := by
  unfold intBytes; split
  · simp
  · split <;> simp

/-! ## The append step -/

/-- The state a successful `append_bytes(bs)` leaves, but for the code. -/
def appendState (s : State) (bs : List Byte) : State :=
  (s.putBuf (hdrLen + s.dsize) (separator s ++ bs)).putBuf dsizeOffset [BitVec.ofNat 8 (sizeAfter s bs)]

/-- What `append_bytes(bs)` can do: `OVERSIZE` and nothing else, or the append. -/
theorem appendBytes_cases (bs : List Byte) (s : State) :
    (payloadCap s.cfg < sizeAfter s bs ∧ appendBytes bs s = .next (s.setCode .oversize)) ∨
    (sizeAfter s bs ≤ payloadCap s.cfg ∧ appendBytes bs s = .next ((appendState s bs).setCode .ok)) := by
  unfold appendBytes
  split
  · exact .inl ⟨‹_›, rfl⟩
  · exact .inr ⟨by omega, rfl⟩

theorem length_separator (s : State) : (separator s).length = if 0 < s.dsize then 1 else 0 := by
  unfold separator; split <;> rfl

/-- `DSIZE` after an append whose size fits its byte. -/
theorem dsize_appendState {s : State} {bs : List Byte} (h : sizeAfter s bs < 256) :
    (appendState s bs).dsize = sizeAfter s bs := by
  unfold State.dsize appendState
  have := State.bufByte_putBuf_inside (s := s.putBuf (hdrLen + s.dsize) (separator s ++ bs))
    (a := dsizeOffset) (bs := [BitVec.ofNat 8 (sizeAfter s bs)]) (j := 0) (by simp)
  simp only [Nat.add_zero, List.getElem_cons_zero] at this
  rw [this, BitVec.toNat_ofNat, Nat.mod_eq_of_lt h]

/-- The bytes after an append: `DSIZE`, then the old bytes outside the delimiter and the field. -/
theorem bufByte_appendState (s : State) (bs : List Byte) {a : Nat} (h : a ≠ dsizeOffset) :
    (appendState s bs).bufByte a = (s.putBuf (hdrLen + s.dsize) (separator s ++ bs)).bufByte a := by
  unfold appendState
  exact State.bufByte_putBuf_outside (by simp only [List.length_singleton]; omega)

/-! ## The cursor step -/

/-- What a cursor command can do: `RANGE` where the count cannot be filled; with the count filled,
`NOTFOUND` at 0, or the move. -/
theorem moveCursor_cases (target : State → Int) (s : State) :
    (ensureCount s = none ∧ moveCursor target s = .next (s.setCode .range)) ∨
    (∃ u, ensureCount s = some u ∧ u.fcount = 0#9 ∧
      moveCursor target s = .next ((u.setCidx 0#8).setCode .notFound)) ∨
    (∃ u, ensureCount s = some u ∧ u.fcount ≠ 0#9 ∧
      moveCursor target s = .next (((u.setCidx (clampIndex u (target u))).setRes
        ((clampIndex u (target u)).setWidth 32)).setCode .ok)) := by
  unfold moveCursor
  cases h : ensureCount s with
  | none => exact .inl ⟨rfl, rfl⟩
  | some u =>
    by_cases h0 : u.fcount = 0#9
    · exact .inr (.inl ⟨u, rfl, h0, by simp [h0, finish]⟩)
    · exact .inr (.inr ⟨u, rfl, h0, by simp [h0, finish]⟩)

/-- What filling the count can do: keep a computed one, or compute it. -/
theorem ensureCount_cases {s u : State} (h : ensureCount s = some u) :
    (s.cvalid = true ∧ u = s) ∨
    (s.cvalid = false ∧ payloadInside s = true ∧
      u = s.setCount (BitVec.ofNat 9 (countFields s.cfg.delim s.payload)) true) := by
  unfold ensureCount at h
  split at h
  · rename_i hv; cases h; exact .inl ⟨hv, rfl⟩
  · rename_i hv
    split at h
    · rename_i hp; cases h; exact .inr ⟨by simpa using hv, hp, rfl⟩
    · cases h

/-- A payload has at most one field more than bytes. -/
theorem countFields_le (delim : Byte) (pay : List Byte) : countFields delim pay ≤ pay.length + 1 := by
  unfold countFields
  split
  · exact Nat.zero_le _
  · exact Nat.succ_le_succ (List.length_filter_le _ _)

/-! ## Segments -/

/-- The loop of `locate` gives a segment that ends inside what is left of the payload. -/
theorem locateFrom_inside {d : Byte} {k : Nat} {bs : List Byte} :
    ∀ {i seg start st ln : Nat}, start ≤ i → locateFrom d k bs i seg start = some (st, ln) →
      start ≤ st ∧ st + ln ≤ i + bs.length := by
  induction bs with
  | nil =>
    intro i seg start st ln hs h
    simp only [locateFrom] at h
    split at h
    · cases h; simp; omega
    · cases h
  | cons b bs ih =>
    intro i seg start st ln hs h
    simp only [locateFrom] at h
    simp only [List.length_cons]
    split at h
    · split at h
      · cases h; omega
      · have := ih (Nat.le_refl _) h; omega
    · have := ih (by omega) h; omega

/-- A located segment lies inside the payload. -/
theorem locate_inside {d : Byte} {k : Nat} {pay : List Byte} {st ln : Nat}
    (h : locate d k pay = some (st, ln)) : st + ln ≤ pay.length := by
  unfold locate at h
  split at h
  · cases h
  · have := locateFrom_inside (Nat.le_refl 0) h; omega

/-- What `findSegment` can do, in the order of its checks. -/
theorem findSegment_cases (k : Nat) (s : State) :
    (payloadInside s = false ∧ findSegment k s = .error .range) ∨
    (payloadInside s = true ∧ locate s.cfg.delim k s.payload = none ∧ findSegment k s = .error .notFound) ∨
    (∃ r, payloadInside s = true ∧ locate s.cfg.delim k s.payload = some r ∧ findSegment k s = .ok r) := by
  unfold findSegment
  cases hp : payloadInside s with
  | false => exact .inl ⟨rfl, rfl⟩
  | true =>
    cases hl : locate s.cfg.delim k s.payload with
    | none => exact .inr (.inl ⟨rfl, rfl, by simp⟩)
    | some r => exact .inr (.inr ⟨r, rfl, rfl, by simp⟩)

/-- What a numeric reader can do: fail with one of three codes, or put the reassembled value in `RES`. -/
theorem readNumber_cases (k w : Nat) (result : Nat → Word) (s : State) :
    (∃ c, (c = .range ∨ c = .notFound ∨ c = .format) ∧ readUint k w s = .error c ∧
      readNumber k w result s = .next (s.setCode c)) ∨
    (∃ r, payloadInside s = true ∧ locate s.cfg.delim k s.payload = some r ∧ r.2 ≠ 0 ∧ r.2 ≤ w ∧
      readNumber k w result s =
        .next ((s.setRes (result (beValue (s.segment r)))).setCode .ok)) := by
  unfold readNumber readUint
  obtain ⟨_, h⟩ | ⟨_, _, h⟩ | ⟨r, hp, hl, h⟩ := findSegment_cases k s
  · exact .inl ⟨.range, .inl rfl, by simp [h], by simp [h, fail]⟩
  · exact .inl ⟨.notFound, .inr (.inl rfl), by simp [h], by simp [h, fail]⟩
  · by_cases hw : r.2 = 0 ∨ w < r.2
    · exact .inl ⟨.format, .inr (.inr rfl), by simp [h, hw], by simp [h, hw, fail]⟩
    · refine .inr ⟨r, hp, hl, fun h0 => hw (.inl h0), by omega, ?_⟩
      simp [h, hw, finish]

/-! ## The checksum functions -/

theorem crcN_cons (a : Half) (b : Byte) (bs : List Byte) : crcN a (b :: bs) = crcN (crcNByte a b) bs := rfl

theorem crcI_cons (a : Half) (b : Byte) (bs : List Byte) : crcI a (b :: bs) = crcI (crcIByte a b) bs := rfl

/-- One inverse shift loses nothing: the generator's top bit tells which bit was shifted out. -/
theorem crcIShift_injective : Function.Injective crcIShift := by
  intro a b h
  have hj : ∀ j : Nat, (crcIShift a).getLsbD j = (crcIShift b).getLsbD j := fun j => by rw [h]
  have hx : ∀ c : Half, ∀ j, (crcIShift c).getLsbD j =
      ((decide (j < 15) && c.getLsbD (j + 1)) ^^ (c.getLsbD 0 && (0x8408#16).getLsbD j)) := by
    intro c j
    unfold crcIShift
    by_cases hc : c.getLsbD 0 = true
    · rw [if_pos hc, BitVec.getLsbD_xor, BitVec.getLsbD_ushiftRight, Nat.add_comm 1 j, hc]
      by_cases hlt : j < 15
      · simp [hlt]
      · rw [BitVec.getLsbD_of_ge c (j + 1) (by omega)]; simp [hlt]
    · rw [if_neg hc, BitVec.getLsbD_ushiftRight, Nat.add_comm 1 j, Bool.eq_false_iff.2 hc]
      by_cases hlt : j < 15
      · simp [hlt]
      · rw [BitVec.getLsbD_of_ge c (j + 1) (by omega)]; simp [hlt]
  have h0 : a.getLsbD 0 = b.getLsbD 0 := by
    have := hj 15
    rw [hx, hx] at this
    simpa using this
  apply BitVec.eq_of_getLsbD_eq
  intro j hj16
  cases j with
  | zero => exact h0
  | succ j =>
    have := hj j
    rw [hx, hx, h0] at this
    have hlt : j < 15 := by omega
    simpa [hlt] using this

end Sys2Proof.Machine
end

