-- ==== Sys2Proof/Laws/Exec.lean ====
section
/-! SUPPORT. For each meaning with more than one outcome, the outcomes it has and when: proofs about
`exec` cite these instead of unfolding a meaning. -/

namespace Sys2Proof.Machine

/-- `CRC_RANGE_*`. -/
theorem feedRange_cases (f : Half → List Byte → Half) (s : State) :
    (s.cfg.bufSize < startOffset s + byteCount s ∧ feedRange f s = .next (s.setCode .range)) ∨
    (startOffset s + byteCount s ≤ s.cfg.bufSize ∧
      feedRange f s =
        .next ((s.setCrc (f s.crc (s.bufRange (startOffset s) (byteCount s)))).setCode .ok)) := by
  unfold feedRange
  split
  · exact .inl ⟨‹_›, rfl⟩
  · exact .inr ⟨by omega, rfl⟩

theorem messageInside_iff (start extra : Nat) (s : State) :
    messageInside start extra s = true ↔ start + hdrLen + messageSize start s + extra ≤ s.cfg.bufSize := by
  simp only [messageInside, Bool.and_eq_true, decide_eq_true_eq]; omega

/-- `MSG_CSUM`. -/
theorem execMsgCsum_cases (s : State) :
    (messageInside (startOffset s) 0 s = false ∧ execMsgCsum s = .next (s.setCode .range)) ∨
    (messageInside (startOffset s) 0 s = true ∧
      execMsgCsum s = .next (((s.setCrc (messageChecksum (startOffset s) s)).setRes
        ((messageChecksum (startOffset s) s).setWidth 32)).setCode .ok)) := by
  unfold execMsgCsum
  cases h : messageInside (startOffset s) 0 s <;> simp [h, fail, finish]

/-- `MSG_SETCSUM`. -/
theorem execMsgSetcsum_cases (s : State) :
    (messageInside (startOffset s) trlLen s = false ∧ execMsgSetcsum s = .next (s.setCode .range)) ∨
    (messageInside (startOffset s) trlLen s = true ∧
      execMsgSetcsum s = .next ((((s.putBuf (startOffset s + hdrLen + messageSize (startOffset s) s)
        (checksumBytes (messageChecksum (startOffset s) s))).setCrc
        (messageChecksum (startOffset s) s)).setRes
        ((messageChecksum (startOffset s) s).setWidth 32)).setCode .ok)) := by
  unfold execMsgSetcsum
  cases h : messageInside (startOffset s) trlLen s <;> simp [h, fail, finish]

/-- The trailer the message at `start` holds. -/
def trailer (start : Nat) (s : State) : List Byte :=
  s.bufRange (start + hdrLen + messageSize start s) trlLen

/-- `MSG_VERIFY`. -/
theorem execMsgVerify_cases (s : State) :
    (messageInside (startOffset s) trlLen s = false ∧ execMsgVerify s = .next (s.setCode .range)) ∨
    (messageInside (startOffset s) trlLen s = true ∧
      trailer (startOffset s) s = checksumBytes (messageChecksum (startOffset s) s) ∧
      execMsgVerify s =
        .next (((s.setCrc (messageChecksum (startOffset s) s)).setRes 1#32).setCode .ok)) ∨
    (messageInside (startOffset s) trlLen s = true ∧
      trailer (startOffset s) s ≠ checksumBytes (messageChecksum (startOffset s) s) ∧
      execMsgVerify s =
        .next (((s.setCrc (messageChecksum (startOffset s) s)).setRes 0#32).setCode .auth)) := by
  unfold execMsgVerify trailer
  cases h : messageInside (startOffset s) trlLen s
  · exact .inl ⟨rfl, by simp [h, fail]⟩
  · by_cases ht : s.bufRange (startOffset s + hdrLen + messageSize (startOffset s) s) trlLen =
        checksumBytes (messageChecksum (startOffset s) s)
    · exact .inr (.inl ⟨rfl, ht, by simp [h, ht, finish]⟩)
    · exact .inr (.inr ⟨rfl, ht, by simp [h, ht, finish]⟩)

/-- `APP_FLOAT`: the `RANGE` check, then the append step. -/
theorem execAppFloat_cases (s : State) :
    ((∀ t, truncFloat s.opa = some t → t < -2 ^ 31 ∨ 2 ^ 31 - 1 < t) ∧
      execAppFloat s = .next (s.setCode .range)) ∨
    (∃ t, truncFloat s.opa = some t ∧ -2 ^ 31 ≤ t ∧ t ≤ 2 ^ 31 - 1 ∧
      execAppFloat s = appendBytes (beBytes t 4) s) := by
  unfold execAppFloat
  cases h : truncFloat s.opa with
  | none => exact .inl ⟨by simp, rfl⟩
  | some t =>
    by_cases hr : t < -2 ^ 31 ∨ 2 ^ 31 - 1 < t
    · refine .inl ⟨fun u hu => ?_, ?_⟩
      · cases hu; exact hr
      · simp only [if_pos hr]; rfl
    · refine .inr ⟨t, rfl, by omega, by omega, ?_⟩
      simp only [if_neg hr]

/-- `APP_STR`: the `RANGE` check, then the append step. -/
theorem execAppStr_cases (s : State) :
    (s.cfg.xbufSize < byteCount s ∧ execAppStr s = .next (s.setCode .range)) ∨
    (byteCount s ≤ s.cfg.xbufSize ∧ execAppStr s = appendBytes (s.xbufRange 0 (byteCount s)) s) := by
  unfold execAppStr
  split
  · exact .inl ⟨‹_›, rfl⟩
  · exact .inr ⟨by omega, rfl⟩

/-- `LOCATE`. -/
theorem execLocate_cases (ix : Index) (s : State) :
    (∃ c, (c = .range ∨ c = .notFound) ∧ findSegment (indexValue s ix) s = .error c ∧
      execLocate ix s = .next (s.setCode c)) ∨
    (∃ r, findSegment (indexValue s ix) s = .ok r ∧
      execLocate ix s = .next ((s.setLoc (BitVec.ofNat 8 r.1) (BitVec.ofNat 8 r.2)).setCode .ok)) := by
  unfold execLocate
  obtain ⟨_, h⟩ | ⟨_, _, h⟩ | ⟨r, _, _, h⟩ := findSegment_cases (indexValue s ix) s
  · exact .inl ⟨.range, .inl rfl, h, by simp [h, fail]⟩
  · exact .inl ⟨.notFound, .inr rfl, h, by simp [h, fail]⟩
  · exact .inr ⟨r, h, by simp [h, finish]⟩

/-- `FIELD_COUNT`. -/
theorem execFieldCount_cases (s : State) :
    (payloadInside s = false ∧ execFieldCount s = .next (s.setCode .range)) ∨
    (payloadInside s = true ∧ execFieldCount s =
      .next ((s.setRes (BitVec.ofNat 32 (countFields s.cfg.delim s.payload))).setCode .ok)) := by
  unfold execFieldCount
  cases h : payloadInside s <;> simp [fail, finish]

/-- `RD_BYTES`. -/
theorem execRdBytes_cases (ix : Index) (s : State) :
    (∃ c, (c = .range ∨ c = .notFound) ∧ execRdBytes ix s = .next (s.setCode c)) ∨
    (∃ r, findSegment (indexValue s ix) s = .ok r ∧ r.2 ≤ s.cfg.xbufSize ∧
      execRdBytes ix s =
        .next (((s.putXbuf 0 (s.segment r)).setRes (BitVec.ofNat 32 r.2)).setCode .ok)) := by
  unfold execRdBytes
  obtain ⟨_, h⟩ | ⟨_, _, h⟩ | ⟨r, _, _, h⟩ := findSegment_cases (indexValue s ix) s
  · exact .inl ⟨.range, .inl rfl, by simp [h, fail]⟩
  · exact .inl ⟨.notFound, .inr rfl, by simp [h, fail]⟩
  · by_cases hx : s.cfg.xbufSize < r.2
    · exact .inl ⟨.range, .inl rfl, by simp [h, hx, fail]⟩
    · exact .inr ⟨r, h, by omega, by simp [h, hx, finish]⟩

end Sys2Proof.Machine
end

