-- ==== Sys2Proof/Laws/Effect.lean ====
section
/-! SUPPORT. Said once: every next state a command can leave. A whole-block proof is a case split over
`Effect`, not an unfolding of thirty-three meanings. -/

namespace Sys2Proof.Machine

/-- The states that command `i` can leave from `s`. -/
inductive Effect (s : State) : Instr → State → Prop
  /-- Only the code is written: `NOP`, and every failure but two. -/
  | code {i : Instr} (c : Code) (h : c = .ok → i = .nop) (hc : codeBits c ∈ codesOf i) :
      Effect s i (s.setCode c)
  /-- `SRESET`. -/
  | reset : Effect s .sreset (s.resetKeepingCmd.setCode .ok)
  /-- `CLEAR`. -/
  | cleared : Effect s .clear
      (((((s.setBuf []).setCidx 0#8).setCount 0#9 false).setLoc 0#8 0#8).setCode .ok)
  /-- A seed or a feed. -/
  | fed {i : Instr} (hi : i ∈ engineCommands) (c : Half) : Effect s i ((s.setCrc c).setCode .ok)
  /-- `MSG_CSUM`. -/
  | summed (c : Half) (v : Word) : Effect s .msgCsum (((s.setCrc c).setRes v).setCode .ok)
  /-- `MSG_SETCSUM`: two bytes, after a header and inside `BUF`. -/
  | stored (a : Nat) (bs : List Byte) (c : Half) (v : Word) (h6 : hdrLen ≤ a) (hlen : bs.length = trlLen)
      (hin : a + trlLen ≤ s.cfg.bufSize) :
      Effect s .msgSetcsum ((((s.putBuf a bs).setCrc c).setRes v).setCode .ok)
  /-- `MSG_VERIFY`, a match. -/
  | matched (c : Half) : Effect s .msgVerify (((s.setCrc c).setRes 1#32).setCode .ok)
  /-- `MSG_VERIFY`, a mismatch. -/
  | mismatched (c : Half) : Effect s .msgVerify (((s.setCrc c).setRes 0#32).setCode .auth)
  /-- An append that fits. -/
  | appended {i : Instr} (hi : i ∈ appendCommands) (bs : List Byte) (hb : fieldBytes i s = some bs)
      (h : sizeAfter s bs ≤ payloadCap s.cfg) : Effect s i ((appendState s bs).setCode .ok)
  /-- `LOCATE`, a segment inside the payload. -/
  | located (ix : Index) (st ln : Nat) (h : st + ln ≤ s.dsize) :
      Effect s (.locate ix) ((s.setLoc (BitVec.ofNat 8 st) (BitVec.ofNat 8 ln)).setCode .ok)
  /-- `FIELD_COUNT`. -/
  | counted (v : Word) : Effect s .fieldCount ((s.setRes v).setCode .ok)
  /-- A numeric reader. -/
  | number {i : Instr} (ix : Index) (hi : i ∈ [.rdU8 ix, .rdU16 ix, .rdI16 ix, .rdU32 ix, .rdI32 ix])
      (v : Word) : Effect s i ((s.setRes v).setCode .ok)
  /-- `RD_BYTES`. -/
  | copied (ix : Index) (bs : List Byte) (v : Word) (h : bs.length ≤ s.cfg.xbufSize) :
      Effect s (.rdBytes ix) (((s.putXbuf 0 bs).setRes v).setCode .ok)
  /-- A cursor command with no field. -/
  | noField {i : Instr} (hi : i ∈ cursorCommands) {u : State} (hu : ensureCount s = some u)
      (h0 : u.fcount = 0#9) : Effect s i ((u.setCidx 0#8).setCode .notFound)
  /-- A cursor command that moves. -/
  | moved {i : Instr} (hi : i ∈ cursorCommands) {u : State} (hu : ensureCount s = some u)
      (h0 : u.fcount ≠ 0#9) (x : Int) :
      Effect s i (((u.setCidx (clampIndex u x)).setRes ((clampIndex u x).setWidth 32)).setCode .ok)

theorem effect_of_append {i : Instr} {s t : State} {bs : List Byte} (hi : i ∈ appendCommands)
    (hb : fieldBytes i s = some bs) (h : appendBytes bs s = .next t) : Effect s i t := by
  obtain ⟨_, e⟩ | ⟨hs, e⟩ := appendBytes_cases bs s <;> rw [e] at h <;> cases h
  · exact .code .oversize (by simp) (by cases i <;> simp [appendCommands, codesOf, codeBits] at hi ⊢)
  · exact .appended hi bs hb hs

theorem effect_of_reader {i : Instr} {s t : State} {k w : Nat} {f : Nat → Word} (ix : Index)
    (hi : i ∈ [.rdU8 ix, .rdU16 ix, .rdI16 ix, .rdU32 ix, .rdI32 ix])
    (h : readNumber k w f s = .next t) : Effect s i t := by
  obtain ⟨c, hc, _, e⟩ | ⟨r, _, _, _, _, e⟩ := readNumber_cases k w f s <;> rw [e] at h <;> cases h
  · refine .code c ?_ ?_
    · rcases hc with rfl | rfl | rfl <;> simp
    · rcases hc with rfl | rfl | rfl <;> cases i <;> simp [codesOf, codeBits] at hi ⊢
  · exact .number ix hi _

theorem effect_of_cursor {i : Instr} {s t : State} {f : State → Int} (hi : i ∈ cursorCommands)
    (h : moveCursor f s = .next t) : Effect s i t := by
  obtain ⟨_, e⟩ | ⟨u, hu, h0, e⟩ | ⟨u, hu, h0, e⟩ := moveCursor_cases f s <;> rw [e] at h <;> cases h
  · exact .code .range (by simp) (by cases i <;> simp [cursorCommands, codesOf, codeBits] at hi ⊢)
  · exact .noField hi hu h0
  · exact .moved hi hu h0 _

theorem effect_of_feed {i : Instr} {s t : State} {f : Half → List Byte → Half}
    (hi : i ∈ [Instr.crcRangeN, .crcRangeI]) (h : feedRange f s = .next t) : Effect s i t := by
  obtain ⟨_, e⟩ | ⟨_, e⟩ := feedRange_cases f s <;> rw [e] at h <;> cases h
  · exact .code .range (by simp) (by cases i <;> simp [codesOf, codeBits] at hi ⊢)
  · exact .fed (by cases i <;> simp [engineCommands] at hi ⊢) _

/-- The located segment of a `findSegment` that succeeds lies inside the payload. -/
theorem findSegment_inside {k : Nat} {s : State} {r : Nat × Nat} (h : findSegment k s = .ok r) :
    r.1 + r.2 ≤ s.dsize := by
  obtain ⟨_, e⟩ | ⟨_, _, e⟩ | ⟨r', _, hl, e⟩ := findSegment_cases k s <;> rw [e] at h <;> cases h
  simpa using locate_inside hl

/-- The inversion of `exec`. -/
theorem exec_effect {i : Instr} {s t : State} (h : exec i s = .next t) : Effect s i t := by
  cases i with
  | nop => cases h; exact .code .ok (fun _ => rfl) (by simp [codesOf, codeBits])
  | sreset => cases h; exact .reset
  | crcSeed => cases h; exact .fed (by simp [engineCommands]) _
  | crcInitN => cases h; exact .fed (by simp [engineCommands]) _
  | crcInitI => cases h; exact .fed (by simp [engineCommands]) _
  | crcByteN => cases h; exact .fed (by simp [engineCommands]) _
  | crcByteI => cases h; exact .fed (by simp [engineCommands]) _
  | crcRangeN => exact effect_of_feed (by simp) h
  | crcRangeI => exact effect_of_feed (by simp) h
  | msgCsum =>
    obtain ⟨_, e⟩ | ⟨_, e⟩ := execMsgCsum_cases s <;> rw [exec, e] at h <;> cases h
    · exact .code .range (by simp) (by simp [codesOf, codeBits])
    · exact .summed _ _
  | msgSetcsum =>
    obtain ⟨_, e⟩ | ⟨hin, e⟩ := execMsgSetcsum_cases s <;> rw [exec, e] at h <;> cases h
    · exact .code .range (by simp) (by simp [codesOf, codeBits])
    · have hin := (messageInside_iff _ _ _).1 hin
      exact .stored _ _ _ _ (by omega) rfl hin
  | msgVerify =>
    obtain ⟨_, e⟩ | ⟨_, _, e⟩ | ⟨_, _, e⟩ := execMsgVerify_cases s <;> rw [exec, e] at h <;> cases h
    · exact .code .range (by simp) (by simp [codesOf, codeBits])
    · exact .matched _
    · exact .mismatched _
  | clear => cases h; exact .cleared
  | appU8 => exact effect_of_append (by simp [appendCommands]) rfl h
  | appU16 => exact effect_of_append (by simp [appendCommands]) rfl h
  | appI16 => exact effect_of_append (by simp [appendCommands]) rfl h
  | appU32 => exact effect_of_append (by simp [appendCommands]) rfl h
  | appI32 => exact effect_of_append (by simp [appendCommands]) rfl h
  | appBool => exact effect_of_append (by simp [appendCommands]) rfl h
  | appFloat =>
    obtain ⟨_, e⟩ | ⟨v, hv, _, _, e⟩ := execAppFloat_cases s <;> rw [exec, e] at h
    · cases h; exact .code .range (by simp) (by simp [codesOf, codeBits])
    · exact effect_of_append (by simp [appendCommands]) (by simp [fieldBytes, hv]) h
  | appStr =>
    obtain ⟨_, e⟩ | ⟨_, e⟩ := execAppStr_cases s <;> rw [exec, e] at h
    · cases h; exact .code .range (by simp) (by simp [codesOf, codeBits])
    · exact effect_of_append (by simp [appendCommands]) rfl h
  | locate ix =>
    obtain ⟨c, hc, _, e⟩ | ⟨r, hr, e⟩ := execLocate_cases ix s <;> rw [exec, e] at h <;> cases h
    · refine .code c ?_ ?_ <;> rcases hc with rfl | rfl <;> simp [codesOf, codeBits]
    · exact .located ix r.1 r.2 (findSegment_inside hr)
  | fieldCount =>
    obtain ⟨_, e⟩ | ⟨_, e⟩ := execFieldCount_cases s <;> rw [exec, e] at h <;> cases h
    · exact .code .range (by simp) (by simp [codesOf, codeBits])
    · exact .counted _
  | rdU8 ix => exact effect_of_reader ix (by simp) h
  | rdU16 ix => exact effect_of_reader ix (by simp) h
  | rdI16 ix => exact effect_of_reader ix (by simp) h
  | rdU32 ix => exact effect_of_reader ix (by simp) h
  | rdI32 ix => exact effect_of_reader ix (by simp) h
  | rdBytes ix =>
    obtain ⟨c, hc, e⟩ | ⟨r, _, hx, e⟩ := execRdBytes_cases ix s <;> rw [exec, e] at h <;> cases h
    · refine .code c ?_ ?_ <;> rcases hc with rfl | rfl <;> simp [codesOf, codeBits]
    · exact .copied ix _ _ (by simpa [State.segment] using hx)
  | curFirst => exact effect_of_cursor (by simp [cursorCommands]) h
  | curLast => exact effect_of_cursor (by simp [cursorCommands]) h
  | curNext => exact effect_of_cursor (by simp [cursorCommands]) h
  | curPrev => exact effect_of_cursor (by simp [cursorCommands]) h

end Sys2Proof.Machine
end

