-- ==== Sys2Proof/Laws/Encoding.lean ====
section
/-! SUPPORT. The fields of a command word put together are the fields it was put together from. -/

namespace Sys2Proof

@[simp] theorem fieldOp_commandWord (r : BitVec 15) (c : BitVec 1) (x o : Byte) :
    fieldOp (commandWord r c x o) = o := by
  apply BitVec.eq_of_getLsbD_eq
  intro j hj
  have h1 : j < 16 := by omega
  have h2 : j < 17 := by omega
  have h3 : j < 32 := by omega
  simp [fieldOp, commandWord, hj, h1, h2, h3]

@[simp] theorem fieldIdx_commandWord (r : BitVec 15) (c : BitVec 1) (x o : Byte) :
    fieldIdx (commandWord r c x o) = x := by
  apply BitVec.eq_of_getLsbD_eq
  intro j hj
  have h1 : 8 + j < 16 := by omega
  have h2 : 8 + j < 17 := by omega
  have h3 : 8 + j < 32 := by omega
  simp [fieldIdx, commandWord, hj, h1, h2, h3]

@[simp] theorem fieldC_commandWord (r : BitVec 15) (c : BitVec 1) (x o : Byte) :
    fieldC (commandWord r c x o) = c := by
  apply BitVec.eq_of_getLsbD_eq
  intro j hj
  obtain rfl : j = 0 := by omega
  simp [fieldC, commandWord]

@[simp] theorem fieldRsv_commandWord (r : BitVec 15) (c : BitVec 1) (x o : Byte) :
    fieldRsv (commandWord r c x o) = r := by
  apply BitVec.eq_of_getLsbD_eq
  intro j hj
  have h1 : ¬ 17 + j < 16 := by omega
  have h2 : 17 + j < 32 := by omega
  have h3 : 17 + j - 16 = j + 1 := by omega
  have h4 : 17 + j - 8 = j + 9 := by omega
  have h5 : o.getLsbD (17 + j) = false := BitVec.getLsbD_of_ge _ _ (by omega)
  simp [fieldRsv, commandWord, hj, h1, h2, h3, h4, h5]

/-- A word is put together from its own fields: the four fields leave no bit out (R71). -/
theorem commandWord_fields (w : Word) :
    commandWord (fieldRsv w) (fieldC w) (fieldIdx w) (fieldOp w) = w := by
  apply BitVec.eq_of_getLsbD_eq
  intro j hj
  simp only [commandWord, fieldRsv, fieldC, fieldIdx, fieldOp, BitVec.getLsbD_or,
    BitVec.getLsbD_shiftLeft, BitVec.getLsbD_setWidth, BitVec.getLsbD_extractLsb', hj]
  by_cases h1 : j < 8
  · have h2 : j < 16 := by omega
    have h3 : j < 17 := by omega
    simp [h1, h2, h3]
  · by_cases h2 : j < 16
    · have h3 : j < 17 := by omega
      have h4 : j - 8 < 8 := by omega
      have h5 : 8 + (j - 8) = j := by omega
      have h6 : j - 8 < 32 := by omega
      simp [h1, h2, h3, h4, h5, h6]
    · by_cases h3 : j < 17
      · obtain rfl : j = 16 := by omega
        simp
      · have h4 : ¬ j - 8 < 8 := by omega
        have h5 : ¬ j - 16 < 1 := by omega
        have h6 : j - 17 < 15 := by omega
        have h7 : 17 + (j - 17) = j := by omega
        have h8 : j - 17 < 32 := by omega
        simp [h1, h2, h3, h4, h5, h6, h7, h8]

/-- The opcode of an I-form command stands in no Z-form row, and the other way round (R75). -/
theorem zForm_opcode (i : Instr) :
    zForm (opcode i) = if indexOperand i = none then some i else none := by
  cases i <;> rfl

theorem iForm_opcode (i : Instr) {ix : Index} (h : indexOperand i = some ix) :
    iForm (opcode i) ix = some i := by
  cases i <;> simp_all [indexOperand, opcode, iForm]

/-- Every opcode byte has at most one row (R75). -/
theorem zForm_iForm_disjoint (op : Byte) (ix : Index) : zForm op = none ∨ iForm op ix = none := by
  by_cases h : op ∈ [0x30#8, 0x32#8, 0x33#8, 0x34#8, 0x35#8, 0x36#8, 0x37#8]
  · left; revert op; decide
  · right
    simp only [List.mem_cons, List.not_mem_nil, or_false, not_or, BitVec.toNat_eq] at h
    unfold iForm
    split <;> simp_all

end Sys2Proof
end

