-- ==== Sys2Proof/Laws/PerInstr.lean ====
section
/-! SUPPORT. Per-instruction statements: the fields of each command's word (30_encoding.md R71, R72). -/

namespace Sys2Proof.Laws.EncodedFields

/-- The encoding of `i` has its opcode in `OP` and 0 in `RSV`; a Z-form command has 0 in `IDX` and `C`. -/
def Statement (i : Instr) : Prop :=
  fieldOp (encode i) = opcode i ∧ fieldRsv (encode i) = 0#15 ∧
    (indexOperand i = none → fieldIdx (encode i) = 0#8 ∧ fieldC (encode i) = 0#1)

theorem of_encode (i : Instr) : Statement i := by
  unfold Statement encode
  split <;> simp_all

theorem nop : Statement .nop := of_encode _
theorem sreset : Statement .sreset := of_encode _
theorem crcSeed : Statement .crcSeed := of_encode _
theorem crcInitN : Statement .crcInitN := of_encode _
theorem crcInitI : Statement .crcInitI := of_encode _
theorem crcByteN : Statement .crcByteN := of_encode _
theorem crcByteI : Statement .crcByteI := of_encode _
theorem crcRangeN : Statement .crcRangeN := of_encode _
theorem crcRangeI : Statement .crcRangeI := of_encode _
theorem msgCsum : Statement .msgCsum := of_encode _
theorem msgSetcsum : Statement .msgSetcsum := of_encode _
theorem msgVerify : Statement .msgVerify := of_encode _
theorem clear : Statement .clear := of_encode _
theorem appU8 : Statement .appU8 := of_encode _
theorem appU16 : Statement .appU16 := of_encode _
theorem appI16 : Statement .appI16 := of_encode _
theorem appU32 : Statement .appU32 := of_encode _
theorem appI32 : Statement .appI32 := of_encode _
theorem appBool : Statement .appBool := of_encode _
theorem appFloat : Statement .appFloat := of_encode _
theorem appStr : Statement .appStr := of_encode _
theorem locate (ix : Index) : Statement (.locate ix) := of_encode _
theorem fieldCount : Statement .fieldCount := of_encode _
theorem rdU8 (ix : Index) : Statement (.rdU8 ix) := of_encode _
theorem rdU16 (ix : Index) : Statement (.rdU16 ix) := of_encode _
theorem rdI16 (ix : Index) : Statement (.rdI16 ix) := of_encode _
theorem rdU32 (ix : Index) : Statement (.rdU32 ix) := of_encode _
theorem rdI32 (ix : Index) : Statement (.rdI32 ix) := of_encode _
theorem rdBytes (ix : Index) : Statement (.rdBytes ix) := of_encode _
theorem curFirst : Statement .curFirst := of_encode _
theorem curLast : Statement .curLast := of_encode _
theorem curNext : Statement .curNext := of_encode _
theorem curPrev : Statement .curPrev := of_encode _

end Sys2Proof.Laws.EncodedFields
end

