-- ==== Sys2Proof/Machine/HostProgram.lean ====
section
/-! DEFINITION. Host programs (30_encoding.md R78, R79): each line of the assembler syntax as the host
access it stands for, and the pseudo-instructions as their expansions. -/

namespace Sys2Proof.Machine

/-- The offset of a register in the address map (20_memory.md R56). -/
def registerOffset : Reg → Nat
  | .cmd => 0x000
  | .opa => 0x004
  | .opb => 0x008
  | .res => 0x00C
  | .status => 0x010
  | .crc => 0x014
  | .loc => 0x018
  | .cursor => 0x01C
  | .cfg0 => 0x020
  | .cfg1 => 0x024
  | .cfg2 => 0x028

/-- One line of a host program (R78). -/
inductive Line where
  | wrOpa (v : Word)
  | wrOpb (v : Word)
  | wrCmd (w : Word)
  | wrbBuf (i : Nat) (v : Byte)
  | wrbXbuf (i : Nat) (v : Byte)
  | rd (r : Reg)
  | rdbBuf (i : Nat)
  | rdbXbuf (i : Nat)
  | command (i : Instr)
deriving DecidableEq, Repr

/-- The host access a line stands for (R78). -/
def lineAccess : Line → Access
  | .wrOpa v => .write 0x004 32 v
  | .wrOpb v => .write 0x008 32 v
  | .wrCmd w => .write 0x000 32 w
  | .wrbBuf i v => .write (0x1000 + i) 8 (v.setWidth 32)
  | .wrbXbuf i v => .write (0x2000 + i) 8 (v.setWidth 32)
  | .rd r => .read (registerOffset r) 32
  | .rdbBuf i => .read (0x1000 + i) 8
  | .rdbXbuf i => .read (0x2000 + i) 8
  | .command i => .write 0x000 32 (encode i)

/-- The pseudo-instructions of R79. -/
inductive Pseudo where
  | appU8 (v : Word)
  | appU16 (v : Word)
  | appI16 (v : Word)
  | appU32 (v : Word)
  | appI32 (v : Word)
  | appBool (v : Word)
  | appFloat (v : Word)
  | appStr (bytes : List Byte)
  | crcSeed (v : Word)
  | crcN (b : Word)
  | crcI (b : Word)
  | crcRangeN (start n : Word)
  | crcRangeI (start n : Word)
  | msgCsum (start : Word)
  | msgSet (start : Word)
  | msgVerify (start : Word)
deriving DecidableEq, Repr

/-- The expansion of a pseudo-instruction (R79). -/
def expand : Pseudo → List Line
  | .appU8 v => [.wrOpa v, .command .appU8]
  | .appU16 v => [.wrOpa v, .command .appU16]
  | .appI16 v => [.wrOpa v, .command .appI16]
  | .appU32 v => [.wrOpa v, .command .appU32]
  | .appI32 v => [.wrOpa v, .command .appI32]
  | .appBool v => [.wrOpa v, .command .appBool]
  | .appFloat v => [.wrOpa v, .command .appFloat]
  | .appStr bs =>
    bs.mapIdx (fun j b => Line.wrbXbuf j b) ++
      [.wrOpb (BitVec.ofNat 32 bs.length), .command .appStr]
  | .crcSeed v => [.wrOpa v, .command .crcSeed]
  | .crcN b => [.wrOpa b, .command .crcByteN]
  | .crcI b => [.wrOpa b, .command .crcByteI]
  | .crcRangeN a n => [.wrOpa a, .wrOpb n, .command .crcRangeN]
  | .crcRangeI a n => [.wrOpa a, .wrOpb n, .command .crcRangeI]
  | .msgCsum a => [.wrOpa a, .command .msgCsum]
  | .msgSet a => [.wrOpa a, .command .msgSetcsum]
  | .msgVerify a => [.wrOpa a, .command .msgVerify]

/-- A host program laid out as the block's inputs, in order (10_state.md R34). -/
def programInputs (p : List Line) : List Input := p.map fun l => .access (lineAccess l)

end Sys2Proof.Machine
end

