-- ==== Sys2Proof/Tests/Slice0.lean ====
section
/-! SUPPORT. Tests. Expected values come from the spec: the encoding table (30_encoding.md R75), the worked
values of spec/95_test_vectors.md and the examples of each rule. The second half shows, for every statement
with hypotheses, a concrete state that meets them. -/

namespace Sys2Proof.Tests

open Sys2Proof Sys2Proof.Machine

/-! ## Helpers -/

/-- The next state of an outcome. -/
def next? (o : Host.Outcome State Fault Refusal) : Option State :=
  match o with
  | .next s => some s
  | .fault _ => none
  | .refused _ => none

/-- The name of a refusal. -/
def refusal? (o : Host.Outcome State Fault Refusal) : Option Refusal :=
  match o with
  | .next _ => none
  | .fault _ => none
  | .refused r => some r

/-- The state after reset with `bs` in `BUF` from `start` on. -/
def bufAt (start : Nat) (bs : List Byte) : State := State.reset.putBuf start bs

/-- The state after reset with `bs` as the payload. -/
def pay (bs : List Byte) : State := (bufAt 6 bs).putBuf 5 [BitVec.ofNat 8 bs.length]

/-- The state after reset with only `DSIZE` written. -/
def sized (n : Byte) : State := bufAt 5 [n]

/-- The state after reset with one input waiting. -/
def waiting (x : Input) : State := State.reset.setInputs [x]

/-- The decoded command. -/
def decoded (w : Word) : Option Instr :=
  match decode w with
  | .ok i => some i
  | .error _ => none

/-- The echo message of 95_test_vectors.md 1.3, without its trailer. -/
def echo : List Byte := [0x02#8, 0x00#8, 0x85#8, 0x01#8, 0x01#8, 0x01#8, 0x2A#8]

/-- The payload of 95_test_vectors.md 1.5. -/
def fields : List Byte := [0x01#8, 0x7C#8, 0x61#8, 0x62#8, 0x7C#8, 0x01#8, 0x2C#8]

/-- "123456789" (95_test_vectors.md 2.1). -/
def digits : List Byte :=
  [0x31#8, 0x32#8, 0x33#8, 0x34#8, 0x35#8, 0x36#8, 0x37#8, 0x38#8, 0x39#8]

/-! ## Well-formedness: an index past 255 is refused -/

theorem test_locate_256_ill_formed : (Instr.locate (.field 256)).wellFormed = false := by decide
theorem test_rdU8_256_ill_formed : (Instr.rdU8 (.field 256)).wellFormed = false := by decide
theorem test_rdU16_256_ill_formed : (Instr.rdU16 (.field 256)).wellFormed = false := by decide
theorem test_rdI16_256_ill_formed : (Instr.rdI16 (.field 256)).wellFormed = false := by decide
theorem test_rdU32_256_ill_formed : (Instr.rdU32 (.field 256)).wellFormed = false := by decide
theorem test_rdI32_256_ill_formed : (Instr.rdI32 (.field 256)).wellFormed = false := by decide
theorem test_rdBytes_256_ill_formed : (Instr.rdBytes (.field 256)).wellFormed = false := by decide

/-! ## Decoding: every constructor, from a word written out from R71, R72 and R75 -/

theorem test_decode_control :
    [0x00000000#32, 0x00000001#32].map decoded = [some .nop, some .sreset] := by decide

theorem test_decode_engine :
    [0x00000010#32, 0x00000011#32, 0x00000012#32, 0x00000013#32, 0x00000014#32, 0x00000015#32,
      0x00000016#32].map decoded =
    [some .crcSeed, some .crcInitN, some .crcInitI, some .crcByteN, some .crcByteI, some .crcRangeN,
      some .crcRangeI] := by decide

theorem test_decode_message :
    [0x00000018#32, 0x00000019#32, 0x0000001A#32].map decoded =
    [some .msgCsum, some .msgSetcsum, some .msgVerify] := by decide

theorem test_decode_encode_family :
    [0x00000020#32, 0x00000021#32, 0x00000022#32, 0x00000023#32, 0x00000024#32, 0x00000025#32,
      0x00000026#32, 0x00000027#32, 0x00000028#32].map decoded =
    [some .clear, some .appU8, some .appU16, some .appI16, some .appU32, some .appI32, some .appBool,
      some .appFloat, some .appStr] := by decide

/-- `RD_BYTES 1` is `0x00000137`; with `C = 1` the `IDX` bits are ignored (R73). -/
theorem test_decode_readers :
    [0x0000FF30#32, 0x00000031#32, 0x00000132#32, 0x00010533#32, 0x00000034#32, 0x00010035#32,
      0x00000A36#32, 0x00000137#32].map decoded =
    [some (.locate (.field 255)), some .fieldCount, some (.rdU8 (.field 1)), some (.rdU16 .cursor),
      some (.rdI16 (.field 0)), some (.rdU32 .cursor), some (.rdI32 (.field 10)),
      some (.rdBytes (.field 1))] := by decide

theorem test_decode_cursor :
    [0x00000038#32, 0x00000039#32, 0x0000003A#32, 0x0000003B#32].map decoded =
    [some .curFirst, some .curLast, some .curNext, some .curPrev] := by decide

/-- The words of program P6, and the ends of the unassigned ranges (R76, R77). -/
theorem test_decode_illegal :
    [0x00000110#32, 0x00000002#32, 0x0000000F#32, 0x00000017#32, 0x0000001B#32, 0x0000001F#32,
      0x00000029#32, 0x0000002F#32, 0x0000003C#32, 0x000000FF#32, 0x00020030#32, 0x80000032#32,
      0x00010020#32, 0xFFFFFFFF#32].map decoded = List.replicate 14 none := by decide

theorem test_encode_words :
    [Instr.nop, .crcSeed, .appStr, .rdBytes (.field 1), .locate (.field 255), .rdU16 .cursor].map encode =
    [0x00000000#32, 0x00000010#32, 0x00000028#32, 0x00000137#32, 0x0000FF30#32, 0x00010033#32] := by
  decide

theorem test_table_word : decodeTableWord 32 0x00000137 = some (.rdBytes (.field 1)) := by decide

theorem test_fetch_word_runs :
    next? (step (State.reset.withFetchWord 32 0x12)) =
      some { State.reset with cmd := 0x12#32, crc := 0xFFFF#16 } := by decide

/-! ## Control and the Checksum Engine (95_test_vectors.md 2.1, examples of R102 to R108) -/

theorem test_nop_clears_code :
    next? (exec .nop { sized 3#8 with code := 1#4 }) = some { sized 3#8 with code := 0#4 } := by decide

theorem test_sreset_keeps_cmd_and_xbuf :
    next? (exec .sreset { (pay fields).putXbuf 0 [0x61#8] with cmd := 1#32, opa := 5#32, crc := 9#16 }) =
      some { State.reset.putXbuf 0 [0x61#8] with cmd := 1#32 } := by decide

theorem test_crc_seed_low_half :
    (next? (exec .crcSeed { State.reset with opa := 0xABCD1234#32 })).map (·.crc) = some 0x1234#16 := by
  decide

theorem test_crc_init_n :
    (next? (exec .crcInitN { State.reset with crc := 0x6F91#16 })).map (·.crc) = some 0x0000#16 := by
  decide

theorem test_crc_init_i : (next? (exec .crcInitI State.reset)).map (·.crc) = some 0xFFFF#16 := by decide

theorem test_crc_byte_n :
    (next? (exec .crcByteN { State.reset with opa := 0x00000141#32 })).map (·.crc) = some 0x58E5#16 := by
  decide +kernel

theorem test_crc_byte_n_seeded :
    (next? (exec .crcByteN { State.reset with crc := 0x1234#16, opa := 0x80#32 })).map (·.crc) =
      some 0x97FB#16 := by decide +kernel

theorem test_crc_byte_i :
    (next? (exec .crcByteI { State.reset with opa := 0x80#32 })).map (·.crc) = some 0x8408#16 := by
  decide +kernel

theorem test_crc_byte_i_seeded :
    (next? (exec .crcByteI { State.reset with crc := 0x1234#16, opa := 0x41#32 })).map (·.crc) =
      some 0x2438#16 := by decide +kernel

theorem test_crc_range_n :
    (next? (exec .crcRangeN { bufAt 0 digits with opb := 9#32 })).map (·.crc) = some 0x31C3#16 := by
  decide +kernel

theorem test_crc_range_i :
    (next? (exec .crcRangeI { bufAt 0 digits with opb := 9#32, crc := 0xFFFF#16 })).map (·.crc) =
      some 0x6F91#16 := by decide +kernel

/-! ## The message commands (95_test_vectors.md 2.2) -/

theorem test_msg_csum_echo :
    next? (exec .msgCsum { bufAt 10 echo with opa := 10#32 }) =
      some { bufAt 10 echo with opa := 10#32, res := 0x39D2#32, crc := 0x39D2#16 } := by decide +kernel

theorem test_msg_csum_zeroes :
    (next? (exec .msgCsum { State.reset with opa := 250#32 })).map (·.res) = some 0x0870#32 := by
  decide +kernel

theorem test_msg_setcsum_echo :
    next? (exec .msgSetcsum (bufAt 0 echo)) =
      some { bufAt 0 (echo ++ [0x39#8, 0xD2#8]) with res := 0x39D2#32, crc := 0x39D2#16 } := by
  decide +kernel

theorem test_msg_verify_echo :
    next? (exec .msgVerify (bufAt 0 (echo ++ [0x39#8, 0xD2#8]))) =
      some { bufAt 0 (echo ++ [0x39#8, 0xD2#8]) with res := 1#32, crc := 0x39D2#16 } := by decide +kernel

theorem test_msg_verify_mismatch :
    next? (exec .msgVerify { bufAt 0 (echo ++ [0x39#8, 0xD3#8]) with res := 7#32 }) =
      some { bufAt 0 (echo ++ [0x39#8, 0xD3#8]) with res := 0#32, crc := 0x39D2#16, code := 5#4 } := by
  decide +kernel

/-! ## Encoding (95_test_vectors.md 2.3, 2.4, examples of R135 to R142) -/

theorem test_clear :
    next? (exec .clear { pay fields with cidx := 1#8, fcount := 3#9, cvalid := true, lstart := 2#8, llen := 2#8, crc := 9#16 }) =
      some { State.reset with crc := 9#16 } := by decide

theorem test_app_u8_low_byte :
    next? (exec .appU8 { State.reset with opa := 0x0000012C#32 }) =
      some { pay [0x2C#8] with opa := 0x0000012C#32 } := by decide

theorem test_app_u8_zero_after_field :
    next? (exec .appU8 (pay [0x01#8])) = some (pay [0x01#8, 0x7C#8, 0x00#8]) := by decide

theorem test_app_u16_after_field :
    next? (exec .appU16 { pay [0x01#8] with opa := 300#32 }) =
      some { pay [0x01#8, 0x7C#8, 0x01#8, 0x2C#8] with opa := 300#32 } := by decide

theorem test_app_u16_one_byte :
    next? (exec .appU16 { State.reset with opa := 0xABCD0005#32 }) =
      some { pay [0x05#8] with opa := 0xABCD0005#32 } := by decide

theorem test_app_i16_negative :
    next? (exec .appI16 { State.reset with opa := 0xFFFFFF80#32 }) =
      some { pay [0xFF#8, 0x80#8] with opa := 0xFFFFFF80#32 } := by decide

theorem test_app_i16_low_half :
    next? (exec .appI16 { State.reset with opa := 0x0000FFFB#32 }) =
      some { pay [0xFF#8, 0xFB#8] with opa := 0x0000FFFB#32 } := by decide

theorem test_app_u32_top_bit :
    next? (exec .appU32 { State.reset with opa := 0x80000000#32 }) =
      some { pay [0x80#8, 0x00#8, 0x00#8, 0x00#8] with opa := 0x80000000#32 } := by decide

theorem test_app_u32_65536 :
    next? (exec .appU32 { State.reset with opa := 0x00010000#32 }) =
      some { pay [0x00#8, 0x01#8, 0x00#8, 0x00#8] with opa := 0x00010000#32 } := by decide

theorem test_app_i32_four_bytes :
    next? (exec .appI32 { State.reset with opa := 0xFFFF7FFF#32 }) =
      some { pay [0xFF#8, 0xFF#8, 0x7F#8, 0xFF#8] with opa := 0xFFFF7FFF#32 } := by decide

theorem test_app_i32_two_bytes :
    next? (exec .appI32 { State.reset with opa := 0x00009C40#32 }) =
      some { pay [0x9C#8, 0x40#8] with opa := 0x00009C40#32 } := by decide

theorem test_app_bool_true :
    next? (exec .appBool { State.reset with opa := 0x80000000#32 }) =
      some { pay [0x01#8] with opa := 0x80000000#32 } := by decide

theorem test_app_bool_false : next? (exec .appBool State.reset) = some (pay [0x00#8]) := by decide

theorem test_app_float_truncates :
    next? (exec .appFloat { State.reset with opa := 0xC2C88000#32 }) =
      some { pay [0xFF#8, 0xFF#8, 0xFF#8, 0x9C#8] with opa := 0xC2C88000#32 } := by decide

theorem test_app_float_largest :
    next? (exec .appFloat { State.reset with opa := 0x4EFFFFFF#32 }) =
      some { pay [0x7F#8, 0xFF#8, 0xFF#8, 0x80#8] with opa := 0x4EFFFFFF#32 } := by decide

theorem test_app_str_after_field :
    (next? (exec .appStr { (pay [0x01#8]).putXbuf 0 [0x61#8, 0x62#8] with opb := 2#32 })).map (·.buf) =
      some (pay [0x01#8, 0x7C#8, 0x61#8, 0x62#8]).buf := by decide

theorem test_app_str_empty :
    next? (exec .appStr (pay [0x01#8])) = some (pay [0x01#8, 0x7C#8]) := by decide

/-! ## Decoding and the cursor (95_test_vectors.md 1.5, 2.5, examples of R161 to R173) -/

theorem test_locate_middle :
    next? (exec (.locate (.field 1)) (pay fields)) =
      some { pay fields with lstart := 2#8, llen := 2#8 } := by decide

theorem test_locate_trailing_empty :
    next? (exec (.locate (.field 1)) (pay [0x01#8, 0x7C#8])) =
      some { pay [0x01#8, 0x7C#8] with lstart := 2#8, llen := 0#8 } := by decide

theorem test_field_count : (next? (exec .fieldCount (pay fields))).map (·.res) = some 3#32 := by decide

theorem test_rd_u8 : (next? (exec (.rdU8 (.field 0)) (pay [0xFF#8]))).map (·.res) = some 0xFF#32 := by
  decide

theorem test_rd_u8_two_bytes :
    next? (exec (.rdU8 (.field 0)) (pay [0x01#8, 0x2C#8])) =
      some { pay [0x01#8, 0x2C#8] with code := 3#4 } := by decide

theorem test_rd_u16 :
    (next? (exec (.rdU16 (.field 2)) (pay fields))).map (·.res) = some 300#32 := by decide

theorem test_rd_i16_sign :
    (next? (exec (.rdI16 (.field 0)) (pay [0x80#8, 0x00#8]))).map (·.res) = some 0xFFFF8000#32 := by
  decide

theorem test_rd_i16_one_byte :
    (next? (exec (.rdI16 (.field 0)) (pay [0xFF#8]))).map (·.res) = some 0xFF#32 := by decide

theorem test_rd_u32_three_bytes :
    (next? (exec (.rdU32 (.field 0)) (pay [0x12#8, 0x34#8, 0x56#8]))).map (·.res) =
      some 0x123456#32 := by decide

theorem test_rd_i32_band :
    (next? (exec (.rdI32 (.field 0)) (pay [0xFF#8, 0xFB#8]))).map (·.res) = some 0xFFFB#32 := by decide

theorem test_rd_i32_four_bytes :
    (next? (exec (.rdI32 .cursor) (pay [0xFF#8, 0xFF#8, 0x7F#8, 0xFF#8]))).map (·.res) =
      some 0xFFFF7FFF#32 := by decide

theorem test_rd_bytes :
    next? (exec (.rdBytes (.field 1)) ((pay fields).putXbuf 1 [0x00#8, 0x77#8])) =
      some { (pay fields).putXbuf 0 [0x61#8, 0x62#8, 0x77#8] with res := 2#32 } := by decide

theorem test_cur_first_fills :
    next? (exec .curFirst (pay fields)) =
      some { pay fields with fcount := 3#9, cvalid := true } := by decide

theorem test_cur_last :
    next? (exec .curLast (pay fields)) =
      some { pay fields with fcount := 3#9, cvalid := true, cidx := 2#8, res := 2#32 } := by decide

theorem test_cur_next_never_wraps :
    (next? (exec .curNext { pay fields with fcount := 3#9, cvalid := true, cidx := 2#8 })).map (·.cidx) =
      some 2#8 := by decide

theorem test_cur_next_moves :
    (next? (exec .curNext (pay fields))).map (·.cidx) = some 1#8 := by decide

theorem test_cur_prev_at_zero :
    (next? (exec .curPrev { pay fields with res := 9#32 })).map (fun t => (t.cidx, t.res, t.code)) =
      some (0#8, 0#32, 0#4) := by decide

theorem test_pseudo_app_str :
    (expand (.appStr [0x61#8, 0x62#8])).map lineAccess =
      [.write 0x2000 8 0x61#32, .write 0x2001 8 0x62#32, .write 0x008 32 2#32, .write 0x000 32 0x28#32] := by
  decide

/-! ## Witnesses: for each statement with hypotheses, a state and operands that meet them, with a boundary
value for each clause. The name is the statement's. -/

theorem of_next? {o : Host.Outcome State Fault Refusal} {s : State} (h : next? o = some s) :
    o = .next s := by
  cases o <;> simp_all [next?]

/-- The parameters at the ends of R6's ranges. -/
def smallest : Config := ⟨0x00#8, 9, 9, 1⟩
def largest : Config := ⟨0xFF#8, 263, 4096, 4096⟩

/-- A block with the smallest `XBUF`, so that a segment can be longer than it. -/
def shortXbuf (bs : List Byte) : State := { pay bs with cfg := ⟨0x7C#8, 9, 256, 1⟩ }

theorem witness_DecodeOfEncodeIsTheCommand :
    (Instr.locate (.field 255)).wellFormed = true ∧ (Instr.rdI32 .cursor).wellFormed = true ∧
      Instr.nop.wellFormed = true := by decide

theorem witness_DecodedWordIsTheEncoding :
    decode 0x0001AB32#32 = .ok (.rdU8 .cursor) ∧ decode 0x0000FF37#32 = .ok (.rdBytes (.field 255)) :=
  ⟨rfl, rfl⟩

/-- One word for each of the three reasons of R76. -/
theorem witness_IllegalWordsAreThoseOfRuleSeventySix :
    [0x00000017#32, 0x80000032#32, 0x00000110#32, 0x00010020#32].map decoded = List.replicate 4 none ∧
    configOk State.reset.cfg = true ∧
    next? (step (waiting (.access (.write 0x000 32 0x00000017#32)))) =
      some { State.reset with cmd := 0x00000017#32, code := 6#4 } ∧
    next? (step (waiting (.access (.write 0x000 32 0x80000032#32)))) =
      some { State.reset with cmd := 0x80000032#32, code := 6#4 } ∧
    next? (step (waiting (.access (.write 0x000 32 0x00010020#32)))) =
      some { State.reset with cmd := 0x00010020#32, code := 6#4 } := by decide

theorem witness_IndexComesFromTheWordOrTheCursor :
    (0x37#8, Instr.rdBytes) ∈ [(0x30#8, Instr.locate), (0x32#8, .rdU8), (0x33#8, .rdU16), (0x34#8, .rdI16),
      (0x35#8, .rdU32), (0x36#8, .rdI32), (0x37#8, .rdBytes)] ∧
    Instr.locate ∈ [Instr.locate, .rdU8, .rdU16, .rdI16, .rdU32, .rdI32, .rdBytes] := by simp

theorem witness_StepRunsTheDecodedCommand :
    configOk State.reset.cfg = true ∧
    (waiting (.access (.write 0x000 32 0x00000137#32))).inputs =
      .access (.write 0x000 32 0x00000137#32) :: [] ∧
    decode 0x00000137#32 = .ok (.rdBytes (.field 1)) := ⟨by decide, rfl, rfl⟩

/-- A register, the first and last byte of `BUF`, and the last of `XBUF` once written. -/
theorem witness_HostReadsGiveTheMappedValue :
    configOk State.reset.cfg = true ∧
    (next? (step (waiting (.access (.read 0x028 32))))).map (·.replies) = some [.word 256#32] ∧
    (next? (step { (bufAt 0 [7#8]).setInputs [.access (.read 0x1000 8)] with code := 6#4 })).map (·.replies) =
      some [.byte 7#8] ∧
    (next? (step ((bufAt 255 [7#8]).setInputs [.access (.read (0x1000 + 255) 8)]))).map (·.replies) =
      some [.byte 7#8] ∧
    (next? (step ((State.reset.putXbuf 255 [7#8]).setInputs [.access (.read (0x2000 + 255) 8)]))).map
      (·.replies) = some [.byte 7#8] := by decide

theorem witness_HostWritesChangeOnlyTheirCell :
    configOk State.reset.cfg = true ∧
    next? (step (waiting (.access (.write 0x004 32 5#32)))) = some { State.reset with opa := 5#32 } ∧
    next? (step (waiting (.access (.write 0x008 32 5#32)))) = some { State.reset with opb := 5#32 } ∧
    next? (step (waiting (.access (.write (0x1000 + 5) 8 9#32)))) = some (sized 9#8) ∧
    next? (step (waiting (.access (.write (0x1000 + 255) 8 9#32)))) = some (bufAt 255 [9#8]) ∧
    next? (step (waiting (.access (.write (0x2000 + 255) 8 9#32)))) =
      some (State.reset.putXbuf 255 [9#8]) := by decide

/-- Both sides of each edge of R55 to R57. -/
theorem witness_AccessesOutsideTheContractAreRefused :
    configOk State.reset.cfg = true ∧
    refusal? (step (waiting (.access (.read 0x028 32)))) = none ∧
    refusal? (step (waiting (.access (.read 0x02C 32)))) = some .unmappedOffset ∧
    refusal? (step (waiting (.access (.read 0x001 32)))) = some .widthOrAlignment ∧
    refusal? (step (waiting (.access (.read 0x010 8)))) = some .widthOrAlignment ∧
    refusal? (step (waiting (.access (.read (0x1000 + 255) 8)))) = none ∧
    refusal? (step (waiting (.access (.read (0x1000 + 256) 8)))) = some .unmappedOffset ∧
    refusal? (step (waiting (.access (.read 0x1000 32)))) = some .widthOrAlignment ∧
    refusal? (step (waiting (.access (.write 0x008 32 0#32)))) = none ∧
    refusal? (step (waiting (.access (.write 0x00C 32 0#32)))) = some .readOnlyRegister ∧
    refusal? (step (waiting (.access (.write (0x2000 + 256) 8 0#32)))) = some .unmappedOffset := by decide

/-- The ends of R6's ranges are admitted, one past an end is refused. -/
theorem witness_ConfigurationOutsideTheBoundsIsRefused :
    configOk smallest = true ∧ configOk largest = true ∧
    refusal? (step (State.atPowerUp ⟨0x7C#8, 8, 256, 256⟩ 0)) = some .badConfiguration ∧
    refusal? (step (State.atPowerUp ⟨0x7C#8, 264, 4096, 4096⟩ 0)) = some .badConfiguration ∧
    refusal? (step (State.atPowerUp ⟨0x7C#8, 186, 185, 256⟩ 0)) = some .badConfiguration ∧
    refusal? (step (State.atPowerUp ⟨0x7C#8, 186, 4097, 256⟩ 0)) = some .badConfiguration ∧
    refusal? (step (State.atPowerUp ⟨0x7C#8, 186, 256, 177⟩ 0)) = some .badConfiguration ∧
    refusal? (step (State.atPowerUp ⟨0x7C#8, 186, 256, 4097⟩ 0)) = some .badConfiguration := by decide

theorem witness_ResetInputAndPowerUpLeaveTheResetValues :
    configOk State.reset.cfg = true ∧
    next? (step ({ (pay fields).putXbuf 0 [1#8] with cmd := 5#32, crc := 7#16 }.setInputs [.resetInput])) =
      some (State.reset.putXbuf 0 [1#8]) ∧
    next? (step ({ (pay fields).putXbuf 0 [1#8] with cmd := 5#32, crc := 7#16 }.setInputs [.powerUp])) =
      some { State.reset with powerUps := 1 } ∧
    ({ State.reset with powerUps := 1 } : State).xbufByte 0 = Config.xbufPowerUp 1 0 :=
  ⟨by decide, by decide, by decide, rfl⟩

theorem witness_PowerUpStateMeetsTheInvariant :
    configOk Config.default = true ∧ configOk smallest = true ∧ configOk largest = true := by decide

theorem witness_EveryStepKeepsTheInvariant :
    (waiting (.access (.write 0x000 32 0x00000012#32))).Inv ∧
    step (waiting (.access (.write 0x000 32 0x00000012#32))) =
      .next { State.reset with cmd := 0x12#32, crc := 0xFFFF#16 } :=
  ⟨⟨by decide, by decide, by decide, by decide, by decide, by decide, by decide, by decide, by decide,
    by decide⟩, of_next? (by decide)⟩

theorem witness_NopSetsOnlyTheCode :
    (0x00010000#32).extractLsb' 0 8 = 0x00#8 ∧ 0x00010000#32 ≠ 0x00000000#32 ∧
    decoded 0x00010000#32 = none ∧ decoded 0x00000000#32 = some .nop := by decide

theorem witness_SresetLeavesTheResetStateButCmd :
    configOk State.reset.cfg = true ∧
    (waiting (.access (.write 0x000 32 0x00000001#32))).inputs =
      .access (.write 0x000 32 0x00000001#32) :: [] ∧
    (waiting .resetInput).inputs = .resetInput :: [] := by decide

/-- `250 + 6 = 256` is inside, `250 + 7` is not (program P3). -/
theorem witness_RangeCommandsFeedTheRange :
    (next? (exec .crcRangeI { State.reset with opa := 250#32, opb := 6#32 })).map (·.code) = some 0#4 ∧
    (next? (exec .crcRangeN { State.reset with opa := 256#32, opb := 0#32 })).map (·.code) = some 0#4 ∧
    next? (exec .crcRangeI { State.reset with opa := 250#32, opb := 7#32, crc := 9#16 }) =
      some { State.reset with opa := 250#32, opb := 7#32, crc := 9#16, code := 4#4 } := by decide +kernel

theorem feedRun_end {a b : Half} (h : b = a) : FeedRun a [] b := h

/-- A byte and a range, one convention; and the two conventions mixed (95_test_vectors.md 2.1). -/
theorem witness_FeedingInPiecesIsFeedingTheWhole :
    FeedRun 0#16
      [(.crcByteN, { State.reset with opa := 0x31#32 }),
        (.crcRangeN, { bufAt 0 digits with opa := 1#32, opb := 8#32, crc := 0x2672#16 })] 0x31C3#16 ∧
    FeedRun 0xFFFF#16
      [(.crcByteI, { State.reset with opa := 0xFF#32, crc := 0xFFFF#16 }),
        (.crcRangeI, { bufAt 0 [0xFF#8] with opb := 1#32, crc := 0x00FF#16 })] 0x0000#16 ∧
    FeedRun 0#16
      [(.crcRangeN, { bufAt 0 digits with opb := 2#32 }),
        (.crcByteI, { State.reset with opa := 0x33#32, crc := 0x20B5#16 })] 0xE11E#16 :=
  ⟨⟨by decide, rfl, _, rfl, rfl, by decide, by decide +kernel, _, rfl, rfl,
      feedRun_end (by decide +kernel)⟩,
    ⟨by decide, rfl, _, rfl, rfl, by decide, by decide +kernel, _, rfl, rfl,
      feedRun_end (by decide +kernel)⟩,
    ⟨by decide, rfl, _, rfl, rfl, by decide, by decide +kernel, _, rfl, rfl,
      feedRun_end (by decide +kernel)⟩⟩

/-- `250 + 6 + 0 = 256` is inside; `251 + 6` and `250 + 6 + 1` are not. -/
theorem witness_MessageChecksumCoversHeaderAndPayload :
    (next? (exec .msgCsum { State.reset with opa := 250#32 })).map (·.code) = some 0#4 ∧
    (next? (exec .msgCsum { State.reset with opa := 251#32 })).map (·.code) = some 4#4 ∧
    (next? (exec .msgCsum { bufAt 255 [1#8] with opa := 250#32 })).map (·.code) = some 4#4 := by
  decide +kernel

theorem witness_SetChecksumStoresTheTrailer :
    (next? (exec .msgSetcsum { State.reset with opa := 248#32 })).map (·.buf) =
      some [(254, 0x08#8), (255, 0x70#8)] ∧
    (next? (exec .msgSetcsum { State.reset with opa := 249#32 })).map (·.code) = some 4#4 := by
  decide +kernel

theorem witness_VerifyComparesTheTrailer :
    (next? (exec .msgVerify { bufAt 254 [0x08#8, 0x70#8] with opa := 248#32 })).map (·.code) = some 0#4 ∧
    (next? (exec .msgVerify { State.reset with opa := 248#32 })).map (·.code) = some 5#4 ∧
    (next? (exec .msgVerify { State.reset with opa := 249#32 })).map (·.code) = some 4#4 := by
  decide +kernel

/-- The echo message with its trailer, unchanged; then with one bit of the payload, and one of the trailer, flipped. -/
theorem witness_VerifyDetectsEverySingleBitError :
    exec .msgSetcsum (bufAt 0 echo) =
      .next { bufAt 0 (echo ++ [0x39#8, 0xD2#8]) with res := 0x39D2#32, crc := 0x39D2#16 } ∧
    (next? (exec .msgVerify (bufAt 0 ((echo.set 6 0xAA#8) ++ [0x39#8, 0xD2#8])))).map (·.code) =
      some 5#4 ∧
    0xAA#8 = 0x2A#8 ^^^ (1#8 <<< 7) ∧
    (next? (exec .msgVerify (bufAt 0 (echo ++ [0x39#8, 0xD2#8])))).map (fun t => (t.code, t.res)) =
      some (0#4, 1#32) ∧
    (next? (exec .msgVerify (bufAt 0 (echo ++ [0x38#8, 0xD2#8])))).map (·.code) = some 5#4 :=
  ⟨of_next? (by decide +kernel), by decide +kernel, by decide, by decide +kernel, by decide +kernel⟩

/-- The boundary values of R133 with their fields. -/
theorem witness_IntegerFieldsTakeTheSmallestWidth :
    [-2 ^ 31, -32769, -32768, -1, 0, 255, 256, 65535, 65536, 2 ^ 32 - 1].map intBytes =
      [[0x80#8, 0x00#8, 0x00#8, 0x00#8], [0xFF#8, 0xFF#8, 0x7F#8, 0xFF#8], [0x80#8, 0x00#8],
        [0xFF#8, 0xFF#8], [0x00#8], [0xFF#8], [0x01#8, 0x00#8], [0xFF#8, 0xFF#8],
        [0x00#8, 0x01#8, 0x00#8, 0x00#8], [0xFF#8, 0xFF#8, 0xFF#8, 0xFF#8]] := by decide

theorem witness_FieldWidthsByCommand :
    configOk State.reset.cfg = true ∧ 4 ≤ State.reset.cfg.maxSize - 8 ∧ State.reset.dsize = 0 ∧
    (Instr.appI16, 2) ∈ [(Instr.appU8, 1), (.appU16, 2), (.appI16, 2)] ∧
    (next? (exec .appI16 { State.reset with opa := 0x8000#32 })).map (·.dsize) = some 2 ∧
    (next? (exec .appU32 { State.reset with opa := 0xFFFF#32 })).map (·.dsize) = some 2 ∧
    (next? (exec .appI32 { State.reset with opa := 0x10000#32 })).map (·.dsize) = some 4 := by decide

/-- The float clause: -1.0 is finite and in range, and four bytes of room (`MAXSIZE = 12`) are enough. -/
theorem witness_FieldWidthsByCommand_float :
    (0xBF800000#32).extractLsb' 23 8 ≠ 0xFF#8 ∧
    -2 ^ 31 ≤ truncRat (binary32Value 0xBF800000#32) ∧ truncRat (binary32Value 0xBF800000#32) ≤ 2 ^ 31 - 1 ∧
    configOk ⟨0x7C#8, 12, 12, 4⟩ = true ∧
    (next? (exec .appFloat { State.atPowerUp ⟨0x7C#8, 12, 12, 4⟩ 0 with opa := 0xBF800000#32 })).map
      (fun t => (t.code, t.dsize)) = some (0#4, 4) := by
  have he : ((0xBF800000#32).extractLsb' 23 8).toNat = 127 := by decide
  have hm : ((0xBF800000#32).extractLsb' 0 23).toNat = 0 := by decide
  have hs : (0xBF800000#32).extractLsb' 31 1 = 1#1 := by decide
  have hv : binary32Value 0xBF800000#32 = ((-1 : ℤ) : ℚ) := by
    unfold binary32Value
    rw [he, hm, hs]
    norm_num
  have h : truncRat (binary32Value 0xBF800000#32) = -1 := by
    rw [hv, truncRat, if_neg (by norm_num), Int.ceil_intCast]
  exact ⟨by decide, by rw [h]; decide, by rw [h]; decide, by decide, by decide⟩

theorem witness_EveryAppendIsTheCommonStep :
    Instr.appI16 ∈ appendCommands ∧ configOk (sized 175#8).cfg = true ∧
    fieldBytes .appI16 { sized 175#8 with opa := 0xFFFB#32 } = some [0xFF#8, 0xFB#8] ∧
    (next? (exec .appI16 { sized 175#8 with opa := 0xFFFB#32 })).map (·.dsize) = some 178 := by decide

/-- 176 + 1 + 1 = 178 = `PAYLOAD_CAP` is admitted, 177 + 1 + 1 is `OVERSIZE`. -/
theorem witness_IntegerAppendsAddTheirField :
    configOk (sized 176#8).cfg = true ∧
    (next? (exec .appU8 (sized 176#8))).map (fun t => (t.code, t.dsize)) = some (0#4, 178) ∧
    next? (exec .appU8 (sized 177#8)) = some { sized 177#8 with code := 1#4 } ∧
    (next? (exec .appI32 { sized 173#8 with opa := 0x80000000#32 })).map (fun t => (t.code, t.dsize)) =
      some (0#4, 178) ∧
    (next? (exec .appI32 { sized 174#8 with opa := 0x80000000#32 })).map (·.code) = some 1#4 := by decide

theorem witness_BoolAppendAddsZeroOrOne :
    configOk (sized 176#8).cfg = true ∧
    (next? (exec .appBool (sized 176#8))).map (fun t => (t.code, t.dsize)) = some (0#4, 178) ∧
    next? (exec .appBool (sized 177#8)) = some { sized 177#8 with code := 1#4 } := by decide

/-- NaN; the first values outside the range; the last ones inside it (95_test_vectors.md 2.4). -/
theorem witness_FloatAppendAddsTheTruncatedInteger :
    configOk State.reset.cfg = true ∧
    next? (exec .appFloat { sized 178#8 with opa := 0x7FC00000#32 }) =
      some { sized 178#8 with opa := 0x7FC00000#32, code := 4#4 } ∧
    [0x7F800000#32, 0x4F000000#32, 0xCF000001#32, 0x7F7FFFFF#32].map
      (fun w => (next? (exec .appFloat { State.reset with opa := w })).map (·.code)) =
      List.replicate 4 (some 4#4) ∧
    next? (exec .appFloat { State.reset with opa := 0xCF000000#32 }) =
      some { pay [0x80#8, 0x00#8, 0x00#8, 0x00#8] with opa := 0xCF000000#32 } ∧
    (next? (exec .appFloat { sized 173#8 with opa := 0xBF000000#32 })).map (fun t => (t.code, t.dsize)) =
      some (0#4, 178) := by decide +kernel

/-- `L = 257` is past `XBUF`; `L = 256` is not, and is `OVERSIZE`; `L = 178` fits. -/
theorem witness_StringAppendCopiesTheStagingBuffer :
    configOk State.reset.cfg = true ∧
    (next? (exec .appStr { sized 178#8 with opb := 257#32 })).map (·.code) = some 4#4 ∧
    (next? (exec .appStr { State.reset with opb := 256#32 })).map (·.code) = some 1#4 ∧
    (next? (exec .appStr { State.reset with opb := 179#32 })).map (·.code) = some 1#4 ∧
    (next? (exec .appStr { State.reset with opb := 0x10000#32 })).map (·.code) = some 0#4 := by
  decide +kernel

theorem witness_AppendsStayWithinThePayloadCap :
    Instr.appU8 ∈ appendCommands ∧ configOk (sized 200#8).cfg = true ∧
    (sized 200#8).cfg.maxSize - 8 < (sized 200#8).dsize ∧
    (next? (exec .appU8 (sized 200#8))).map (·.code) = some 1#4 ∧
    (next? (exec .appFloat { sized 200#8 with opa := 0x7F800000#32 })).map (·.code) = some 4#4 := by decide

/-- The run of two appends of 42_field_encode.md R136's example. -/
def exampleRun : List (Instr × State) :=
  [(.appU8, { State.reset with opa := 1#32 }), (.appU16, { pay [0x01#8] with opa := 300#32 })]

theorem exampleRun_runs :
    AppendRun State.reset exampleRun { pay [0x01#8, 0x7C#8, 0x01#8, 0x2C#8] with opa := 300#32 } :=
  ⟨rfl, rfl, by decide, { pay [0x01#8] with opa := 1#32 }, of_next? (by decide), rfl, rfl, rfl, by decide,
    { pay [0x01#8, 0x7C#8, 0x01#8, 0x2C#8] with opa := 300#32 }, of_next? (by decide), rfl, rfl⟩

theorem witness_AppendsBuildTheDelimitedPayload :
    configOk State.reset.cfg = true ∧ State.reset.dsize = 0 ∧
    AppendRun State.reset exampleRun { pay [0x01#8, 0x7C#8, 0x01#8, 0x2C#8] with opa := 300#32 } ∧
    entryBytes (.appU8, { State.reset with opa := 1#32 }) ≠ [] ∧
    Instr.appU8 ∈ appendCommands ∧
    exec .appU8 (sized 177#8) = .next { sized 177#8 with code := 1#4 } ∧
    Instr.appStr ∈ appendCommands ∧ fieldBytes .appStr State.reset = some [] :=
  ⟨by decide, by decide, exampleRun_runs, by decide, by decide, of_next? (by decide), by decide, by decide⟩

/-- Field 1 of the run, named by the word and by the cursor. -/
theorem witness_AppendedFieldsReadBack :
    configOk State.reset.cfg = true ∧ State.reset.dsize = 0 ∧
    AppendRun State.reset exampleRun { pay [0x01#8, 0x7C#8, 0x01#8, 0x2C#8] with opa := 300#32 } ∧
    (∀ e ∈ exampleRun, State.reset.cfg.delim ∉ entryBytes e) ∧
    (∀ e ∈ exampleRun.dropWhile (fun e => entryBytes e = []), entryBytes e ≠ []) ∧
    (exampleRun.dropWhile fun e => entryBytes e = [])[1]? =
      some (.appU16, { pay [0x01#8] with opa := 300#32 }) ∧
    indexValue { pay [0x01#8, 0x7C#8, 0x01#8, 0x2C#8] with cidx := 1#8 } .cursor = 1 ∧
    next? (exec (.rdU16 .cursor) { pay [0x01#8, 0x7C#8, 0x01#8, 0x2C#8] with cidx := 1#8 }) =
      some { pay [0x01#8, 0x7C#8, 0x01#8, 0x2C#8] with cidx := 1#8, res := 300#32 } :=
  ⟨by decide, by decide, exampleRun_runs, by decide, by decide, rfl, by decide, by decide⟩

/-- `6 + 250 = 256` is inside `BUF`, `6 + 251` is not. -/
theorem witness_LocateLeavesTheSegment :
    6 + (pay fields).dsize ≤ (pay fields).cfg.bufSize ∧
    locate 0x7C#8 2 (pay fields).payload = some (5, 2) ∧ locate 0x7C#8 3 (pay fields).payload = none ∧
    next? (exec (.locate (.field 3)) (pay fields)) = some { pay fields with code := 2#4 } ∧
    (next? (exec (.locate (.field 0)) (sized 250#8))).map (fun t => (t.code, t.llen)) =
      some (0#4, 250#8) ∧
    next? (exec (.locate (.field 0)) (sized 251#8)) = some { sized 251#8 with code := 4#4 } := by
  decide +kernel

theorem witness_FieldCountCountsDelimiters :
    next? (exec .fieldCount { State.reset with res := 5#32 }) = some State.reset ∧
    (next? (exec .fieldCount (sized 250#8))).map (·.res) = some 1#32 ∧
    next? (exec .fieldCount (sized 251#8)) = some { sized 251#8 with code := 4#4 } := by decide +kernel

/-- Segments of the reader's width, one byte more, and none. -/
theorem witness_NumericReadersReassembleTheSegment :
    locate 0x7C#8 0 (pay fields).payload = some (0, 1) ∧
    (next? (exec (.rdU8 (.field 0)) (pay fields))).map (·.res) = some 1#32 ∧
    (next? (exec (.rdU8 (.field 1)) (pay fields))).map (·.code) = some 3#4 ∧
    (next? (exec (.rdU32 (.field 1)) (pay [0x01#8, 0x7C#8]))).map (·.code) = some 3#4 ∧
    (next? (exec (.rdI16 (.field 3)) (pay fields))).map (·.code) = some 2#4 ∧
    (next? (exec (.rdI32 (.field 0)) (sized 251#8))).map (·.code) = some 4#4 := by decide

theorem witness_ReadBytesCopiesTheSegment :
    locate 0x7C#8 1 (pay fields).payload = some (2, 2) ∧
    (next? (exec (.rdBytes (.field 0)) (shortXbuf [0x61#8]))).map (·.xbuf) = some [(0, 0x61#8)] ∧
    next? (exec (.rdBytes (.field 0)) (shortXbuf [0x61#8, 0x62#8])) =
      some { shortXbuf [0x61#8, 0x62#8] with code := 4#4 } ∧
    (next? (exec (.rdBytes (.field 3)) (pay fields))).map (·.code) = some 2#4 ∧
    (next? (exec (.rdBytes (.field 0)) (sized 251#8))).map (·.code) = some 4#4 := by decide

theorem witness_SegmentsCoverThePayload :
    6 + (sized 250#8).dsize ≤ (sized 250#8).cfg.bufSize ∧
    (next? (exec (.locate (.field 2)) (pay fields))).map (fun t => (t.lstart, t.llen)) =
      some (5#8, 2#8) := by decide

/-- No count yet, a payload outside `BUF`, a count of 0, 1 and 256. -/
theorem witness_CursorCommandsMoveAndClamp :
    Instr.curNext ∈ cursorCommands ∧ (sized 251#8).cvalid = false ∧
    (sized 251#8).cfg.bufSize < 6 + (sized 251#8).dsize ∧
    (Instr.curNext, 3) ∈ [(Instr.curFirst, 0), (.curLast, 3), (.curNext, 3), (.curPrev, 1)] ∧
    next? (exec .curNext (sized 251#8)) = some { sized 251#8 with code := 4#4 } ∧
    next? (exec .curNext { State.reset with cidx := 3#8 }) =
      some { State.reset with cvalid := true, code := 2#4 } ∧
    next? (exec .curNext (pay [0x2A#8])) = some { pay [0x2A#8] with fcount := 1#9, cvalid := true } ∧
    next? (exec .curLast { State.reset with fcount := 256#9, cvalid := true }) =
      some { State.reset with fcount := 256#9, cvalid := true, cidx := 255#8, res := 255#32 } ∧
    next? (exec .curPrev { State.reset with fcount := 256#9, cvalid := true, cidx := 255#8 }) =
      some { State.reset with fcount := 256#9, cvalid := true, cidx := 254#8, res := 254#32 } := by decide

/-- The stale counts of program P5. -/
theorem witness_CachedCountIsKeptUntilCleared :
    Instr.appU8 ∉ cursorCommands ∧ Instr.appU8 ≠ .clear ∧ Instr.appU8 ≠ .sreset ∧
    Instr.curLast ∈ cursorCommands ∧
    next? (exec .curLast { pay fields with fcount := 1#9, cvalid := true }) =
      some { pay fields with fcount := 1#9, cvalid := true } ∧
    next? (exec .curFirst { pay fields with fcount := 0#9, cvalid := true, cidx := 1#8 }) =
      some { pay fields with fcount := 0#9, cvalid := true, code := 2#4 } := by decide

/-- A failure of each of the three shapes, and an illegal word. -/
theorem witness_FailuresWriteNothingButTheCode :
    next? (exec .appU8 (sized 178#8)) = some { sized 178#8 with code := 1#4 } ∧
    next? (exec .msgVerify { State.reset with res := 7#32 }) =
      some { State.reset with res := 0#32, crc := 0x0870#16, code := 5#4 } ∧
    next? (exec .curPrev State.reset) = some { State.reset with cvalid := true, code := 2#4 } ∧
    decoded 0x00000002#32 = none ∧ configOk State.reset.cfg = true := by decide +kernel

theorem witness_OperandRegistersAreWrittenOnlyByReset :
    Instr.curFirst ≠ .sreset ∧
    (next? (exec .curFirst { pay fields with opa := 1#32, opb := 2#32 })).map (fun t => (t.opa, t.opb)) =
      some (1#32, 2#32) := by decide

theorem witness_ResultRegistersHaveTheirWriters :
    Instr.appU8 ∉ [Instr.msgCsum, .msgSetcsum, .msgVerify, .fieldCount, .sreset] ∧
    Instr.appU8 ∉ cursorCommands ∧
    (∀ ix, Instr.appU8 ∉ [Instr.rdU8 ix, .rdU16 ix, .rdI16 ix, .rdU32 ix, .rdI32 ix, .rdBytes ix]) ∧
    Instr.appU8 ∉ engineCommands ∧ (∀ ix, Instr.appU8 ≠ .locate ix) ∧
    (next? (exec .msgVerify State.reset)).map (·.code) = some 5#4 :=
  ⟨by decide, by decide, by simp, by decide, by simp, by decide +kernel⟩

theorem witness_BuffersHaveTheirWriters :
    configOk State.reset.cfg = true ∧ Instr.curFirst ∉ appendCommands ∧
    Instr.curFirst ∉ [Instr.msgSetcsum, .clear, .sreset] ∧ (∀ ix, Instr.curFirst ≠ .rdBytes ix) ∧
    Memory.within (bufAt 255 [7#8]).cfg.bufSize (bufAt 255 [7#8]).buf = true ∧
    (next? (exec .clear (bufAt 255 [7#8]))).map (fun t => (t.bufByte 255, t.bufByte 256)) =
      some (0#8, (bufAt 255 [7#8]).bufByte 256) :=
  ⟨by decide, by decide, by decide, by simp, by decide, by decide⟩

theorem witness_CommandsKeepDsizeWithinTheCap :
    configOk (sized 176#8).cfg = true ∧ (sized 176#8).dsize ≤ (sized 176#8).cfg.maxSize - 8 ∧
    (next? (exec .appU8 (sized 176#8))).map (·.dsize) = some 178 := by decide

theorem witness_EngineAndCodecAreSeparate :
    Instr.appU8 ∉ engineCommands ∧ Instr.appU8 ≠ .sreset ∧ Instr.msgCsum ∈ engineCommands := by decide

theorem witness_OnlyTheStringAppendReadsTheStagingBuffer :
    Instr.rdBytes .cursor ≠ .appStr ∧
    (∀ j, j < (({ State.reset.putXbuf 0 [0x61#8] with opb := 1#32 } : State).opb.extractLsb' 0 16).toNat →
      ({ State.reset.putXbuf 0 [0x61#8] with opb := 1#32, xbuf := [(0, 0x61#8), (1, 0x62#8)], powerUps := 4 } :
        State).xbufByte j =
      ({ State.reset.putXbuf 0 [0x61#8] with opb := 1#32 } : State).xbufByte j) := by
  refine ⟨by decide, fun j hj => ?_⟩
  have h : j = 0 := by
    change j < 1 at hj
    omega
  subst h
  rfl

theorem witness_UnnamedOperandBitsAreIgnored :
    Instr.appU8 ≠ .sreset ∧ 0xFFFFFF2C#32 &&& (operandMask .appU8).1 = 0x2C#32 &&& (operandMask .appU8).1 ∧
    0xFFFFFFFF#32 &&& (operandMask .appU8).2 = 0#32 &&& (operandMask .appU8).2 := by decide

end Sys2Proof.Tests
end

section
/-! PROOFS. What a step is refused for (00_scope.md R6, 20_memory.md R57): no command is refused, a host
access has reasons of its own, and only the check of the bounds names the configuration. -/

namespace Sys2Proof.Machine

/-! ## Every command has a next state (60_exceptions.md R210) -/

theorem feedRange_answers (f : Half → List Byte → Half) (s : State) : ∃ t, feedRange f s = .next t := by
  obtain ⟨_, e⟩ | ⟨_, e⟩ := feedRange_cases f s <;> exact ⟨_, e⟩

theorem appendBytes_answers (bs : List Byte) (s : State) : ∃ t, appendBytes bs s = .next t := by
  obtain ⟨_, e⟩ | ⟨_, e⟩ := appendBytes_cases bs s <;> exact ⟨_, e⟩

theorem readNumber_answers (k w : Nat) (f : Nat → Word) (s : State) : ∃ t, readNumber k w f s = .next t := by
  obtain ⟨_, _, _, e⟩ | ⟨_, _, _, _, _, e⟩ := readNumber_cases k w f s <;> exact ⟨_, e⟩

theorem moveCursor_answers (f : State → Int) (s : State) : ∃ t, moveCursor f s = .next t := by
  obtain ⟨_, e⟩ | ⟨_, _, _, e⟩ | ⟨_, _, _, e⟩ := moveCursor_cases f s <;> exact ⟨_, e⟩

/-- No command faults and none is refused, at any state. -/
theorem exec_answers (i : Instr) (s : State) : ∃ t, exec i s = .next t := by
  cases i with
  | nop | sreset | crcSeed | crcInitN | crcInitI | crcByteN | crcByteI | clear => exact ⟨_, rfl⟩
  | crcRangeN | crcRangeI => exact feedRange_answers _ s
  | msgCsum => obtain ⟨_, e⟩ | ⟨_, e⟩ := execMsgCsum_cases s <;> exact ⟨_, e⟩
  | msgSetcsum => obtain ⟨_, e⟩ | ⟨_, e⟩ := execMsgSetcsum_cases s <;> exact ⟨_, e⟩
  | msgVerify => obtain ⟨_, e⟩ | ⟨_, _, e⟩ | ⟨_, _, e⟩ := execMsgVerify_cases s <;> exact ⟨_, e⟩
  | appU8 | appU16 | appI16 | appU32 | appI32 | appBool => exact appendBytes_answers _ s
  | appFloat =>
    obtain ⟨_, e⟩ | ⟨_, _, _, _, e⟩ := execAppFloat_cases s
    · exact ⟨_, e⟩
    · rw [exec, e]; exact appendBytes_answers _ s
  | appStr =>
    obtain ⟨_, e⟩ | ⟨_, e⟩ := execAppStr_cases s
    · exact ⟨_, e⟩
    · rw [exec, e]; exact appendBytes_answers _ s
  | locate ix => obtain ⟨_, _, _, e⟩ | ⟨_, _, e⟩ := execLocate_cases ix s <;> exact ⟨_, e⟩
  | fieldCount => obtain ⟨_, e⟩ | ⟨_, e⟩ := execFieldCount_cases s <;> exact ⟨_, e⟩
  | rdU8 _ | rdU16 _ | rdI16 _ | rdU32 _ | rdI32 _ => exact readNumber_answers _ _ _ s
  | rdBytes ix => obtain ⟨_, _, e⟩ | ⟨_, _, _, e⟩ := execRdBytes_cases ix s <;> exact ⟨_, e⟩
  | curFirst | curLast | curNext | curPrev => exact moveCursor_answers _ s

/-- A command word always has a next state: an illegal one ends in `fail(ILLEGAL)`. -/
theorem runCommand_answers (w : Word) (s : State) : ∃ t, runCommand w s = .next t := by
  unfold runCommand
  split
  · exact exec_answers _ _
  · exact ⟨_, rfl⟩

/-! ## What a host access is refused for (20_memory.md R57) -/

/-- The three refusals of R57. -/
def accessRefusals : List Refusal := [.unmappedOffset, .widthOrAlignment, .readOnlyRegister]

theorem noTarget_mem_accessRefusals (offset : Nat) : noTarget offset ∈ accessRefusals := by
  unfold noTarget
  split <;> decide

/-- What a 32-bit register write can do: answer, or be refused because the register is read-only. -/
theorem writeRegister_cases (r : Reg) (v : Word) (s : State) :
    (∃ t, writeRegister r v s = .next t) ∨ writeRegister r v s = .refused .readOnlyRegister := by
  cases r with
  | cmd => exact .inl (runCommand_answers v s)
  | opa | opb => exact .inl ⟨_, rfl⟩
  | res | status | crc | loc | cursor | cfg0 | cfg1 | cfg2 => exact .inr rfl

/-- What a host access can do: answer, or be refused for a reason of R57. -/
theorem performAccess_cases (a : Access) (s : State) :
    (∃ t, performAccess a s = .next t) ∨ ∃ r ∈ accessRefusals, performAccess a s = .refused r := by
  have hwidth : Refusal.widthOrAlignment ∈ accessRefusals := by decide
  have hreadOnly : Refusal.readOnlyRegister ∈ accessRefusals := by decide
  cases a with
  | read offset width =>
    unfold performAccess
    dsimp only
    split
    · exact .inr ⟨_, noTarget_mem_accessRefusals offset, rfl⟩
    all_goals
      split
      · exact .inl ⟨_, rfl⟩
      · exact .inr ⟨_, hwidth, rfl⟩
  | write offset width value =>
    unfold performAccess
    dsimp only
    split
    · exact .inr ⟨_, noTarget_mem_accessRefusals offset, rfl⟩
    · split
      · exact (writeRegister_cases _ value s).imp_right fun e => ⟨_, hreadOnly, e⟩
      · exact .inr ⟨_, hwidth, rfl⟩
    all_goals
      split
      · exact .inl ⟨_, rfl⟩
      · exact .inr ⟨_, hwidth, rfl⟩

/-- What an input can do: a reset and a power-up always answer. -/
theorem performInput_cases (x : Input) (s : State) :
    (∃ t, performInput x s = .next t) ∨ ∃ r ∈ accessRefusals, performInput x s = .refused r := by
  cases x with
  | access a => exact performAccess_cases a s
  | resetInput | powerUp => exact .inl ⟨_, rfl⟩

/-! ## What a step is refused for -/

theorem step_of_not_configOk {s : State} (h : ¬ configOk s.cfg = true) :
    step s = .refused .badConfiguration := if_neg h

/-- What a step inside the bounds can do: answer, or be refused for a reason of R57. -/
theorem step_cases {s : State} (h : configOk s.cfg = true) :
    (∃ t, step s = .next t) ∨ ∃ r ∈ accessRefusals, step s = .refused r := by
  rw [step, performNext, if_pos h]
  split
  · exact .inl ⟨_, rfl⟩
  · exact performInput_cases _ _

/-- The step checks the bounds, and nothing behind the check gives that reason. -/
theorem step_refused_badConfiguration_iff (s : State) :
    step s = .refused .badConfiguration ↔ ¬ configOk s.cfg = true := by
  refine ⟨fun hstep hok => ?_, step_of_not_configOk⟩
  obtain ⟨t, e⟩ | ⟨r, hr, e⟩ := step_cases hok <;> rw [e] at hstep <;> cases hstep
  exact absurd hr (by decide)

/-- Settles O10: the step's check is `configOk`, which says the bounds of R6. -/
theorem configurationOutsideTheBoundsIsRefused : Obligations.ConfigurationOutsideTheBoundsIsRefused := by
  intro s
  rw [step_refused_badConfiguration_iff, configOk_iff]

end Sys2Proof.Machine
end

section
/-! PROOFS. The invariant (10_state.md R27, R28; 20_memory.md R59; 60_exceptions.md R211): one lemma per
update of the state, then per command, per host access and per step. -/

namespace Sys2Proof.Machine

/-! ## The updates that keep the invariant -/

theorem codeBits_le (c : Code) : (codeBits c).toNat ≤ 6 := by cases c <;> decide

section
variable {s : State} (h : s.Inv)
include h

theorem State.Inv.setCmd (v : Word) : (s.setCmd v).Inv := { h with }
theorem State.Inv.setOpa (v : Word) : (s.setOpa v).Inv := { h with }
theorem State.Inv.setOpb (v : Word) : (s.setOpb v).Inv := { h with }
theorem State.Inv.setRes (v : Word) : (s.setRes v).Inv := { h with }
theorem State.Inv.setCrc (v : Half) : (s.setCrc v).Inv := { h with }
theorem State.Inv.setInputs (l : List Input) : (s.setInputs l).Inv := { h with }
theorem State.Inv.addReply (r : Reply) : (s.addReply r).Inv := { h with }

theorem State.Inv.setCode (c : Code) : (s.setCode c).Inv :=
  { h with codeLegal := codeBits_le c }

theorem State.Inv.setLoc {x y : Byte} (hxy : x.toNat + y.toNat ≤ 255) : (s.setLoc x y).Inv :=
  { h with locInside := hxy }

theorem State.Inv.putBuf {a : Nat} {bs : List Byte} (ha : a + bs.length ≤ s.cfg.bufSize) :
    (s.putBuf a bs).Inv :=
  { h with
    bufForm := Memory.wf_writeBytes .buf bs a h.bufForm
    bufInside := Memory.within_writeBytes .buf bs ha h.bufInside }

theorem State.Inv.putXbuf {a : Nat} {bs : List Byte} (ha : a + bs.length ≤ s.cfg.xbufSize) :
    (s.putXbuf a bs).Inv :=
  { h with
    xbufForm := Memory.wf_writeBytes .xbuf bs a h.xbufForm
    xbufInside := Memory.within_writeBytes .xbuf bs ha h.xbufInside }

/-- `BUF` may always be emptied. -/
theorem State.Inv.setBuf_nil : (s.setBuf []).Inv := { h with bufForm := rfl, bufInside := rfl }

/-- With a computed count the cursor may be set to 0 or to any index below the count. -/
theorem State.Inv.setCidx {v : Byte} (hvalid : s.cvalid = true)
    (hv : v.toNat = 0 ∨ v.toNat < s.fcount.toNat) : (s.setCidx v).Inv :=
  { h with cursorFresh := by simp [hvalid], cursorClamped := hv }

/-- The cursor may be forgotten: index 0, no count. -/
theorem State.Inv.forgetCursor : ((s.setCidx 0#8).setCount 0#9 false).Inv :=
  { h with countLegal := Nat.zero_le _, cursorFresh := fun _ => ⟨rfl, rfl⟩, cursorClamped := .inl rfl }

/-- A first count may be filled in: the fresh cursor stands at 0. -/
theorem State.Inv.fillCount {n : BitVec 9} (hfresh : s.cvalid = false) (hn : n.toNat ≤ 256) :
    (s.setCount n true).Inv :=
  { h with
    countLegal := hn
    cursorFresh := by simp
    cursorClamped := .inl (by rw [setCount_cidx, (h.cursorFresh hfresh).2]; rfl) }

end

/-! ## Reset and power-up -/

theorem State.Inv.atPowerUp {c : Config} (n : Nat) (hc : configOk c = true) : (State.atPowerUp c n).Inv where
  config := hc
  bufForm := rfl
  xbufForm := rfl
  bufInside := rfl
  xbufInside := rfl
  codeLegal := Nat.zero_le _
  countLegal := Nat.zero_le _
  cursorFresh _ := ⟨rfl, rfl⟩
  cursorClamped := .inl rfl
  locInside := Nat.zero_le _

/-- Settles O12: `State.reset` is the power-up of the default parameters. -/
theorem powerUpStateMeetsTheInvariant : Obligations.PowerUpStateMeetsTheInvariant :=
  ⟨.atPowerUp 0 (by decide), fun _ n hc => .atPowerUp n hc⟩

theorem State.Inv.resetKeepingCmd {s : State} (h : s.Inv) : s.resetKeepingCmd.Inv :=
  { State.Inv.atPowerUp s.powerUps h.config with xbufForm := h.xbufForm, xbufInside := h.xbufInside }

theorem State.Inv.resetByInput {s : State} (h : s.Inv) : s.resetByInput.Inv := h.resetKeepingCmd.setCmd _

theorem State.Inv.powerUpAgain {s : State} (h : s.Inv) : s.powerUpAgain.Inv :=
  { State.Inv.atPowerUp (s.powerUps + 1) h.config with }

/-! ## Commands -/

/-- An append that fits the payload stays inside `BUF`: header, payload and the `DSIZE` byte. -/
theorem State.Inv.appendState {s : State} (h : s.Inv) {bs : List Byte}
    (hfits : sizeAfter s bs ≤ payloadCap s.cfg) : (appendState s bs).Inv := by
  obtain ⟨hmin, hbuf, _⟩ := (configOk_iff s.cfg).1 h.config
  unfold sizeAfter payloadCap hdrLen trlLen at hfits
  have hfield : hdrLen + s.dsize + (separator s ++ bs).length ≤ s.cfg.bufSize := by
    rw [List.length_append, hdrLen]; omega
  exact (h.putBuf hfield).putBuf (by simp only [putBuf_cfg, dsizeOffset, List.length_singleton]; omega)

/-- Filling the count keeps the invariant, and a count is then computed. -/
theorem State.Inv.ensureCount {s u : State} (h : s.Inv) (hu : ensureCount s = some u) :
    u.Inv ∧ u.cvalid = true := by
  obtain ⟨hv, rfl⟩ | ⟨hv, _, rfl⟩ := ensureCount_cases hu
  · exact ⟨h, hv⟩
  · have hcount := countFields_le s.cfg.delim s.payload
    have hsize := s.dsize_lt
    rw [State.length_payload] at hcount
    refine ⟨h.fillCount hv ?_, rfl⟩
    rw [BitVec.toNat_ofNat]; omega

/-- `clamp` gives an index below a count that is not 0. -/
theorem clampIndex_lt {u : State} (hle : u.fcount.toNat ≤ 256) (h0 : u.fcount ≠ 0#9) (x : Int) :
    (clampIndex u x).toNat < u.fcount.toNat := by
  have hpos : u.fcount.toNat ≠ 0 := fun e => h0 (BitVec.eq_of_toNat_eq e)
  rw [clampIndex, BitVec.toNat_ofInt]
  omega

/-- Every outcome of a command keeps the invariant. -/
theorem Effect.keeps_inv {i : Instr} {s t : State} (e : Effect s i t) (h : s.Inv) : t.Inv := by
  cases e with
  | code c => exact h.setCode c
  | reset => exact h.resetKeepingCmd.setCode _
  | cleared => exact (h.setBuf_nil.forgetCursor.setLoc (by decide)).setCode _
  | fed _ c => exact (h.setCrc c).setCode _
  | summed c v => exact ((h.setCrc c).setRes v).setCode _
  | stored a bs c v _ hlen hin => exact (((h.putBuf (by omega)).setCrc c).setRes v).setCode _
  | matched c | mismatched c => exact ((h.setCrc c).setRes _).setCode _
  | appended _ bs _ hfits => exact (h.appendState hfits).setCode _
  | located ix st ln hin =>
    have hsize := s.dsize_lt
    exact (h.setLoc (by simp only [BitVec.toNat_ofNat]; omega)).setCode _
  | counted v | number _ _ v => exact (h.setRes v).setCode _
  | copied ix bs v hlen => exact ((h.putXbuf (by omega)).setRes v).setCode _
  | noField _ hu _ =>
    obtain ⟨hinv, hvalid⟩ := h.ensureCount hu
    exact (hinv.setCidx hvalid (.inl rfl)).setCode _
  | moved _ hu h0 x =>
    obtain ⟨hinv, hvalid⟩ := h.ensureCount hu
    exact ((hinv.setCidx hvalid (.inr (clampIndex_lt hinv.countLegal h0 x))).setRes _).setCode _

/-! ## What a host access and a step can do -/

/-- A command word's next state is its command's, or the failure of an illegal word. -/
theorem runCommand_next {w : Word} {s t : State} (h : runCommand w s = .next t) :
    (∃ i, decode w = .ok i ∧ exec i (s.setCmd w) = .next t) ∨ t = (s.setCmd w).setCode .illegal := by
  unfold runCommand at h
  split at h
  · exact .inl ⟨_, ‹_›, h⟩
  · exact .inr (fail_next h)

/-- The states a host access can leave from `s`. -/
inductive AccessEffect (s : State) : State → Prop
  /-- A read: only the reply. -/
  | replied (r : Reply) : AccessEffect s (s.addReply r)
  /-- A write to `CMD`. -/
  | ran (w : Word) {t : State} (h : runCommand w s = .next t) : AccessEffect s t
  /-- A write to `OPA`. -/
  | wroteOpa (v : Word) : AccessEffect s (s.setOpa v)
  /-- A write to `OPB`. -/
  | wroteOpb (v : Word) : AccessEffect s (s.setOpb v)
  /-- A write to a cell of `BUF`. -/
  | wroteBuf (i : Nat) (v : Byte) (h : i < s.cfg.bufSize) : AccessEffect s (s.putBuf i [v])
  /-- A write to a cell of `XBUF`. -/
  | wroteXbuf (i : Nat) (v : Byte) (h : i < s.cfg.xbufSize) : AccessEffect s (s.putXbuf i [v])

/-- The cell an offset names lies inside its buffer. -/
theorem targetAt_inside {c : Config} {offset i : Nat} :
    (targetAt c offset = some (.bufCell i) → i < c.bufSize) ∧
    (targetAt c offset = some (.xbufCell i) → i < c.xbufSize) := by
  unfold targetAt
  split
  · simp
  · split
    · simp only [Option.some.injEq, Target.bufCell.injEq, reduceCtorEq, false_implies, and_true]; omega
    · split
      · simp only [Option.some.injEq, Target.xbufCell.injEq, reduceCtorEq, false_implies, true_and]; omega
      · simp

theorem writeRegister_effect {r : Reg} {v : Word} {s t : State} (h : writeRegister r v s = .next t) :
    AccessEffect s t := by
  cases r with
  | cmd => exact .ran v h
  | opa => cases h; exact .wroteOpa v
  | opb => cases h; exact .wroteOpb v
  | res | status | crc | loc | cursor | cfg0 | cfg1 | cfg2 => cases h

/-- The inversion of `performAccess`. -/
theorem performAccess_effect {a : Access} {s t : State} (h : performAccess a s = .next t) :
    AccessEffect s t := by
  cases a with
  | read offset width =>
    unfold performAccess at h
    dsimp only at h
    split at h
    · cases h
    all_goals
      split at h
      · cases h; exact .replied _
      · cases h
  | write offset width value =>
    unfold performAccess at h
    dsimp only at h
    split at h
    · cases h
    · split at h
      · exact writeRegister_effect h
      · cases h
    · rename_i htarget
      split at h
      · cases h; exact .wroteBuf _ _ (targetAt_inside.1 htarget)
      · cases h
    · rename_i htarget
      split at h
      · cases h; exact .wroteXbuf _ _ (targetAt_inside.2 htarget)
      · cases h

/-- A step that answers had nothing to do, or performed the first input that waited. -/
theorem step_next {s t : State} (h : step s = .next t) :
    t = s ∨ ∃ x rest, s.inputs = x :: rest ∧ performInput x (s.setInputs rest) = .next t := by
  unfold step performNext at h
  split at h
  · split at h
    · cases h; exact .inl rfl
    · exact .inr ⟨_, _, ‹_›, h⟩
  · cases h

/-! ## Every step keeps the invariant -/

theorem runCommand_keeps_inv {w : Word} {s t : State} (h : s.Inv) (hrun : runCommand w s = .next t) :
    t.Inv := by
  obtain ⟨i, _, hexec⟩ | rfl := runCommand_next hrun
  · exact (exec_effect hexec).keeps_inv (h.setCmd w)
  · exact (h.setCmd w).setCode _

theorem AccessEffect.keeps_inv {s t : State} (e : AccessEffect s t) (h : s.Inv) : t.Inv := by
  cases e with
  | replied r => exact h.addReply r
  | ran w hrun => exact runCommand_keeps_inv h hrun
  | wroteOpa v => exact h.setOpa v
  | wroteOpb v => exact h.setOpb v
  | wroteBuf i v hi => exact h.putBuf hi
  | wroteXbuf i v hi => exact h.putXbuf hi

theorem performInput_keeps_inv {x : Input} {s t : State} (h : s.Inv) (hx : performInput x s = .next t) :
    t.Inv := by
  cases x with
  | access a => exact (performAccess_effect hx).keeps_inv h
  | resetInput => cases hx; exact h.resetByInput
  | powerUp => cases hx; exact h.powerUpAgain

/-- Settles O13: a step performs at most one input, and every input keeps the invariant. -/
theorem everyStepKeepsTheInvariant : Obligations.EveryStepKeepsTheInvariant := by
  intro s t h hstep
  obtain rfl | ⟨x, rest, _, hx⟩ := step_next hstep
  · exact h
  · exact performInput_keeps_inv (h.setInputs rest) hx

end Sys2Proof.Machine
end

section
/-! PROOFS. A step on a legal command word is `exec` of a well-formed command (10_state.md R21,
20_memory.md R60). -/

namespace Sys2Proof

theorem indexOf_wellFormed (c : BitVec 1) (idx : Byte) : (indexOf c idx).wellFormed = true := by
  unfold indexOf
  split
  · rfl
  · exact decide_eq_true (Nat.le_of_lt_succ idx.isLt)

/-- A Z-form command has no index that could be too large. -/
theorem zForm_wellFormed {op : Byte} {i : Instr} (h : zForm op = some i) : i.wellFormed = true := by
  unfold zForm at h
  split at h <;> cases h <;> rfl

/-- An I-form command is well formed as soon as its index is. -/
theorem iForm_wellFormed {op : Byte} {ix : Index} {i : Instr} (hix : ix.wellFormed = true)
    (h : iForm op ix = some i) : i.wellFormed = true := by
  unfold iForm at h
  split at h <;> cases h <;> exact hix

/-- A word that decodes has a Z-form row, or an I-form row with the index its fields give. -/
theorem decode_ok {w : Word} {i : Instr} (h : decode w = .ok i) :
    zForm (fieldOp w) = some i ∨ iForm (fieldOp w) (indexOf (fieldC w) (fieldIdx w)) = some i := by
  unfold decode at h
  split at h
  · split at h
    · split at h
      · cases h; exact .inl ‹_›
      · cases h
    · cases h
  · split at h
    · split at h
      · cases h; exact .inr ‹_›
      · cases h
    · cases h

theorem decode_wellFormed {w : Word} {i : Instr} (h : decode w = .ok i) : i.wellFormed = true := by
  obtain hz | hi := decode_ok h
  · exact zForm_wellFormed hz
  · exact iForm_wellFormed (indexOf_wellFormed _ _) hi

namespace Machine

/-- A step inside the bounds performs the first input that waits. -/
theorem step_of_input {s : State} {x : Input} {rest : List Input} (hok : configOk s.cfg = true)
    (hx : s.inputs = x :: rest) : step s = performInput x (s.setInputs rest) := by
  rw [step, performNext, if_pos hok, hx]

/-- A 32-bit host write at offset 0 runs its value as a command word. -/
theorem performAccess_write_cmd (w : Word) (s : State) :
    performAccess (.write 0x000 32 w) s = runCommand w s := rfl

theorem runCommand_of_decode {w : Word} {i : Instr} (h : decode w = .ok i) (s : State) :
    runCommand w s = exec i (s.setCmd w) := by
  rw [runCommand, h]

/-- Settles O6: the step is `runCommand` of the word, and that is `exec`. -/
theorem stepRunsTheDecodedCommand : Obligations.StepRunsTheDecodedCommand := by
  intro s w i rest hok hinputs hdecode
  refine ⟨decode_wellFormed hdecode, ?_⟩
  calc step s = performAccess (.write 0x000 32 w) (s.setInputs rest) := step_of_input hok hinputs
    _ = runCommand w (s.setInputs rest) := performAccess_write_cmd w _
    _ = exec i { s with cmd := w, inputs := rest } := runCommand_of_decode hdecode _

end Machine
end Sys2Proof
end

section
/-! PROOFS. Who writes what (10_state.md R21 to R33): for each part of the state, which outcomes of a command
leave it as it was. -/

namespace Sys2Proof.Machine

/-- Filling the count changes nothing but the count. -/
theorem ensureCount_eq_setCount {s u : State} (h : ensureCount s = some u) :
    u = s.setCount u.fcount true := by
  obtain ⟨hv, rfl⟩ | ⟨_, _, rfl⟩ := ensureCount_cases h
  · rw [State.setCount, ← hv]
  · rfl

/-! ## The registers of the host and of the outside -/

/-- `CMD`, the parameters and what belongs to the outside. -/
theorem Effect.keeps_outside {i : Instr} {s t : State} (e : Effect s i t) :
    t.cmd = s.cmd ∧ t.cfg = s.cfg ∧ t.powerUps = s.powerUps ∧ t.inputs = s.inputs ∧
      t.replies = s.replies := by
  cases e with
  | noField _ hu | moved _ hu => rw [ensureCount_eq_setCount hu]; simp
  | appended => simp [appendState]
  | _ => simp

theorem Effect.keeps_operands {i : Instr} {s t : State} (e : Effect s i t) (hi : i ≠ .sreset) :
    t.opa = s.opa ∧ t.opb = s.opb := by
  cases e with
  | reset => exact absurd rfl hi
  | noField _ hu | moved _ hu => rw [ensureCount_eq_setCount hu]; simp
  | appended => simp [appendState]
  | _ => simp

/-- Settles O47: one frame lemma for what no command writes, one for the operands. -/
theorem operandRegistersAreWrittenOnlyByReset : Obligations.OperandRegistersAreWrittenOnlyByReset := by
  intro i s
  obtain ⟨t, ht⟩ := exec_answers i s
  have e := exec_effect ht
  obtain ⟨hcmd, hcfg, hpower, hinputs, hreplies⟩ := e.keeps_outside
  refine ⟨t, ht, hcmd, hcfg, hpower, hinputs, hreplies, e.keeps_operands, fun hreset => ?_⟩
  subst hreset
  cases ht
  exact ⟨rfl, rfl⟩

/-! ## The result registers -/

/-- The numeric readers and `RD_BYTES`, on the field `ix` names. -/
def readerCommands (ix : Index) : List Instr :=
  [.rdU8 ix, .rdU16 ix, .rdI16 ix, .rdU32 ix, .rdI32 ix, .rdBytes ix]

theorem Effect.keeps_res {i : Instr} {s t : State} (e : Effect s i t)
    (hi : i ∉ [Instr.msgCsum, .msgSetcsum, .msgVerify, .fieldCount, .sreset]) (hcursor : i ∉ cursorCommands)
    (hreader : ∀ ix, i ∉ readerCommands ix) : t.res = s.res := by
  cases e with
  | reset | summed | stored | matched | mismatched | counted => simp at hi
  | number ix hmem => exact absurd (List.mem_append_left [Instr.rdBytes ix] hmem) (hreader ix)
  | copied ix => exact absurd (by simp [readerCommands]) (hreader ix)
  | noField hmem | moved hmem => exact absurd hmem hcursor
  | appended => simp [appendState]
  | _ => simp

/-- Of the failures, `MSG_VERIFY` at `AUTH` alone writes `RES`. -/
theorem Effect.keeps_res_of_failure {i : Instr} {s t : State} (e : Effect s i t) (hcode : t.code ≠ 0#4) :
    t.res = s.res ∨ (i = .msgVerify ∧ t.code = 5#4 ∧ t.res = 0#32) := by
  cases e with
  | code => exact .inl rfl
  | mismatched => exact .inr ⟨rfl, rfl, rfl⟩
  | noField _ hu => rw [ensureCount_eq_setCount hu]; exact .inl rfl
  | _ => exact absurd rfl hcode

theorem Effect.keeps_crc {i : Instr} {s t : State} (e : Effect s i t) (hi : i ∉ engineCommands)
    (hreset : i ≠ .sreset) : t.crc = s.crc := by
  cases e with
  | reset => exact absurd rfl hreset
  | fed hmem => exact absurd hmem hi
  | summed | stored | matched | mismatched => simp [engineCommands] at hi
  | noField _ hu | moved _ hu => rw [ensureCount_eq_setCount hu]; simp
  | appended => simp [appendState]
  | _ => simp

theorem Effect.keeps_loc {i : Instr} {s t : State} (e : Effect s i t) (hlocate : ∀ ix, i ≠ .locate ix)
    (hclear : i ≠ .clear) (hreset : i ≠ .sreset) : t.lstart = s.lstart ∧ t.llen = s.llen := by
  cases e with
  | reset => exact absurd rfl hreset
  | cleared => exact absurd rfl hclear
  | located ix => exact absurd rfl (hlocate ix)
  | noField _ hu | moved _ hu => rw [ensureCount_eq_setCount hu]; simp
  | appended => simp [appendState]
  | _ => simp

/-- Settles O48: one frame lemma for each register. -/
theorem resultRegistersHaveTheirWriters : Obligations.ResultRegistersHaveTheirWriters := by
  intro i s
  obtain ⟨t, ht⟩ := exec_answers i s
  have e := exec_effect ht
  exact ⟨t, ht, e.keeps_res, e.keeps_res_of_failure, e.keeps_crc, e.keeps_loc⟩

/-! ## The buffers -/

theorem Effect.keeps_buf {i : Instr} {s t : State} (e : Effect s i t) (happend : i ∉ appendCommands)
    (hi : i ∉ [Instr.msgSetcsum, .clear, .sreset]) : t.buf = s.buf := by
  cases e with
  | reset | cleared | stored => simp at hi
  | appended hmem => exact absurd hmem happend
  | noField _ hu | moved _ hu => rw [ensureCount_eq_setCount hu]; simp
  | _ => simp

theorem Effect.keeps_xbuf {i : Instr} {s t : State} (e : Effect s i t) (hi : ∀ ix, i ≠ .rdBytes ix) :
    t.xbuf = s.xbuf := by
  cases e with
  | copied ix => exact absurd rfl (hi ix)
  | noField _ hu | moved _ hu => rw [ensureCount_eq_setCount hu]; simp
  | appended => simp [appendState]
  | _ => simp

/-- An append that fits the payload writes below `PAYLOAD_CAP + 6`, so inside `BUF` (00_scope.md R6). -/
theorem bufByte_appendState_outside {s : State} {bs : List Byte} (hok : configOk s.cfg = true)
    (hfits : sizeAfter s bs ≤ payloadCap s.cfg) {a : Nat} (ha : s.cfg.bufSize ≤ a) :
    (appendState s bs).bufByte a = s.bufByte a := by
  obtain ⟨hmin, hbuf, _⟩ := (configOk_iff s.cfg).1 hok
  unfold sizeAfter payloadCap at hfits
  rw [bufByte_appendState s bs (by unfold dsizeOffset; omega)]
  refine State.bufByte_putBuf_outside (.inr ?_)
  rw [List.length_append]
  unfold hdrLen trlLen at *
  omega

/-- Outside `BUF` a command changes no byte, unless it empties all of it. -/
theorem Effect.bufByte_outside_cases {i : Instr} {s t : State} (e : Effect s i t)
    (hok : configOk s.cfg = true) {a : Nat} (ha : s.cfg.bufSize ≤ a) :
    ((i = .clear ∨ i = .sreset) ∧ t.buf = []) ∨ t.bufByte a = s.bufByte a := by
  cases e with
  | reset => exact .inl ⟨.inr rfl, rfl⟩
  | cleared => exact .inl ⟨.inl rfl, rfl⟩
  | stored b bs c v _ hlen hin => exact .inr (State.bufByte_putBuf_outside (s := s) (.inr (by omega)))
  | appended _ bs _ hfits => exact .inr (bufByte_appendState_outside hok hfits ha)
  | noField _ hu | moved _ hu =>
    rw [ensureCount_eq_setCount hu]
    exact .inr (State.bufByte_congr (by simp) a)
  | _ => exact .inr (State.bufByte_congr (by simp) a)

/-- Where nothing is listed outside the buffer, every byte there reads as an unlisted one. -/
theorem Memory.lookup_of_within {size : Nat} {m : Memory} (h : Memory.within size m = true) {a : Nat}
    (ha : size ≤ a) : Memory.lookup m a = none := by
  induction m with
  | nil => rfl
  | cons c m ih =>
    simp only [Memory.within, List.all_cons, Bool.and_eq_true, decide_eq_true_eq] at h
    obtain ⟨hc, hm⟩ := h
    rw [Memory.lookup, if_neg (by omega)]
    exact ih hm

theorem State.bufByte_of_within {s : State} {size : Nat} (h : Memory.within size s.buf = true) {a : Nat}
    (ha : size ≤ a) : s.bufByte a = 0#8 := by
  rw [State.bufByte, Memory.lookup_of_within h ha]; rfl

/-- A byte of `XBUF` depends on the listed cells and on the power-up's draw. -/
theorem State.xbufByte_congr {s t : State} (hx : s.xbuf = t.xbuf) (hp : s.powerUps = t.powerUps) (a : Nat) :
    s.xbufByte a = t.xbufByte a := by
  rw [State.xbufByte, State.xbufByte, hx, hp]

theorem Effect.keeps_xbufByte_outside {i : Instr} {s t : State} (e : Effect s i t) {a : Nat}
    (ha : s.cfg.xbufSize ≤ a) : t.xbufByte a = s.xbufByte a := by
  cases e with
  | copied ix bs v hlen =>
    exact (State.xbufByte_putXbuf s 0 bs a).trans (dif_neg (by omega))
  | noField _ hu | moved _ hu =>
    rw [ensureCount_eq_setCount hu]
    exact State.xbufByte_congr (by simp) (by simp) a
  | appended => exact State.xbufByte_congr (by simp [appendState]) (by simp [appendState]) a
  | _ => exact State.xbufByte_congr (by simp) (by simp) a

/-- Settles O49: outside `BUF` a byte stays, or `BUF` is emptied and the byte was 0 already. -/
theorem buffersHaveTheirWriters : Obligations.BuffersHaveTheirWriters := by
  intro i s hok
  obtain ⟨t, ht⟩ := exec_answers i s
  have e := exec_effect ht
  refine ⟨t, ht, e.keeps_buf, e.keeps_xbuf, fun hclear hreset a ha => ?_, fun hwithin a ha => ?_,
    fun a ha => e.keeps_xbufByte_outside ha⟩
  · obtain ⟨hempties, _⟩ | hkept := e.bufByte_outside_cases hok ha
    · exact absurd hempties (not_or.2 ⟨hclear, hreset⟩)
    · exact hkept
  · obtain ⟨_, hempty⟩ | hkept := e.bufByte_outside_cases hok ha
    · rw [State.bufByte_nil hempty, State.bufByte_of_within hwithin ha]
    · exact hkept

/-! ## `DSIZE` -/

@[simp] theorem setCode_dsize (s : State) (c : Code) : (s.setCode c).dsize = s.dsize :=
  State.dsize_congr (setCode_buf s c)

/-- `DSIZE` after a command: kept, 0 in an emptied `BUF`, or what an append that fits leaves. -/
theorem Effect.dsize_cases {i : Instr} {s t : State} (e : Effect s i t) (hok : configOk s.cfg = true) :
    t.dsize = s.dsize ∨ t.dsize = 0 ∨ t.dsize ≤ payloadCap s.cfg := by
  cases e with
  | reset | cleared => exact .inr (.inl rfl)
  | stored a bs c v h6 =>
    have hkept := State.bufByte_putBuf_outside (s := s) (a := a) (bs := bs) (b := dsizeOffset)
      (.inl (Nat.lt_of_lt_of_le (by decide) h6))
    exact .inl (congrArg BitVec.toNat hkept)
  | appended _ bs _ hfits =>
    obtain ⟨_, _, hmax, _⟩ := (configOk_iff s.cfg).1 hok
    have hcap : payloadCap s.cfg < 256 := by unfold payloadCap hdrLen trlLen; omega
    rw [setCode_dsize, dsize_appendState (by omega)]
    exact .inr (.inr hfits)
  | noField _ hu | moved _ hu =>
    rw [ensureCount_eq_setCount hu]
    exact .inl (State.dsize_congr (by simp))
  | _ => exact .inl (State.dsize_congr (by simp))

/-- Settles O50: each value of `Effect.dsize_cases` is within the cap. -/
theorem commandsKeepDsizeWithinTheCap : Obligations.CommandsKeepDsizeWithinTheCap := by
  intro i s t hok hs ht
  obtain h | h | h := (exec_effect ht).dsize_cases hok
  · exact h.trans_le hs
  · exact h.trans_le (Nat.zero_le _)
  · exact h

end Sys2Proof.Machine
end

section
/-! PROOFS. Noninterference (10_state.md R33, R37, R41): a simulation relation between two states that differ
only in what a unit does not read. Each shared operation, and so each command of the unit, keeps such a
relation. -/

namespace Sys2Proof.Machine

/-! ## Operations read the same where their fields agree -/

theorem State.bufRange_of_buf {s t : State} (h : t.buf = s.buf) (a n : Nat) : t.bufRange a n = s.bufRange a n :=
  State.bufRange_congr fun _ _ => State.bufByte_congr h _

theorem separator_congr {s t : State} (hbuf : t.buf = s.buf) (hcfg : t.cfg = s.cfg) :
    separator t = separator s := by
  rw [separator, State.dsize_congr hbuf, hcfg, separator]

theorem sizeAfter_congr {s t : State} (hbuf : t.buf = s.buf) (hcfg : t.cfg = s.cfg) (bs : List Byte) :
    sizeAfter t bs = sizeAfter s bs := by
  rw [sizeAfter, State.dsize_congr hbuf, separator_congr hbuf hcfg, sizeAfter]

theorem payloadInside_congr {s t : State} (hbuf : t.buf = s.buf) (hcfg : t.cfg = s.cfg) :
    payloadInside t = payloadInside s := by
  rw [payloadInside, State.dsize_congr hbuf, hcfg, payloadInside]

theorem findSegment_congr {s t : State} (hbuf : t.buf = s.buf) (hcfg : t.cfg = s.cfg) (k : Nat) :
    findSegment k t = findSegment k s := by
  rw [findSegment, payloadInside_congr hbuf hcfg, State.payload_congr hbuf, hcfg, findSegment]

theorem State.segment_congr {s t : State} (hbuf : t.buf = s.buf) (r : Nat × Nat) :
    t.segment r = s.segment r := State.bufRange_of_buf hbuf _ _

theorem readUint_congr {s t : State} (hbuf : t.buf = s.buf) (hcfg : t.cfg = s.cfg) (k w : Nat) :
    readUint k w t = readUint k w s := by
  simp only [readUint, findSegment_congr hbuf hcfg, State.segment_congr hbuf]

theorem indexValue_congr {s t : State} (h : t.cidx = s.cidx) (ix : Index) :
    indexValue t ix = indexValue s ix := by
  cases ix <;> simp only [indexValue, h]

theorem clampIndex_congr {s t : State} (h : t.fcount = s.fcount) (x : Int) :
    clampIndex t x = clampIndex s x := by
  rw [clampIndex, h, clampIndex]

theorem startOffset_congr {s t : State} (h : t.opa = s.opa) : startOffset t = startOffset s := by
  rw [startOffset, opaHalf, h, startOffset, opaHalf]

theorem byteCount_congr {s t : State} (h : t.opb = s.opb) : byteCount t = byteCount s := by
  rw [byteCount, opbHalf, h, byteCount, opbHalf]

theorem messageSize_congr {s t : State} (h : t.buf = s.buf) (a : Nat) : messageSize a t = messageSize a s := by
  rw [messageSize, State.bufByte_congr h, messageSize]

theorem messageChecksum_congr {s t : State} (h : t.buf = s.buf) (a : Nat) :
    messageChecksum a t = messageChecksum a s := by
  rw [messageChecksum, messageSize_congr h, State.bufRange_of_buf h, messageChecksum]

theorem messageInside_congr {s t : State} (hbuf : t.buf = s.buf) (hcfg : t.cfg = s.cfg) (a extra : Nat) :
    messageInside a extra t = messageInside a extra s := by
  rw [messageInside, messageSize_congr hbuf, hcfg, messageInside]

/-! ## The simulation relations -/

/-- Both outcomes are next states, and `R` relates them. -/
def Matched (R : State → State → Prop) (o o' : Host.Outcome State Fault Refusal) : Prop :=
  ∃ t t', o = .next t ∧ o' = .next t' ∧ R t t'

/-- `R` relates states alike in what both units read, and the updates both units make keep it. -/
structure SharedView (R : State → State → Prop) : Prop where
  opa {s t : State} : R s t → t.opa = s.opa
  opb {s t : State} : R s t → t.opb = s.opb
  buf {s t : State} : R s t → t.buf = s.buf
  cfg {s t : State} : R s t → t.cfg = s.cfg
  setCode {s t : State} (c : Code) : R s t → R (s.setCode c) (t.setCode c)
  setRes {s t : State} (v : Word) : R s t → R (s.setRes v) (t.setRes v)
  setBuf {s t : State} (m : Memory) : R s t → R (s.setBuf m) (t.setBuf m)

/-- `R` relates states alike in what the codec reads, `XBUF` aside, and the codec's updates keep it. -/
structure CodecView (R : State → State → Prop) : Prop extends SharedView R where
  cidx {s t : State} : R s t → t.cidx = s.cidx
  fcount {s t : State} : R s t → t.fcount = s.fcount
  cvalid {s t : State} : R s t → t.cvalid = s.cvalid
  setCidx {s t : State} (v : Byte) : R s t → R (s.setCidx v) (t.setCidx v)
  setCount {s t : State} (n : BitVec 9) (b : Bool) : R s t → R (s.setCount n b) (t.setCount n b)
  setLoc {s t : State} (x y : Byte) : R s t → R (s.setLoc x y) (t.setLoc x y)
  putXbuf {s t : State} (a : Nat) (bs : List Byte) : R s t → R (s.putXbuf a bs) (t.putXbuf a bs)

/-- `R` relates states alike in what the engine reads, and the engine's updates keep it. -/
structure EngineView (R : State → State → Prop) : Prop extends SharedView R where
  crc {s t : State} : R s t → t.crc = s.crc
  setCrc {s t : State} (v : Half) : R s t → R (s.setCrc v) (t.setCrc v)

/-- The second state has `CRC` at `c`. -/
def CrcReplaced (c : Half) (s t : State) : Prop := t = { s with crc := c }

/-- The second state has the codec's registers and `XBUF` at given values. -/
def CodecReplaced (st ln cx : Byte) (n : BitVec 9) (v : Bool) (m : Memory) (s t : State) : Prop :=
  t = { s with lstart := st, llen := ln, cidx := cx, fcount := n, cvalid := v, xbuf := m }

/-- The second state has any `XBUF` and another power-up's draw. -/
def StagingReplaced (p : Nat) (s t : State) : Prop := t = { s with xbuf := t.xbuf, powerUps := p }

theorem crcReplaced_codecView (c : Half) : CodecView (CrcReplaced c) where
  opa h := by rw [h]
  opb h := by rw [h]
  buf h := by rw [h]
  cfg h := by rw [h]
  setCode c h := congrArg (State.setCode · c) h
  setRes v h := congrArg (State.setRes · v) h
  setBuf m h := congrArg (State.setBuf · m) h
  cidx h := by rw [h]
  fcount h := by rw [h]
  cvalid h := by rw [h]
  setCidx v h := congrArg (State.setCidx · v) h
  setCount n b h := congrArg (State.setCount · n b) h
  setLoc x y h := congrArg (State.setLoc · x y) h
  putXbuf a bs h := congrArg (State.putXbuf · a bs) h

theorem codecReplaced_engineView (st ln cx : Byte) (n : BitVec 9) (v : Bool) (m : Memory) :
    EngineView (CodecReplaced st ln cx n v m) where
  opa h := by rw [h]
  opb h := by rw [h]
  buf h := by rw [h]
  cfg h := by rw [h]
  setCode c h := congrArg (State.setCode · c) h
  setRes w h := congrArg (State.setRes · w) h
  setBuf m' h := congrArg (State.setBuf · m') h
  crc h := by rw [h]
  setCrc w h := congrArg (State.setCrc · w) h

theorem stagingReplaced_codecView (p : Nat) : CodecView (StagingReplaced p) where
  opa h := by rw [h]
  opb h := by rw [h]
  buf h := by rw [h]
  cfg h := by rw [h]
  setCode c h := congrArg (State.setCode · c) h
  setRes v h := congrArg (State.setRes · v) h
  setBuf m h := congrArg (State.setBuf · m) h
  cidx h := by rw [h]
  fcount h := by rw [h]
  cvalid h := by rw [h]
  setCidx v h := congrArg (State.setCidx · v) h
  setCount n b h := congrArg (State.setCount · n b) h
  setLoc x y h := congrArg (State.setLoc · x y) h
  putXbuf a bs h := congrArg (State.putXbuf · a bs) h

theorem stagingReplaced_engineView (p : Nat) : EngineView (StagingReplaced p) where
  toSharedView := (stagingReplaced_codecView p).toSharedView
  crc h := by rw [h]
  setCrc v h := congrArg (State.setCrc · v) h

/-! ## Commands of both units end alike -/

section
variable {R : State → State → Prop} {s t : State}

theorem SharedView.fail (hR : SharedView R) (h : R s t) (c : Code) : Matched R (fail c s) (fail c t) :=
  ⟨_, _, rfl, rfl, hR.setCode c h⟩

theorem SharedView.finish (hR : SharedView R) (h : R s t) (c : Code) : Matched R (finish c s) (finish c t) :=
  ⟨_, _, rfl, rfl, hR.setCode c h⟩

theorem SharedView.putBuf (hR : SharedView R) (h : R s t) (a : Nat) (bs : List Byte) :
    R (s.putBuf a bs) (t.putBuf a bs) := by
  rw [State.putBuf, State.putBuf, hR.buf h]
  exact hR.setBuf _ h

/-! ## The codec -/

theorem CodecView.appendBytes (hR : CodecView R) (h : R s t) (bs : List Byte) :
    Matched R (appendBytes bs s) (appendBytes bs t) := by
  have hbuf := hR.buf h
  have hcfg := hR.cfg h
  simp only [Machine.appendBytes, hcfg, sizeAfter_congr hbuf hcfg, separator_congr hbuf hcfg,
    State.dsize_congr hbuf]
  split
  · exact hR.fail h .oversize
  · exact hR.finish (hR.putBuf (hR.putBuf h _ _) _ _) .ok

theorem CodecView.appFloat (hR : CodecView R) (h : R s t) : Matched R (execAppFloat s) (execAppFloat t) := by
  simp only [execAppFloat, hR.opa h]
  split
  · exact hR.fail h .range
  · split
    · exact hR.fail h .range
    · exact hR.appendBytes h _

/-- `APP_STR` needs more: the bytes `XBUF[0..L)` alike. -/
theorem CodecView.appStr (hR : CodecView R) (h : R s t)
    (hx : ∀ j, j < byteCount s → t.xbufByte j = s.xbufByte j) :
    Matched R (execAppStr s) (execAppStr t) := by
  have hbytes : t.xbufRange 0 (byteCount s) = s.xbufRange 0 (byteCount s) :=
    List.map_congr_left fun j hj => by rw [Nat.zero_add]; exact hx j (List.mem_range.1 hj)
  simp only [execAppStr, hR.cfg h, byteCount_congr (hR.opb h), hbytes]
  split
  · exact hR.fail h .range
  · exact hR.appendBytes h _

theorem CodecView.readNumber (hR : CodecView R) (h : R s t) (k w : Nat) (f : Nat → Word) :
    Matched R (readNumber k w f s) (readNumber k w f t) := by
  simp only [Machine.readNumber, readUint_congr (hR.buf h) (hR.cfg h)]
  split
  · exact hR.fail h _
  · exact hR.finish (hR.setRes _ h) .ok

theorem CodecView.execReader (hR : CodecView R) (h : R s t) (ix : Index) (w : Nat) (f : Nat → Word) :
    Matched R (Machine.readNumber (indexValue s ix) w f s) (Machine.readNumber (indexValue t ix) w f t) := by
  rw [indexValue_congr (hR.cidx h)]
  exact hR.readNumber h _ w f

theorem CodecView.locate (hR : CodecView R) (h : R s t) (ix : Index) :
    Matched R (execLocate ix s) (execLocate ix t) := by
  simp only [execLocate, indexValue_congr (hR.cidx h), findSegment_congr (hR.buf h) (hR.cfg h)]
  split
  · exact hR.fail h _
  · exact hR.finish (hR.setLoc _ _ h) .ok

theorem CodecView.rdBytes (hR : CodecView R) (h : R s t) (ix : Index) :
    Matched R (execRdBytes ix s) (execRdBytes ix t) := by
  simp only [execRdBytes, indexValue_congr (hR.cidx h), findSegment_congr (hR.buf h) (hR.cfg h), hR.cfg h,
    State.segment_congr (hR.buf h)]
  split
  · exact hR.fail h _
  · split
    · exact hR.fail h .range
    · exact hR.finish (hR.setRes _ (hR.putXbuf _ _ h)) .ok

theorem CodecView.fieldCount (hR : CodecView R) (h : R s t) :
    Matched R (execFieldCount s) (execFieldCount t) := by
  simp only [execFieldCount, payloadInside_congr (hR.buf h) (hR.cfg h), hR.cfg h,
    State.payload_congr (hR.buf h)]
  split
  · exact hR.finish (hR.setRes _ h) .ok
  · exact hR.fail h .range

theorem CodecView.ensureCount (hR : CodecView R) (h : R s t) :
    (ensureCount s = none ∧ ensureCount t = none) ∨
      ∃ u v, ensureCount s = some u ∧ ensureCount t = some v ∧ R u v := by
  simp only [Machine.ensureCount, hR.cvalid h, payloadInside_congr (hR.buf h) (hR.cfg h), hR.cfg h,
    State.payload_congr (hR.buf h)]
  split
  · exact .inr ⟨s, t, rfl, rfl, h⟩
  · split
    · exact .inr ⟨_, _, rfl, rfl, hR.setCount _ _ h⟩
    · exact .inl ⟨rfl, rfl⟩

/-- A cursor command, where its target is read off the cursor. -/
theorem CodecView.moveCursor (hR : CodecView R) (h : R s t) {target : State → Int}
    (htarget : ∀ u v, R u v → target v = target u) :
    Matched R (moveCursor target s) (moveCursor target t) := by
  unfold Machine.moveCursor
  obtain ⟨hs, ht⟩ | ⟨u, v, hs, ht, huv⟩ := hR.ensureCount h
  · rw [hs, ht]
    exact hR.fail h .range
  · rw [hs, ht]
    simp only [hR.fcount huv, htarget u v huv, clampIndex_congr (hR.fcount huv)]
    split
    · exact hR.finish (hR.setCidx _ huv) .notFound
    · exact hR.finish (hR.setRes _ (hR.setCidx _ huv)) .ok

/-- Every command outside the engine keeps the relation; `APP_STR` where it reads the same bytes. -/
theorem CodecView.exec (hR : CodecView R) (h : R s t) {i : Instr} (hi : i ∉ engineCommands)
    (hreset : i ≠ .sreset) (hx : i = .appStr → ∀ j, j < byteCount s → t.xbufByte j = s.xbufByte j) :
    Matched R (exec i s) (exec i t) := by
  cases i with
  | nop => exact hR.finish h .ok
  | sreset => exact absurd rfl hreset
  | crcSeed | crcInitN | crcInitI | crcByteN | crcByteI | crcRangeN | crcRangeI | msgCsum | msgSetcsum
  | msgVerify => exact absurd (by decide) hi
  | clear => exact hR.finish (hR.setLoc _ _ (hR.setCount _ _ (hR.setCidx _ (hR.setBuf _ h)))) .ok
  | appU8 | appU16 | appI16 | appU32 | appI32 | appBool =>
    simp only [Machine.exec, execAppU8, execAppU16, execAppI16, execAppU32, execAppI32, execAppBool, valueU8,
      valueU16, valueI16, valueU32, valueI32, valueBool, opaByte, opaHalf, hR.opa h]
    exact hR.appendBytes h _
  | appFloat => exact hR.appFloat h
  | appStr => exact hR.appStr h (hx rfl)
  | locate ix => exact hR.locate h ix
  | fieldCount => exact hR.fieldCount h
  | rdU8 ix | rdU16 ix | rdI16 ix | rdU32 ix | rdI32 ix => exact hR.execReader h ix _ _
  | rdBytes ix => exact hR.rdBytes h ix
  | curFirst => exact hR.moveCursor h fun _ _ _ => rfl
  | curLast => exact hR.moveCursor h fun _ _ huv => by rw [hR.fcount huv]
  | curNext | curPrev => exact hR.moveCursor h fun _ _ huv => by rw [hR.cidx huv]

/-! ## The engine -/

theorem EngineView.feedRange (hR : EngineView R) (h : R s t) (f : Half → List Byte → Half) :
    Matched R (feedRange f s) (feedRange f t) := by
  simp only [Machine.feedRange, hR.cfg h, hR.crc h, startOffset_congr (hR.opa h), byteCount_congr (hR.opb h),
    State.bufRange_of_buf (hR.buf h)]
  split
  · exact hR.fail h .range
  · exact hR.finish (hR.setCrc _ h) .ok

theorem EngineView.msgCsum (hR : EngineView R) (h : R s t) : Matched R (execMsgCsum s) (execMsgCsum t) := by
  simp only [execMsgCsum, startOffset_congr (hR.opa h), messageInside_congr (hR.buf h) (hR.cfg h),
    messageChecksum_congr (hR.buf h)]
  split
  · exact hR.finish (hR.setRes _ (hR.setCrc _ h)) .ok
  · exact hR.fail h .range

theorem EngineView.msgSetcsum (hR : EngineView R) (h : R s t) :
    Matched R (execMsgSetcsum s) (execMsgSetcsum t) := by
  simp only [execMsgSetcsum, startOffset_congr (hR.opa h), messageInside_congr (hR.buf h) (hR.cfg h),
    messageChecksum_congr (hR.buf h), messageSize_congr (hR.buf h)]
  split
  · exact hR.finish (hR.setRes _ (hR.setCrc _ (hR.putBuf h _ _))) .ok
  · exact hR.fail h .range

theorem EngineView.msgVerify (hR : EngineView R) (h : R s t) :
    Matched R (execMsgVerify s) (execMsgVerify t) := by
  simp only [execMsgVerify, startOffset_congr (hR.opa h), messageInside_congr (hR.buf h) (hR.cfg h),
    messageChecksum_congr (hR.buf h), messageSize_congr (hR.buf h), State.bufRange_of_buf (hR.buf h)]
  split
  · split
    · exact hR.finish (hR.setRes _ (hR.setCrc _ h)) .ok
    · exact hR.finish (hR.setRes _ (hR.setCrc _ h)) .auth
  · exact hR.fail h .range

/-- Every engine command keeps the relation. -/
theorem EngineView.exec (hR : EngineView R) (h : R s t) {i : Instr} (hi : i ∈ engineCommands) :
    Matched R (exec i s) (exec i t) := by
  cases i with
  | crcSeed | crcInitN | crcInitI | crcByteN | crcByteI =>
    simp only [Machine.exec, execCrcSeed, execCrcInitN, execCrcInitI, execCrcByteN, execCrcByteI, opaByte,
      opaHalf, hR.opa h, hR.crc h]
    exact hR.finish (hR.setCrc _ h) .ok
  | crcRangeN | crcRangeI => exact hR.feedRange h _
  | msgCsum => exact hR.msgCsum h
  | msgSetcsum => exact hR.msgSetcsum h
  | msgVerify => exact hR.msgVerify h
  | _ => simp [engineCommands] at hi

end

/-! ## The two units (R37) -/

/-- Settles O51: the codec's commands do not see `CRC` replaced, nor the engine's the codec's state. -/
theorem engineAndCodecAreSeparate : Obligations.EngineAndCodecAreSeparate := by
  refine ⟨fun i s c hi hreset => ?_, fun i s st ln cx n v m hi => ?_⟩
  · obtain ⟨t, t', ht, ht', rfl⟩ := (crcReplaced_codecView c).exec
      (s := s) (t := { s with crc := c }) rfl hi hreset fun _ _ _ => rfl
    exact ⟨t, ht, (exec_effect ht).keeps_crc hi hreset, ht'⟩
  · obtain ⟨t, t', ht, ht', rfl⟩ := (codecReplaced_engineView st ln cx n v m).exec
      (s := s) (t := { s with lstart := st, llen := ln, cidx := cx, fcount := n, cvalid := v, xbuf := m })
      rfl hi
    exact ⟨t, ht, ht'⟩

/-! ## The staging buffer (R33, R41) -/

/-- No command sees `XBUF` replaced, but for the bytes that `APP_STR` reads. -/
theorem exec_matched_of_stagingReplaced {p : Nat} {s t : State} (h : StagingReplaced p s t) (i : Instr)
    (hx : i = .appStr → ∀ j, j < byteCount s → t.xbufByte j = s.xbufByte j) :
    Matched (StagingReplaced p) (exec i s) (exec i t) := by
  by_cases hreset : i = .sreset
  · subst hreset
    exact ⟨_, _, rfl, rfl, congrArg (fun u : State => u.resetKeepingCmd.setCode .ok) h⟩
  · by_cases hi : i ∈ engineCommands
    · exact (stagingReplaced_engineView p).exec h hi
    · exact (stagingReplaced_codecView p).exec h hi hreset hx

/-- Settles O52: where `XBUF` differs only outside what `APP_STR` reads, it also stays as it was. -/
theorem onlyTheStringAppendReadsTheStagingBuffer : Obligations.OnlyTheStringAppendReadsTheStagingBuffer := by
  refine ⟨fun i s m p hi => ?_, fun s m p hx => ?_⟩
  · exact exec_matched_of_stagingReplaced (t := { s with xbuf := m, powerUps := p }) rfl i
      fun happ => absurd happ hi
  · obtain ⟨t, t', ht, ht', hrel⟩ := exec_matched_of_stagingReplaced (s := s)
      (t := { s with xbuf := m, powerUps := p }) rfl .appStr fun _ => hx
    have hkept : t'.xbuf = m := (exec_effect ht').keeps_xbuf (by simp)
    rw [StagingReplaced, hkept] at hrel
    exact ⟨t, ht, hrel ▸ ht'⟩

end Sys2Proof.Machine
end

section
/-! PROOFS. The host interface (20_memory.md R55 to R58): what an offset of the map names, what an access to
it answers, and which accesses R57 excludes. -/

namespace Sys2Proof.Machine

/-! ## The address map (R56) -/

/-- The registers stand at the word-aligned offsets up to 0x028. -/
theorem exists_registerAt_iff (offset : Nat) :
    (∃ r, registerAt offset = some r) ↔ offset ≤ 0x028 ∧ offset % 4 = 0 := by
  constructor
  · rintro ⟨r, h⟩
    unfold registerAt at h
    split at h <;> simp at h ⊢
  · rintro ⟨hle, halign⟩
    obtain ⟨k, rfl⟩ : ∃ k, offset = 4 * k := ⟨offset / 4, by omega⟩
    have hk : k ≤ 10 := by omega
    interval_cases k <;> exact ⟨_, rfl⟩

/-- The registers end before the buffers begin. -/
theorem offset_le_of_registerAt {offset : Nat} {r : Reg} (h : registerAt offset = some r) :
    offset ≤ 0x028 := ((exists_registerAt_iff offset).1 ⟨r, h⟩).1

/-- The registers that a host may write (R56). -/
def Reg.writable (r : Reg) : Prop := r ∈ [Reg.cmd, .opa, .opb]

/-- The writable registers stand at the first three offsets. -/
theorem exists_registerAt_writable_iff (offset : Nat) :
    (∃ r, registerAt offset = some r ∧ r.writable) ↔ offset ∈ [0x000, 0x004, 0x008] := by
  constructor
  · rintro ⟨r, h, hr⟩
    unfold registerAt at h
    split at h <;> cases h <;> simp [Reg.writable] at hr ⊢
  · intro h
    simp only [List.mem_cons, List.not_mem_nil, or_false] at h
    obtain rfl | rfl | rfl := h
    · exact ⟨.cmd, rfl, by simp [Reg.writable]⟩
    · exact ⟨.opa, rfl, by simp [Reg.writable]⟩
    · exact ⟨.opb, rfl, by simp [Reg.writable]⟩

theorem targetAt_eq_register_iff {c : Config} {offset : Nat} {r : Reg} :
    targetAt c offset = some (.register r) ↔ registerAt offset = some r := by
  unfold targetAt
  cases h : registerAt offset with
  | some r' => simp
  | none => dsimp only; split_ifs <;> simp

theorem targetAt_eq_bufCell_iff {c : Config} {offset i : Nat} :
    targetAt c offset = some (.bufCell i) ↔ offset = 0x1000 + i ∧ i < c.bufSize := by
  unfold targetAt
  split
  · have hle := offset_le_of_registerAt ‹_›
    simp only [Option.some.injEq, reduceCtorEq, false_iff]
    omega
  · split_ifs <;> simp only [Option.some.injEq, Target.bufCell.injEq, reduceCtorEq, false_iff] <;> omega

/-- `BUF` ends before `XBUF` begins, as its size is at most 4096 (00_scope.md R6). -/
theorem targetAt_eq_xbufCell_iff {c : Config} (hok : configOk c = true) {offset i : Nat} :
    targetAt c offset = some (.xbufCell i) ↔ offset = 0x2000 + i ∧ i < c.xbufSize := by
  obtain ⟨_, _, _, hbuf, _, _⟩ := (configOk_iff c).1 hok
  unfold targetAt
  split
  · have hle := offset_le_of_registerAt ‹_›
    simp only [Option.some.injEq, reduceCtorEq, false_iff]
    omega
  · split_ifs <;> simp only [Option.some.injEq, Target.xbufCell.injEq, reduceCtorEq, false_iff] <;> omega

/-! ## What an access to a target does (R55, R58) -/

/-- The width R55 gives a target. -/
def Target.width : Target → Nat
  | .register _ => 32
  | .bufCell _ | .xbufCell _ => 8

/-- What a host read of a target is answered with. -/
def Target.value (s : State) : Target → Reply
  | .register r => .word (registerWord s r)
  | .bufCell i => .byte (s.bufByte i)
  | .xbufCell i => .byte (s.xbufByte i)

/-- What a host write of `v` to a target does. -/
def Target.put (v : Word) (s : State) : Target → Host.Outcome State Fault Refusal
  | .register r => writeRegister r v s
  | .bufCell i => .next (s.putBuf i [v.extractLsb' 0 8])
  | .xbufCell i => .next (s.putXbuf i [v.extractLsb' 0 8])

/-- The targets that a host may write: all but the read-only registers. -/
def Target.writable : Target → Prop
  | .register r => r.writable
  | .bufCell _ | .xbufCell _ => True

theorem performAccess_read {s : State} {offset : Nat} {t : Target} (h : targetAt s.cfg offset = some t)
    (width : Nat) :
    performAccess (.read offset width) s =
      if width = t.width then .next (s.addReply (t.value s)) else .refused .widthOrAlignment := by
  rw [performAccess, h]
  cases t <;> rfl

theorem performAccess_write {s : State} {offset : Nat} {t : Target} (h : targetAt s.cfg offset = some t)
    (width : Nat) (v : Word) :
    performAccess (.write offset width v) s =
      if width = t.width then t.put v s else .refused .widthOrAlignment := by
  rw [performAccess, h]
  cases t <;> rfl

theorem performAccess_read_unmapped {s : State} {offset : Nat} (h : targetAt s.cfg offset = none)
    (width : Nat) : performAccess (.read offset width) s = .refused (noTarget offset) := by
  rw [performAccess, h]

theorem performAccess_write_unmapped {s : State} {offset : Nat} (h : targetAt s.cfg offset = none)
    (width : Nat) (v : Word) : performAccess (.write offset width v) s = .refused (noTarget offset) := by
  rw [performAccess, h]

/-! ## Which accesses are refused (R57) -/

theorem writeRegister_refused_iff (r : Reg) (v : Word) (s : State) :
    (∃ x, writeRegister r v s = .refused x) ↔ ¬ r.writable := by
  cases r with
  | cmd =>
    obtain ⟨t, e⟩ := runCommand_answers v s
    simp [writeRegister, e, Reg.writable]
  | opa | opb => simp [writeRegister, Reg.writable]
  | res | status | crc | loc | cursor | cfg0 | cfg1 | cfg2 => simp [writeRegister, Reg.writable]

theorem Target.put_refused_iff (t : Target) (v : Word) (s : State) :
    (∃ x, t.put v s = .refused x) ↔ ¬ t.writable := by
  cases t with
  | register r => exact writeRegister_refused_iff r v s
  | bufCell i | xbufCell i => simp [Target.put, Target.writable]

/-- A read is refused unless its offset names something of its width. -/
theorem performAccess_read_refused_iff (offset width : Nat) (s : State) :
    (∃ x, performAccess (.read offset width) s = .refused x) ↔
      ¬ ∃ t, targetAt s.cfg offset = some t ∧ width = t.width := by
  cases h : targetAt s.cfg offset with
  | none => simp [performAccess_read_unmapped h]
  | some t =>
    rw [performAccess_read h]
    by_cases hw : width = t.width <;> simp [hw]

/-- A write is refused unless its offset names something writable of its width. -/
theorem performAccess_write_refused_iff (offset width : Nat) (v : Word) (s : State) :
    (∃ x, performAccess (.write offset width v) s = .refused x) ↔
      ¬ ∃ t, targetAt s.cfg offset = some t ∧ width = t.width ∧ t.writable := by
  cases h : targetAt s.cfg offset with
  | none => simp [performAccess_write_unmapped h]
  | some t =>
    rw [performAccess_write h]
    by_cases hw : width = t.width
    · simp [hw, Target.put_refused_iff]
    · simp [hw]

/-! ## R57 in terms of offsets -/

/-- The offset lies in one of the two buffers, and the width is a byte's. -/
def InCell (c : Config) (offset width : Nat) : Prop :=
  width = 8 ∧ ((0x1000 ≤ offset ∧ offset < 0x1000 + c.bufSize) ∨
    (0x2000 ≤ offset ∧ offset < 0x2000 + c.xbufSize))

theorem Target.exists_iff {P : Target → Prop} :
    (∃ t, P t) ↔ (∃ r, P (.register r)) ∨ (∃ i, P (.bufCell i)) ∨ ∃ i, P (.xbufCell i) := by
  constructor
  · rintro ⟨r | i | i, h⟩
    · exact .inl ⟨r, h⟩
    · exact .inr (.inl ⟨i, h⟩)
    · exact .inr (.inr ⟨i, h⟩)
  · rintro (⟨r, h⟩ | ⟨i, h⟩ | ⟨i, h⟩) <;> exact ⟨_, h⟩

theorem exists_cellAt_iff {c : Config} (hok : configOk c = true) (offset width : Nat) :
    ((∃ i, targetAt c offset = some (.bufCell i) ∧ width = 8) ∨
      ∃ i, targetAt c offset = some (.xbufCell i) ∧ width = 8) ↔ InCell c offset width := by
  simp only [targetAt_eq_bufCell_iff, targetAt_eq_xbufCell_iff hok, InCell]
  constructor
  · rintro (⟨i, _, _⟩ | ⟨i, _, _⟩) <;> omega
  · rintro ⟨hw, h | h⟩
    · exact .inl ⟨offset - 0x1000, by omega⟩
    · exact .inr ⟨offset - 0x2000, by omega⟩

/-- The reads that R55 admits. -/
theorem exists_readTarget_iff {c : Config} (hok : configOk c = true) (offset width : Nat) :
    (∃ t, targetAt c offset = some t ∧ width = t.width) ↔
      (width = 32 ∧ offset ≤ 0x028 ∧ offset % 4 = 0) ∨ InCell c offset width := by
  rw [Target.exists_iff, ← exists_cellAt_iff hok, ← exists_registerAt_iff]
  simp only [Target.width, targetAt_eq_register_iff, and_comm, exists_and_left]

/-- The writes that R55 admits to what is not read-only. -/
theorem exists_writeTarget_iff {c : Config} (hok : configOk c = true) (offset width : Nat) :
    (∃ t, targetAt c offset = some t ∧ width = t.width ∧ t.writable) ↔
      (width = 32 ∧ offset ∈ [0x000, 0x004, 0x008]) ∨ InCell c offset width := by
  rw [Target.exists_iff, ← exists_cellAt_iff hok, ← exists_registerAt_writable_iff]
  simp only [Target.width, Target.writable, targetAt_eq_register_iff, and_true, and_left_comm,
    exists_and_left]

/-- Settles O9: an access is answered when its offset names a target of its width that it may use. -/
theorem accessesOutsideTheContractAreRefused : Obligations.AccessesOutsideTheContractAreRefused := by
  intro s rest offset width v hok
  refine ⟨fun hinputs => ?_, fun hinputs => ?_⟩ <;> rw [step_of_input hok hinputs]
  · exact (performAccess_read_refused_iff offset width _).trans
      (not_congr (exists_readTarget_iff hok offset width))
  · exact (performAccess_write_refused_iff offset width v _).trans
      (not_congr (exists_writeTarget_iff hok offset width))

/-! ## The registers as the host reads them (R56) -/

/-- A field placed above a value that leaves its bits free adds to the value. -/
theorem or_shiftLeft_eq_ofNat {x k : Nat} (hx : x < 2 ^ k) (y : Nat) :
    BitVec.ofNat 32 x ||| (BitVec.ofNat 32 y <<< k) = BitVec.ofNat 32 (x + 2 ^ k * y) := by
  refine BitVec.eq_of_getLsbD_eq fun i hi => ?_
  rw [Nat.add_comm, Nat.two_pow_add_eq_or_of_lt hx]
  have hik : i - k < 32 := by omega
  simp only [BitVec.getLsbD_or, BitVec.getLsbD_shiftLeft, BitVec.getLsbD_ofNat, Nat.testBit_or,
    Nat.testBit_two_pow_mul, hi, hik, decide_true, Bool.true_and, ge_iff_le, ← Nat.not_lt,
    decide_not]
  exact Bool.or_comm _ _

theorem setWidth_ofNat_half {n : Nat} (h : n < 2 ^ 16) :
    (BitVec.ofNat 16 n).setWidth 32 = BitVec.ofNat 32 n := by
  rw [← BitVec.ofNat_toNat, BitVec.toNat_ofNat, Nat.mod_eq_of_lt h]

theorem locWord_eq (s : State) :
    locWord s = BitVec.ofNat 32 (s.lstart.toNat + 2 ^ 8 * s.llen.toNat) := by
  rw [← or_shiftLeft_eq_ofNat s.lstart.isLt, BitVec.ofNat_toNat, BitVec.ofNat_toNat, locWord]

theorem cursorWord_eq (s : State) :
    cursorWord s =
      BitVec.ofNat 32 (s.cidx.toNat + 2 ^ 16 * s.fcount.toNat + 2 ^ 31 * s.cvalid.toNat) := by
  have hc : s.cidx.toNat < 2 ^ 8 := s.cidx.isLt
  have hf : s.fcount.toNat < 2 ^ 9 := s.fcount.isLt
  rw [← or_shiftLeft_eq_ofNat (k := 31) (by omega), ← or_shiftLeft_eq_ofNat (k := 16) (by omega),
    ← BitVec.toNat_ofBool, BitVec.ofNat_toNat, BitVec.ofNat_toNat, BitVec.ofNat_toNat, cursorWord]

theorem cfg1Word_eq {c : Config} (hok : configOk c = true) :
    cfg1Word c = BitVec.ofNat 32 (c.maxSize + 2 ^ 16 * c.bufSize) := by
  obtain ⟨_, _, hmax, hbuf, _, _⟩ := (configOk_iff c).1 hok
  rw [← or_shiftLeft_eq_ofNat (by omega), cfg1Word, setWidth_ofNat_half (by omega),
    setWidth_ofNat_half (by omega)]

theorem cfg2Word_eq {c : Config} (hok : configOk c = true) : cfg2Word c = BitVec.ofNat 32 c.xbufSize := by
  obtain ⟨_, _, _, _, _, hxbuf⟩ := (configOk_iff c).1 hok
  exact setWidth_ofNat_half (by omega)

/-! ## Reads and writes as steps -/

/-- What a read gives does not depend on the inputs that wait. -/
theorem Target.value_setInputs (t : Target) (s : State) (rest : List Input) :
    t.value (s.setInputs rest) = t.value s := by
  cases t with
  | register r => cases r <;> rfl
  | bufCell i | xbufCell i => rfl

/-- A read of a target, at the target's width, adds its value to the replies. -/
theorem step_read {s : State} {rest : List Input} {offset : Nat} (t : Target) (hok : configOk s.cfg = true)
    (ht : targetAt s.cfg offset = some t) (hinputs : s.inputs = .access (.read offset t.width) :: rest) :
    step s = .next { s with inputs := rest, replies := s.replies ++ [t.value s] } := by
  rw [step_of_input hok hinputs, performInput, performAccess_read (s := s.setInputs rest) ht, if_pos rfl,
    t.value_setInputs]
  rfl

/-- A write to a target, at the target's width, is `Target.put`. -/
theorem step_write {s : State} {rest : List Input} {offset : Nat} {v : Word} (t : Target)
    (hok : configOk s.cfg = true) (ht : targetAt s.cfg offset = some t)
    (hinputs : s.inputs = .access (.write offset t.width v) :: rest) :
    step s = t.put v (s.setInputs rest) := by
  rw [step_of_input hok hinputs, performInput, performAccess_write (s := s.setInputs rest) ht, if_pos rfl]

/-- Settles O7: the word of each register is the layout of R56, and a read adds only the reply. -/
theorem hostReadsGiveTheMappedValue : Obligations.HostReadsGiveTheMappedValue := by
  intro s rest hok
  refine ⟨fun offset v hmem hinputs => ?_, fun i hi hinputs => ?_, fun i hi hinputs => ?_⟩
  · obtain ⟨r, hr, rfl⟩ : ∃ r, registerAt offset = some r ∧ registerWord s r = v := by
      simp only [List.mem_cons, Prod.mk.injEq, List.not_mem_nil, or_false] at hmem
      obtain ⟨rfl, rfl⟩ | ⟨rfl, rfl⟩ | ⟨rfl, rfl⟩ | ⟨rfl, rfl⟩ | ⟨rfl, rfl⟩ | ⟨rfl, rfl⟩ | ⟨rfl, rfl⟩ |
        ⟨rfl, rfl⟩ | ⟨rfl, rfl⟩ | ⟨rfl, rfl⟩ | ⟨rfl, rfl⟩ := hmem
      · exact ⟨.cmd, rfl, rfl⟩
      · exact ⟨.opa, rfl, rfl⟩
      · exact ⟨.opb, rfl, rfl⟩
      · exact ⟨.res, rfl, rfl⟩
      · exact ⟨.status, rfl, (BitVec.ofNat_toNat 32 s.code).symm⟩
      · exact ⟨.crc, rfl, (BitVec.ofNat_toNat 32 s.crc).symm⟩
      · exact ⟨.loc, rfl, locWord_eq s⟩
      · exact ⟨.cursor, rfl, cursorWord_eq s⟩
      · exact ⟨.cfg0, rfl, (BitVec.ofNat_toNat 32 s.cfg.delim).symm⟩
      · exact ⟨.cfg1, rfl, cfg1Word_eq hok⟩
      · exact ⟨.cfg2, rfl, cfg2Word_eq hok⟩
    exact step_read (.register r) hok (targetAt_eq_register_iff.2 hr) hinputs
  · exact step_read (.bufCell i) hok (targetAt_eq_bufCell_iff.2 ⟨rfl, hi⟩) hinputs
  · exact step_read (.xbufCell i) hok ((targetAt_eq_xbufCell_iff hok).2 ⟨rfl, hi⟩) hinputs

/-- `BUF[a]` after a write of one byte. -/
theorem State.bufByte_putBuf_singleton (s : State) (i : Nat) (b : Byte) (a : Nat) :
    (s.putBuf i [b]).bufByte a = if a = i then b else s.bufByte a := by
  simp [State.bufByte_putBuf, show i ≤ a ∧ a ≤ i ↔ a = i by omega]

/-- `XBUF[a]` after a write of one byte. -/
theorem State.xbufByte_putXbuf_singleton (s : State) (i : Nat) (b : Byte) (a : Nat) :
    (s.putXbuf i [b]).xbufByte a = if a = i then b else s.xbufByte a := by
  simp [State.xbufByte_putXbuf, show i ≤ a ∧ a ≤ i ↔ a = i by omega]

/-- Settles O8: a step is the write of one register or of one byte, and `DSIZE` is read from `BUF[5]`. -/
theorem hostWritesChangeOnlyTheirCell : Obligations.HostWritesChangeOnlyTheirCell := by
  intro s rest v hok
  refine ⟨step_write (.register .opa) hok rfl, step_write (.register .opb) hok rfl,
    fun i hi hinputs => ?_, fun i hi hinputs => ?_⟩
  · have hbyte := (s.setInputs rest).bufByte_putBuf_singleton i (v.extractLsb' 0 8)
    refine ⟨_, step_write (.bufCell i) hok (targetAt_eq_bufCell_iff.2 ⟨rfl, hi⟩) hinputs, rfl, hbyte, ?_⟩
    rintro rfl
    exact congrArg BitVec.toNat ((hbyte 5).trans (if_pos rfl))
  · exact ⟨_, step_write (.xbufCell i) hok ((targetAt_eq_xbufCell_iff hok).2 ⟨rfl, hi⟩) hinputs, rfl,
      (s.setInputs rest).xbufByte_putXbuf_singleton i (v.extractLsb' 0 8)⟩

end Sys2Proof.Machine
end

section
/-! PROOFS. The encoding (30_encoding.md R71 to R76): the decoder read off the opcode table, then the round trip
in both directions, the illegal words and the index operand. -/

namespace Sys2Proof

/-! ## The rows of the opcode table (R75) -/

theorem zForm_eq_some_iff {op : Byte} {i : Instr} :
    zForm op = some i ↔ opcode i = op ∧ indexOperand i = none := by
  constructor
  · intro h
    unfold zForm at h
    split at h <;> rename_i hop <;> cases h <;> exact ⟨BitVec.eq_of_toNat_eq hop.symm, rfl⟩
  · rintro ⟨rfl, hnone⟩
    rw [zForm_opcode, if_pos hnone]

theorem iForm_eq_some_iff {op : Byte} {ix : Index} {i : Instr} :
    iForm op ix = some i ↔ opcode i = op ∧ indexOperand i = some ix := by
  constructor
  · intro h
    unfold iForm at h
    split at h <;> rename_i hop <;> cases h <;> exact ⟨BitVec.eq_of_toNat_eq hop.symm, rfl⟩
  · rintro ⟨rfl, hsome⟩
    exact iForm_opcode i hsome

/-! ## What decodes -/

theorem decode_of_zForm {w : Word} {j : Instr} (h : zForm (fieldOp w) = some j) (i : Instr) :
    decode w = .ok i ↔ j = i ∧ fieldRsv w = 0#15 ∧ fieldIdx w = 0#8 ∧ fieldC w = 0#1 := by
  simp only [decode, h]
  split_ifs with hrsv hzero
  · simp [hrsv, hzero]
  · simp [hzero]
  · simp [hrsv]

theorem decode_of_not_zForm {w : Word} (h : zForm (fieldOp w) = none) (i : Instr) :
    decode w = .ok i ↔
      iForm (fieldOp w) (indexOf (fieldC w) (fieldIdx w)) = some i ∧ fieldRsv w = 0#15 := by
  simp only [decode, h]
  split
  next j hj =>
    split_ifs with hrsv
    · simp [hj, hrsv]
    · simp [hrsv]
  next hj => simp [hj]

/-- The decoder as the inverse of the opcode table: `RSV` is 0, `OP` is the command's opcode, and `IDX` and `C`
are 0 for a Z-form command and give the index of an I-form command (R72, R73, R76). -/
theorem decode_eq_ok_iff {w : Word} {i : Instr} :
    decode w = .ok i ↔ fieldRsv w = 0#15 ∧ opcode i = fieldOp w ∧
      (indexOperand i = none ∧ fieldIdx w = 0#8 ∧ fieldC w = 0#1 ∨
        indexOperand i = some (indexOf (fieldC w) (fieldIdx w))) := by
  cases hz : zForm (fieldOp w) with
  | none =>
    have hrow : ¬ (opcode i = fieldOp w ∧ indexOperand i = none) := fun h => by
      simp [zForm_eq_some_iff.2 h] at hz
    rw [decode_of_not_zForm hz, iForm_eq_some_iff]
    tauto
  | some j =>
    have hrow : j = i ↔ opcode i = fieldOp w ∧ indexOperand i = none := by
      rw [← zForm_eq_some_iff, hz, Option.some_inj]
    have hno : ¬ (opcode i = fieldOp w ∧ indexOperand i = some (indexOf (fieldC w) (fieldIdx w))) := fun h => by
      have := zForm_iForm_disjoint (fieldOp w) (indexOf (fieldC w) (fieldIdx w))
      simp [hz, iForm_eq_some_iff.2 h] at this
    rw [decode_of_zForm hz, hrow]
    tauto

/-! ## Decoding an encoding (R72) -/

theorem wellFormed_of_indexOperand {i : Instr} {ix : Index} (h : indexOperand i = some ix) :
    i.wellFormed = ix.wellFormed := by
  cases i <;> cases h <;> rfl

theorem indexOf_one (idx : Byte) : indexOf 1#1 idx = .cursor := if_pos rfl

theorem indexOf_zero (idx : Byte) : indexOf 0#1 idx = .field idx.toNat := if_neg (by decide)

/-- Settles O1: the fields of the encoding are the ones the decoder asks for. -/
theorem decodeOfEncodeIsTheCommand : Obligations.DecodeOfEncodeIsTheCommand := by
  intro i hwf
  rw [decode_eq_ok_iff, encode]
  split
  next hz => simp [hz]
  next k hi =>
    rw [wellFormed_of_indexOperand hi] at hwf
    have hk : k ≤ 255 := of_decide_eq_true hwf
    have hfits : (BitVec.ofNat 8 k).toNat = k := Nat.mod_eq_of_lt (Nat.lt_succ_of_le hk)
    rw [fieldC_commandWord, fieldIdx_commandWord, indexOf_zero, hfits]
    simp [hi]
  next hi => simp [hi, indexOf_one]

/-! ## Encoding what was decoded (R72, R73) -/

theorem fieldC_eq_ofBool (w : Word) : fieldC w = BitVec.ofBool (w.getLsbD 16) := by
  apply BitVec.eq_of_getLsbD_eq
  intro j hj
  obtain rfl : j = 0 := by omega
  simp [fieldC]

/-- Masking a word with ones at a field's place leaves the field. -/
theorem extractLsb'_and_mask {m : Word} {k n : Nat} (hm : m.extractLsb' k n = BitVec.allOnes n) (w : Word) :
    (w &&& m).extractLsb' k n = w.extractLsb' k n := by
  rw [BitVec.extractLsb'_and, hm, BitVec.and_allOnes]

/-- The mask of the bits that stay under `C = 1` clears `IDX` and nothing else. -/
theorem and_mask_eq_commandWord (w : Word) :
    w &&& 0xFFFF00FF#32 = commandWord (fieldRsv w) (fieldC w) 0#8 (fieldOp w) := by
  have hrsv : fieldRsv (w &&& 0xFFFF00FF#32) = fieldRsv w := extractLsb'_and_mask rfl w
  have hc : fieldC (w &&& 0xFFFF00FF#32) = fieldC w := extractLsb'_and_mask rfl w
  have hop : fieldOp (w &&& 0xFFFF00FF#32) = fieldOp w := extractLsb'_and_mask rfl w
  have hmask : (0xFFFF00FF#32).extractLsb' 8 8 = 0#8 := rfl
  have hidx : fieldIdx (w &&& 0xFFFF00FF#32) = 0#8 := by
    rw [fieldIdx, BitVec.extractLsb'_and, hmask, BitVec.and_zero]
  rw [← commandWord_fields (w &&& 0xFFFF00FF#32), hrsv, hc, hidx, hop]

/-- Settles O2: a word is put together from its fields, and the command fixes all but `IDX` under `C = 1`. -/
theorem decodedWordIsTheEncoding : Obligations.DecodedWordIsTheEncoding := by
  intro w i h
  refine ⟨decode_wellFormed h, ?_⟩
  obtain ⟨hrsv, hop, hform⟩ := decode_eq_ok_iff.1 h
  have hc := fieldC_eq_ofBool w
  cases hbit : w.getLsbD 16 with
  | false =>
    replace hc : fieldC w = 0#1 := by rw [hc, hbit]; rfl
    have hw : commandWord 0#15 0#1 (fieldIdx w) (opcode i) = w := by
      rw [← hrsv, ← hc, hop, commandWord_fields]
    obtain ⟨hz, hidx, _⟩ | hi := hform
    · simpa [encode, hz, hidx] using hw
    · rw [hc, indexOf_zero] at hi
      simpa [encode, hi] using hw
  | true =>
    replace hc : fieldC w = 1#1 := by rw [hc, hbit]; rfl
    obtain ⟨_, _, hc0⟩ | hi := hform
    · exact absurd (hc.symm.trans hc0) (by decide)
    · rw [hc, indexOf_one] at hi
      rw [if_pos rfl, and_mask_eq_commandWord, hrsv, hc, ← hop, encode, hi]

/-! ## The illegal words (R76) -/

/-- The Z-form opcodes of R75. -/
def zFormOpcodes : List Byte :=
  [0x00#8, 0x01#8, 0x10#8, 0x11#8, 0x12#8, 0x13#8, 0x14#8, 0x15#8, 0x16#8, 0x18#8, 0x19#8, 0x1A#8, 0x20#8,
    0x21#8, 0x22#8, 0x23#8, 0x24#8, 0x25#8, 0x26#8, 0x27#8, 0x28#8, 0x31#8, 0x38#8, 0x39#8, 0x3A#8, 0x3B#8]

/-- The I-form opcodes of R75. -/
def iFormOpcodes : List Byte := [0x30#8, 0x32#8, 0x33#8, 0x34#8, 0x35#8, 0x36#8, 0x37#8]

theorem exists_zForm_iff (op : Byte) : (∃ i, zForm op = some i) ↔ op ∈ zFormOpcodes := by
  rw [← Option.isSome_iff_exists]
  revert op
  decide

theorem exists_iForm_iff (op : Byte) (ix : Index) : (∃ i, iForm op ix = some i) ↔ op ∈ iFormOpcodes := by
  constructor
  · rintro ⟨i, h⟩
    unfold iForm at h
    split at h <;> rename_i hop <;> cases h <;> simp [iFormOpcodes, BitVec.toNat_eq, hop]
  · intro h
    fin_cases h <;> exact ⟨_, rfl⟩

/-- R76 turned round: a word is legal when `RSV` is 0 and `OP` is assigned, with `IDX` and `C` 0 on a Z-form
opcode. -/
theorem exists_decode_iff (w : Word) :
    (∃ i, decode w = .ok i) ↔ fieldRsv w = 0#15 ∧
      (fieldOp w ∈ zFormOpcodes ∧ fieldIdx w = 0#8 ∧ fieldC w = 0#1 ∨ fieldOp w ∈ iFormOpcodes) := by
  rw [← exists_zForm_iff, ← exists_iForm_iff _ (indexOf (fieldC w) (fieldIdx w))]
  constructor
  · rintro ⟨i, h⟩
    obtain ⟨hrsv, hop, ⟨hz, hzero⟩ | hi⟩ := decode_eq_ok_iff.1 h
    · exact ⟨hrsv, .inl ⟨⟨i, zForm_eq_some_iff.2 ⟨hop, hz⟩⟩, hzero⟩⟩
    · exact ⟨hrsv, .inr ⟨i, iForm_eq_some_iff.2 ⟨hop, hi⟩⟩⟩
  · rintro ⟨hrsv, ⟨⟨i, h⟩, hzero⟩ | ⟨i, h⟩⟩
    · obtain ⟨hop, hz⟩ := zForm_eq_some_iff.1 h
      exact ⟨i, decode_eq_ok_iff.2 ⟨hrsv, hop, .inl ⟨hz, hzero⟩⟩⟩
    · obtain ⟨hop, hi⟩ := iForm_eq_some_iff.1 h
      exact ⟨i, decode_eq_ok_iff.2 ⟨hrsv, hop, .inr hi⟩⟩

/-- No opcode is of both forms. -/
theorem not_mem_iFormOpcodes_of_mem_zFormOpcodes {op : Byte} (h : op ∈ zFormOpcodes) : op ∉ iFormOpcodes := by
  fin_cases h <;> decide

namespace Machine

theorem runCommand_of_illegal {w : Word} (h : ∀ i, decode w ≠ .ok i) (s : State) :
    runCommand w s = fail .illegal (s.setCmd w) := by
  unfold runCommand
  split
  · exact absurd ‹_› (h _)
  · rfl

/-- Settles O3: R76 is the negation of what decodes, and an illegal word is `fail(ILLEGAL)`. -/
theorem illegalWordsAreThoseOfRuleSeventySix : Obligations.IllegalWordsAreThoseOfRuleSeventySix := by
  intro w op zForm iForm illegal
  have hiff : (∀ i, decode w ≠ .ok i) ↔ illegal := by
    have hdisjoint : zForm → ¬ iForm := not_mem_iFormOpcodes_of_mem_zFormOpcodes
    have hlegal : (∃ i, decode w = .ok i) ↔ w.extractLsb' 17 15 = 0#15 ∧
        (zForm ∧ w.extractLsb' 8 8 = 0#8 ∧ w.extractLsb' 16 1 = 0#1 ∨ iForm) := exists_decode_iff w
    rw [← not_exists, hlegal]
    unfold illegal
    tauto
  refine ⟨hiff, fun s rest hillegal hok hinputs => ?_⟩
  calc step s = performAccess (.write 0x000 32 w) (s.setInputs rest) := step_of_input hok hinputs
    _ = runCommand w (s.setInputs rest) := performAccess_write_cmd w _
    _ = .next { s with cmd := w, code := 6#4, inputs := rest } := runCommand_of_illegal (hiff.2 hillegal) _

end Machine

/-! ## The index operand (R73) -/

/-- The I-form commands with their opcodes (R75). -/
def iFormRows : List (Byte × (Index → Instr)) :=
  [(0x30#8, .locate), (0x32#8, .rdU8), (0x33#8, .rdU16), (0x34#8, .rdI16), (0x35#8, .rdU32), (0x36#8, .rdI32),
    (0x37#8, .rdBytes)]

theorem opcode_of_mem_iFormRows {op : Byte} {f : Index → Instr} (h : (op, f) ∈ iFormRows) (ix : Index) :
    opcode (f ix) = op ∧ indexOperand (f ix) = some ix := by
  simp only [iFormRows, List.mem_cons, Prod.mk.injEq, List.not_mem_nil, or_false] at h
  rcases h with ⟨rfl, rfl⟩ | ⟨rfl, rfl⟩ | ⟨rfl, rfl⟩ | ⟨rfl, rfl⟩ | ⟨rfl, rfl⟩ | ⟨rfl, rfl⟩ | ⟨rfl, rfl⟩ <;>
    exact ⟨rfl, rfl⟩

/-- A word with an I-form opcode and `RSV` 0 decodes to that command of the index its `C` and `IDX` give. -/
theorem decode_commandWord_iForm {op : Byte} {f : Index → Instr} (h : (op, f) ∈ iFormRows) (c : BitVec 1)
    (idx : Byte) : decode (commandWord 0#15 c idx op) = .ok (f (indexOf c idx)) := by
  obtain ⟨hop, hix⟩ := opcode_of_mem_iFormRows h (indexOf c idx)
  simp [decode_eq_ok_iff, hop, hix]

/-- With `C = 1` an I-form command does what it does with `CIDX` as its field number. -/
theorem Machine.exec_cursor_eq_exec_field {f : Index → Instr}
    (h : f ∈ [Instr.locate, .rdU8, .rdU16, .rdI16, .rdU32, .rdI32, .rdBytes]) (s : Machine.State) :
    Machine.exec (f .cursor) s = Machine.exec (f (.field s.cidx.toNat)) s := by
  simp only [List.mem_cons, List.not_mem_nil, or_false] at h
  rcases h with rfl | rfl | rfl | rfl | rfl | rfl | rfl <;> rfl

/-- Settles O5: the two words are put together from `C`, `IDX` and `OP`, and `C` picks the index. -/
theorem indexComesFromTheWordOrTheCursor : Obligations.IndexComesFromTheWordOrTheCursor := by
  refine ⟨fun op idx f h => ⟨?_, ?_⟩, fun f s h => Machine.exec_cursor_eq_exec_field h s⟩
  · have hword : op.setWidth 32 ||| (idx.setWidth 32 <<< 8) = commandWord 0#15 0#1 idx op := by
      simp [commandWord]
    rw [hword, decode_commandWord_iForm h, indexOf_zero]
  · have hword : op.setWidth 32 ||| (idx.setWidth 32 <<< 8) ||| 0x00010000#32 =
        commandWord 0#15 1#1 idx op := by
      simp [commandWord]
    rw [hword, decode_commandWord_iForm h, indexOf_one]

/-- Settles O4: the decoder evaluated on each word. -/
theorem tableWordsDecodeToTheirCommands : Obligations.TableWordsDecodeToTheirCommands :=
  ⟨rfl, rfl, rfl, rfl, rfl, rfl, rfl, rfl⟩

end Sys2Proof
end

section
/-! PROOFS. The operands (30_encoding.md R74): the simulation of the noninterference proofs once more, between
two states that differ only in `OPA` and `OPB`, so that what a command reads of them is a hypothesis. -/

namespace Sys2Proof.Machine

/-! ## What the masks say -/

/-- Words that agree under a mask agree in their low bits where the mask has ones. -/
theorem extract_eq_of_mask {m v w : Word} {n : Nat} (h : v &&& m = w &&& m)
    (hm : m.extractLsb' 0 n = BitVec.allOnes n) : v.extractLsb' 0 n = w.extractLsb' 0 n := by
  rw [← extractLsb'_and_mask hm v, h, extractLsb'_and_mask hm]

theorem eq_of_full_mask {v w : Word} (h : v &&& 0xFFFFFFFF#32 = w &&& 0xFFFFFFFF#32) : v = w := by
  have hones : (0xFFFFFFFF#32) = BitVec.allOnes 32 := rfl
  rwa [hones, BitVec.and_allOnes, BitVec.and_allOnes] at h

/-! ## The simulation relation -/

/-- The state with other operands. -/
def State.withOperands (s : State) (a b : Word) : State := { s with opa := a, opb := b }

/-- The second state has its operands at `a` and `b`. -/
def OperandsReplaced (a b : Word) (s t : State) : Prop := t = s.withOperands a b

section
variable {s : State} {a b : Word}

/-- What an outcome leaves may differ in the operands alone. -/
theorem matched_next (t : State) : Matched (OperandsReplaced a b) (.next t) (.next (t.withOperands a b)) :=
  ⟨t, _, rfl, rfl, rfl⟩

/-- Where both sides make the same check, it is enough that each branch matches. -/
theorem Matched.ite {R : State → State → Prop} {c : Prop} [Decidable c]
    {x y x' y' : Host.Outcome State Fault Refusal} (hx : Matched R x x') (hy : Matched R y y') :
    Matched R (if c then x else y) (if c then x' else y') := by
  split
  · exact hx
  · exact hy

/-! ## The engine, where the operands it reads agree -/

theorem feedRange_matched (f : Half → List Byte → Half)
    (hstart : startOffset (s.withOperands a b) = startOffset s)
    (hcount : byteCount (s.withOperands a b) = byteCount s) :
    Matched (OperandsReplaced a b) (feedRange f s) (feedRange f (s.withOperands a b)) := by
  simp only [feedRange, hstart, hcount]
  exact .ite (matched_next _) (matched_next _)

theorem msgCsum_matched (hstart : startOffset (s.withOperands a b) = startOffset s) :
    Matched (OperandsReplaced a b) (execMsgCsum s) (execMsgCsum (s.withOperands a b)) := by
  simp only [execMsgCsum, hstart]
  exact .ite (matched_next _) (matched_next _)

theorem msgSetcsum_matched (hstart : startOffset (s.withOperands a b) = startOffset s) :
    Matched (OperandsReplaced a b) (execMsgSetcsum s) (execMsgSetcsum (s.withOperands a b)) := by
  simp only [execMsgSetcsum, hstart]
  exact .ite (matched_next _) (matched_next _)

theorem msgVerify_matched (hstart : startOffset (s.withOperands a b) = startOffset s) :
    Matched (OperandsReplaced a b) (execMsgVerify s) (execMsgVerify (s.withOperands a b)) := by
  simp only [execMsgVerify, hstart]
  exact .ite (.ite (matched_next _) (matched_next _)) (matched_next _)

/-! ## The codec -/

theorem appendBytes_matched (bs : List Byte) :
    Matched (OperandsReplaced a b) (appendBytes bs s) (appendBytes bs (s.withOperands a b)) :=
  .ite (matched_next _) (matched_next _)

theorem appFloat_matched (hopa : a = s.opa) :
    Matched (OperandsReplaced a b) (execAppFloat s) (execAppFloat (s.withOperands a b)) := by
  have hread : (s.withOperands a b).opa = s.opa := hopa
  simp only [execAppFloat, hread]
  split
  · exact matched_next _
  · exact .ite (matched_next _) (appendBytes_matched _)

theorem appStr_matched (hcount : byteCount (s.withOperands a b) = byteCount s) :
    Matched (OperandsReplaced a b) (execAppStr s) (execAppStr (s.withOperands a b)) := by
  simp only [execAppStr, hcount]
  exact .ite (matched_next _) (appendBytes_matched _)

theorem readNumber_matched (k w : Nat) (f : Nat → Word) :
    Matched (OperandsReplaced a b) (readNumber k w f s) (readNumber k w f (s.withOperands a b)) := by
  simp only [readNumber, readUint_congr (s := s) (t := s.withOperands a b) rfl rfl]
  split <;> exact matched_next _

theorem locate_matched (ix : Index) :
    Matched (OperandsReplaced a b) (execLocate ix s) (execLocate ix (s.withOperands a b)) := by
  simp only [execLocate, indexValue_congr (s := s) (t := s.withOperands a b) rfl,
    findSegment_congr (s := s) (t := s.withOperands a b) rfl rfl]
  split <;> exact matched_next _

theorem rdBytes_matched (ix : Index) :
    Matched (OperandsReplaced a b) (execRdBytes ix s) (execRdBytes ix (s.withOperands a b)) := by
  simp only [execRdBytes, indexValue_congr (s := s) (t := s.withOperands a b) rfl,
    findSegment_congr (s := s) (t := s.withOperands a b) rfl rfl]
  split
  · exact matched_next _
  · exact .ite (matched_next _) (matched_next _)

theorem fieldCount_matched :
    Matched (OperandsReplaced a b) (execFieldCount s) (execFieldCount (s.withOperands a b)) :=
  .ite (matched_next _) (matched_next _)

theorem ensureCount_withOperands :
    ensureCount (s.withOperands a b) = (ensureCount s).map (State.withOperands · a b) := by
  rw [ensureCount, ensureCount, apply_ite (Option.map _), apply_ite (Option.map _)]
  rfl

theorem moveCursor_matched {target : State → Int}
    (htarget : ∀ u : State, target (u.withOperands a b) = target u) :
    Matched (OperandsReplaced a b) (moveCursor target s) (moveCursor target (s.withOperands a b)) := by
  rw [moveCursor, moveCursor, ensureCount_withOperands]
  cases ensureCount s with
  | none => exact matched_next _
  | some u =>
    simp only [Option.map_some, htarget]
    exact .ite (matched_next _) (matched_next _)

/-! ## Every command (R74) -/

/-- Every command but `SRESET` keeps the relation where the bits it names agree. -/
theorem exec_matched_of_operandMask {i : Instr} (hreset : i ≠ .sreset)
    (ha : a &&& (operandMask i).1 = s.opa &&& (operandMask i).1)
    (hb : b &&& (operandMask i).2 = s.opb &&& (operandMask i).2) :
    Matched (OperandsReplaced a b) (exec i s) (exec i (s.withOperands a b)) := by
  cases i with
  | sreset => exact absurd rfl hreset
  | nop | crcInitN | crcInitI | clear => exact matched_next _
  | crcSeed =>
    have hhalf : opaHalf (s.withOperands a b) = opaHalf s := extract_eq_of_mask ha rfl
    simp only [exec, execCrcSeed, hhalf]
    exact matched_next _
  | crcByteN | crcByteI =>
    have hbyte : opaByte (s.withOperands a b) = opaByte s := extract_eq_of_mask ha rfl
    simp only [exec, execCrcByteN, execCrcByteI, hbyte]
    exact matched_next _
  | crcRangeN | crcRangeI =>
    exact feedRange_matched _ (congrArg BitVec.toNat (extract_eq_of_mask ha rfl))
      (congrArg BitVec.toNat (extract_eq_of_mask hb rfl))
  | msgCsum => exact msgCsum_matched (congrArg BitVec.toNat (extract_eq_of_mask ha rfl))
  | msgSetcsum => exact msgSetcsum_matched (congrArg BitVec.toNat (extract_eq_of_mask ha rfl))
  | msgVerify => exact msgVerify_matched (congrArg BitVec.toNat (extract_eq_of_mask ha rfl))
  | appU8 =>
    have hbyte : opaByte (s.withOperands a b) = opaByte s := extract_eq_of_mask ha rfl
    simp only [exec, execAppU8, valueU8, hbyte]
    exact appendBytes_matched _
  | appU16 | appI16 =>
    have hhalf : opaHalf (s.withOperands a b) = opaHalf s := extract_eq_of_mask ha rfl
    simp only [exec, execAppU16, execAppI16, valueU16, valueI16, hhalf]
    exact appendBytes_matched _
  | appU32 | appI32 | appBool =>
    obtain rfl : a = s.opa := eq_of_full_mask ha
    exact appendBytes_matched _
  | appFloat => exact appFloat_matched (eq_of_full_mask ha)
  | appStr => exact appStr_matched (congrArg BitVec.toNat (extract_eq_of_mask hb rfl))
  | locate ix => exact locate_matched ix
  | fieldCount => exact fieldCount_matched
  | rdU8 ix | rdU16 ix | rdI16 ix | rdU32 ix | rdI32 ix => exact readNumber_matched (indexValue s ix) _ _
  | rdBytes ix => exact rdBytes_matched ix
  | curFirst | curLast | curNext | curPrev => exact moveCursor_matched fun _ => rfl

end

/-- Settles O53: the two runs end in states that differ only in the operands put in. -/
theorem unnamedOperandBitsAreIgnored : Obligations.UnnamedOperandBitsAreIgnored := by
  intro i s a b hreset ha hb
  obtain ⟨t, _, ht, ht', rfl⟩ := exec_matched_of_operandMask hreset ha hb
  exact ⟨t, ht, ht'⟩

end Sys2Proof.Machine
end

section
/-! PROOFS. The checksum functions (41_crc.md R100, R101): the normal shift as a shift register on 16 bits, the
inverse shift as its mirror image, and that lists which differ in one byte have different inverse checksums. -/

namespace Sys2Proof.Machine

/-! ## The normal shift (R100) -/

/-- The 17th bit of R100's intermediate is the top bit of the accumulator, and the mask drops it. -/
theorem crcNShift_eq (a : Half) :
    crcNShift a = if a.getLsbD 15 then (a <<< 1) ^^^ 0x1021#16 else a <<< 1 := by
  have hcarry : (a.setWidth 17 <<< 1).getLsbD 16 = a.getLsbD 15 := by simp
  have hmask : (a.setWidth 17 <<< 1).setWidth 16 = a <<< 1 := by
    apply BitVec.eq_of_getLsbD_eq
    intro j hj
    simp [hj]
  unfold crcNShift
  simp only [hcarry]
  split
  · rw [BitVec.setWidth_xor, hmask]; rfl
  · exact hmask

/-- Settles O19: every one of the eight shifts is the conditional XOR. -/
theorem normalByteIsTheSixteenBitShiftRegister : Obligations.NormalByteIsTheSixteenBitShiftRegister :=
  fun acc b => congrArg (fun shift : Half → Half => shift^[8] (acc ^^^ (b.setWidth 16 <<< 8)))
    (funext crcNShift_eq)

/-! ## The inverse shift is its mirror image (R101) -/

theorem reverse_xor {w : Nat} (x y : BitVec w) : (x ^^^ y).reverse = x.reverse ^^^ y.reverse :=
  BitVec.eq_of_getLsbD_eq fun j hj => by simp [BitVec.getLsbD_reverse]

theorem reverse_shiftLeft {w : Nat} (x : BitVec w) (k : Nat) : (x <<< k).reverse = x.reverse >>> k :=
  BitVec.eq_of_getLsbD_eq fun j hj => by simp [BitVec.getLsbD_reverse, Nat.add_comm]

/-- A byte reversed at the top of 16 bits is the byte itself at the bottom. -/
theorem reverse_byteAtTop (b : Byte) : (b.reverse.setWidth 16 <<< 8).reverse = b.setWidth 16 := by
  apply BitVec.eq_of_getLsbD_eq
  intro j hj
  rw [reverse_shiftLeft, BitVec.getLsbD_ushiftRight, BitVec.getLsbD_reverse, BitVec.getMsbD_setWidth,
    BitVec.getMsbD_reverse, BitVec.getLsbD_setWidth]
  simp [hj]

theorem reverse_crcNShift (a : Half) : (crcNShift a).reverse = crcIShift a.reverse := by
  have hout : a.reverse.getLsbD 0 = a.getLsbD 15 := by
    rw [BitVec.getLsbD_reverse, BitVec.getMsbD_eq_getLsbD]; rfl
  have hpoly : BitVec.reverse 0x1021#16 = 0x8408#16 := by decide
  rw [crcNShift_eq, crcIShift, hout, apply_ite BitVec.reverse, reverse_xor, reverse_shiftLeft, hpoly]

/-- Settles O20: reversal carries each of the eight normal shifts to the inverse one. -/
theorem inverseByteIsTheReversedNormalByte : Obligations.InverseByteIsTheReversedNormalByte := by
  refine ⟨by decide, fun acc b => ?_⟩
  have hmirror : Function.Semiconj BitVec.reverse crcNShift crcIShift := reverse_crcNShift
  calc crcIByte acc b
      = crcIShift^[8] (acc.reverse ^^^ (b.reverse.setWidth 16 <<< 8)).reverse := by
        rw [reverse_xor, reverse_byteAtTop, BitVec.reverse_reverse_eq, crcIByte]
    _ = (crcNByte acc.reverse b.reverse).reverse := (hmirror.iterate_right 8 _).symm

/-! ## One changed byte changes the checksum -/

theorem crcIByte_injective_left (b : Byte) : Function.Injective (crcIByte · b) :=
  fun _ _ h => (BitVec.xor_left_inj _).1 (crcIShift_injective.iterate 8 h)

theorem crcIByte_injective_right (a : Half) : Function.Injective (crcIByte a) := by
  intro b c h
  have hwide := (BitVec.xor_right_inj _).1 (crcIShift_injective.iterate 8 h)
  simpa using congrArg (BitVec.setWidth 8) hwide

theorem crcI_injective (bs : List Byte) : Function.Injective (crcI · bs) := by
  induction bs with
  | nil => exact fun _ _ h => h
  | cons b bs ih => exact fun _ _ h => crcIByte_injective_left b (ih h)

/-- Lists of one length that differ in one byte have different inverse checksums. -/
theorem crcI_set_ne {bs : List Byte} {v : Byte} :
    ∀ {a : Half} {i : Nat} (h : i < bs.length), v ≠ bs[i] → crcI a (bs.set i v) ≠ crcI a bs := by
  induction bs with
  | nil => intro a i h; cases h
  | cons b bs ih =>
    intro a i h hv
    cases i with
    | zero => exact fun heq => hv (crcIByte_injective_right a (crcI_injective bs heq))
    | succ i => exact ih (Nat.lt_of_succ_lt_succ h) hv

end Sys2Proof.Machine
end

section
/-! PROOFS. The seeds and the feeds (41_crc.md R102 to R109): what one feeding command leaves in the
accumulator, and that a run of them folds the bytes they fed. -/

namespace Sys2Proof.Machine

/-! ## One command (R102 to R108) -/

/-- Settles O16: each seed is one write of the accumulator. -/
theorem seedCommandsSetTheAccumulator : Obligations.SeedCommandsSetTheAccumulator :=
  ⟨rfl, rfl, rfl, fun _ => ⟨rfl, rfl, rfl⟩⟩

/-- Settles O17: each feed of a byte is one write of the accumulator. -/
theorem byteCommandsFeedOneByte : Obligations.ByteCommandsFeedOneByte :=
  ⟨rfl, rfl, fun _ => ⟨rfl, rfl⟩⟩

theorem feedRange_of_inside (f : Half → List Byte → Half) {s : State}
    (h : startOffset s + byteCount s ≤ s.cfg.bufSize) :
    feedRange f s = .next ((s.setCrc (f s.crc
      (List.ofFn fun j : Fin (byteCount s) => s.bufByte (startOffset s + j)))).setCode .ok) := by
  obtain ⟨hout, _⟩ | ⟨_, e⟩ := feedRange_cases f s
  · exact absurd h (Nat.not_le.2 hout)
  · rw [e, State.bufRange_eq_ofFn]

theorem feedRange_of_outside (f : Half → List Byte → Half) {s : State}
    (h : s.cfg.bufSize < startOffset s + byteCount s) : feedRange f s = .next (s.setCode .range) := by
  obtain ⟨_, e⟩ | ⟨hin, _⟩ := feedRange_cases f s
  · exact e
  · exact absurd hin (Nat.not_le.2 h)

/-- Settles O18: both commands are `feedRange`, which has one outcome on each side of the bound. -/
theorem rangeCommandsFeedTheRange : Obligations.RangeCommandsFeedTheRange :=
  ⟨rfl, rfl, fun _ =>
    ⟨fun hin => ⟨feedRange_of_inside crcN hin, feedRange_of_inside crcI hin⟩,
      fun hout => ⟨feedRange_of_outside crcN hout, feedRange_of_outside crcI hout⟩⟩⟩

/-! ## The threading law (R109) -/

theorem crcN_append (a : Half) (xs ys : List Byte) : crcN a (xs ++ ys) = crcN (crcN a xs) ys :=
  List.foldl_append

theorem crcI_append (a : Half) (xs ys : List Byte) : crcI a (xs ++ ys) = crcI (crcI a xs) ys :=
  List.foldl_append

/-- A range that was fed with code `OK` is in the accumulator whole. -/
theorem crc_of_feedRange {f : Half → List Byte → Half} {u v : State} (h : feedRange f u = .next v)
    (hok : v.code = 0#4) : v.crc = f u.crc (u.bufRange (startOffset u) (byteCount u)) := by
  obtain ⟨_, e⟩ | ⟨_, e⟩ := feedRange_cases f u <;> rw [e] at h <;> cases h
  · simp [codeBits] at hok
  · rfl

/-- A feeding command that ends with `OK` leaves its convention's checksum of the bytes it fed. -/
theorem crc_of_feed {i : Instr} (hi : i ∈ [Instr.crcByteN, .crcByteI, .crcRangeN, .crcRangeI]) {u v : State}
    (h : exec i u = .next v) (hok : v.code = 0#4) : v.crc = feedFunction i u.crc (fedBytes i u) := by
  cases i with
  | crcByteN | crcByteI => cases h; rfl
  | crcRangeN | crcRangeI => exact crc_of_feedRange h hok
  | _ => simp at hi

/-- A run of feeds composes their checksum functions, whatever the conventions. -/
theorem FeedRun.eq_foldl {es : List (Instr × State)} :
    ∀ {a b : Half}, FeedRun a es b → b = es.foldl (fun c e => feedFunction e.1 c (fedBytes e.1 e.2)) a := by
  induction es with
  | nil => intro a b h; exact h
  | cons e es ih =>
    rintro a b ⟨hi, rfl, v, hexec, hok, hrun⟩
    rw [List.foldl_cons, ← crc_of_feed hi hexec hok]
    exact ih hrun

/-- Where every entry folds the same byte function, the run folds it over all the bytes fed. -/
theorem foldl_feedFunction_of_convention {byteFunction : Half → Byte → Half} {es : List (Instr × State)}
    (h : ∀ e ∈ es, ∀ c bs, feedFunction e.1 c bs = bs.foldl byteFunction c) (a : Half) :
    es.foldl (fun c e => feedFunction e.1 c (fedBytes e.1 e.2)) a =
      (es.flatMap fun e => fedBytes e.1 e.2).foldl byteFunction a := by
  rw [List.foldl_flatMap]
  exact List.foldl_ext _ _ _ fun c e he => h e he c _

/-- Settles O21: a run composes its feeds, and feeds of one convention compose into the CRC of the whole. -/
theorem feedingInPiecesIsFeedingTheWhole : Obligations.FeedingInPiecesIsFeedingTheWhole := by
  refine ⟨fun a xs ys => ⟨crcN_append a xs ys, crcI_append a xs ys⟩, fun a b es hrun => ?_⟩
  have hfold := hrun.eq_foldl
  refine ⟨fun hN => ?_, fun hI => ?_, hfold⟩
  · refine hfold.trans (foldl_feedFunction_of_convention (fun e he c bs => ?_) a)
    obtain h | h := hN e he <;> rw [h] <;> rfl
  · refine hfold.trans (foldl_feedFunction_of_convention (fun e he c bs => ?_) a)
    obtain h | h := hI e he <;> rw [h] <;> rfl

end Sys2Proof.Machine
end

section
/-! PROOFS. The message commands (41_crc.md R110 to R113): the checksum and the trailer of a message byte by byte,
and why `MSG_VERIFY` sees every single-bit error: a changed byte changes the checksum or the trailer, not both. -/

namespace Sys2Proof.Machine

/-! ## The message, byte by byte -/

theorem messageChecksum_eq_ofFn (a : Nat) (s : State) :
    messageChecksum a s =
      crcI 0xFFFF#16 (List.ofFn fun j : Fin (6 + messageSize a s) => s.bufByte (a + j)) :=
  congrArg (crcI 0xFFFF#16) (State.bufRange_eq_ofFn s a _)

theorem checksumBytes_injective : Function.Injective checksumBytes := by
  intro c d h
  obtain ⟨hhigh, hlow⟩ : c.extractLsb' 8 8 = d.extractLsb' 8 8 ∧ c.extractLsb' 0 8 = d.extractLsb' 0 8 := by
    simpa [checksumBytes] using h
  have happend : ∀ x : Half, x.extractLsb' 8 8 ++ x.extractLsb' 0 8 = x := fun _ =>
    (BitVec.extractLsb'_append_extractLsb'_eq_extractLsb' rfl).trans BitVec.extractLsb'_eq_self
  rw [← happend c, ← happend d, hhigh, hlow]

/-- The two bytes of a checksum, written and read back. -/
theorem bufByte_putBuf_checksumBytes (s : State) (a : Nat) (c : Half) (x : Nat) :
    (s.putBuf a (checksumBytes c)).bufByte x =
      if x = a then c.extractLsb' 8 8 else if x = a + 1 then c.extractLsb' 0 8 else s.bufByte x := by
  by_cases hhigh : x = a
  · subst hhigh; rw [if_pos rfl]; exact State.bufByte_putBuf_inside (j := 0) (by simp [checksumBytes])
  · rw [if_neg hhigh]
    by_cases hlow : x = a + 1
    · subst hlow; rw [if_pos rfl]; exact State.bufByte_putBuf_inside (j := 1) (by simp [checksumBytes])
    · rw [if_neg hlow]
      exact State.bufByte_putBuf_outside (by simp only [checksumBytes, List.length_cons, List.length_nil]; omega)

theorem trailer_eq_checksumBytes_iff (a : Nat) (s : State) (c : Half) :
    trailer a s = checksumBytes c ↔
      s.bufByte (a + 6 + messageSize a s) = c.extractLsb' 8 8 ∧
      s.bufByte (a + 7 + messageSize a s) = c.extractLsb' 0 8 := by
  have hlow : a + 6 + messageSize a s + 1 = a + 7 + messageSize a s := by omega
  simp [trailer, State.bufRange, checksumBytes, hdrLen, trlLen, List.range_succ, hlow]

theorem messageInside_trailer_iff (a : Nat) (s : State) :
    messageInside a trlLen s = true ↔ a + 8 + messageSize a s ≤ s.cfg.bufSize := by
  rw [messageInside_iff, hdrLen, trlLen]; omega

/-! ## The states the commands leave, field by field -/

theorem setRes_setCrc_setCode (s : State) (c : Half) (v : Word) (k : Code) :
    ((s.setCrc c).setRes v).setCode k = { s with crc := c, res := v, code := codeBits k } := rfl

theorem putBuf_setCrc_setRes_setCode (s : State) (a : Nat) (bs : List Byte) (c : Half) (v : Word) (k : Code) :
    (((s.putBuf a bs).setCrc c).setRes v).setCode k =
      { s with buf := (s.putBuf a bs).buf, crc := c, res := v, code := codeBits k } := rfl

/-! ## The three commands (R110 to R112) -/

/-- Settles O22: the two outcomes of `MSG_CSUM`, with the checksum's bytes written out. -/
theorem messageChecksumCoversHeaderAndPayload : Obligations.MessageChecksumCoversHeaderAndPayload := by
  refine ⟨rfl, fun s => ?_⟩
  intro a n c
  have hc : messageChecksum (startOffset s) s = c := messageChecksum_eq_ofFn a s
  have hbound : messageInside (startOffset s) 0 s = true ↔ a + 6 + n ≤ s.cfg.bufSize := messageInside_iff a 0 s
  obtain ⟨hout, e⟩ | ⟨hin, e⟩ := execMsgCsum_cases s
  · have hlt := mt hbound.2 (Bool.eq_false_iff.1 hout)
    exact ⟨fun h => absurd h hlt, fun _ => e⟩
  · rw [hc, setRes_setCrc_setCode] at e
    exact ⟨fun _ => e, fun h => absurd (hbound.1 hin) (Nat.not_le.2 h)⟩

/-- Settles O23: the two outcomes of `MSG_SETCSUM`, with the checksum's bytes and the written ones spelled out. -/
theorem setChecksumStoresTheTrailer : Obligations.SetChecksumStoresTheTrailer := by
  refine ⟨rfl, fun s => ?_⟩
  intro a n c
  have hc : messageChecksum (startOffset s) s = c := messageChecksum_eq_ofFn a s
  have hbound : messageInside (startOffset s) trlLen s = true ↔ a + 8 + n ≤ s.cfg.bufSize :=
    messageInside_trailer_iff a s
  obtain ⟨hout, e⟩ | ⟨hin, e⟩ := execMsgSetcsum_cases s
  · have hlt := mt hbound.2 (Bool.eq_false_iff.1 hout)
    exact ⟨fun h => absurd h hlt, fun _ => e⟩
  · rw [hc, putBuf_setCrc_setRes_setCode] at e
    refine ⟨fun _ => ⟨_, e, rfl, fun x => ?_⟩, fun h => absurd (hbound.1 hin) (Nat.not_le.2 h)⟩
    have hlow : a + 7 + n = a + 6 + n + 1 := by omega
    rw [hlow]
    exact bufByte_putBuf_checksumBytes s (a + 6 + n) c x

/-- Settles O24: the three outcomes of `MSG_VERIFY`, with the trailer's two bytes compared one by one. -/
theorem verifyComparesTheTrailer : Obligations.VerifyComparesTheTrailer := by
  refine ⟨rfl, fun s => ?_⟩
  intro a n c
  have hc : messageChecksum (startOffset s) s = c := messageChecksum_eq_ofFn a s
  have hbound : messageInside (startOffset s) trlLen s = true ↔ a + 8 + n ≤ s.cfg.bufSize :=
    messageInside_trailer_iff a s
  have htrailer : trailer (startOffset s) s = checksumBytes c ↔
      s.bufByte (a + 6 + n) = c.extractLsb' 8 8 ∧ s.bufByte (a + 7 + n) = c.extractLsb' 0 8 :=
    trailer_eq_checksumBytes_iff a s c
  obtain ⟨hout, e⟩ | ⟨hin, heq, e⟩ | ⟨hin, hne, e⟩ := execMsgVerify_cases s
  · have hlt := mt hbound.2 (Bool.eq_false_iff.1 hout)
    exact ⟨fun h => absurd h hlt, fun _ => e⟩
  · rw [hc] at heq
    rw [hc, setRes_setCrc_setCode] at e
    exact ⟨fun _ => ⟨fun _ => e, fun h => absurd (htrailer.1 heq) h⟩,
      fun h => absurd (hbound.1 hin) (Nat.not_le.2 h)⟩
  · rw [hc] at hne
    rw [hc, setRes_setCrc_setCode] at e
    exact ⟨fun _ => ⟨fun h => absurd (htrailer.2 h) hne, fun _ => e⟩,
      fun h => absurd (hbound.1 hin) (Nat.not_le.2 h)⟩

/-! ## Two messages that differ in one byte -/

/-- A range in which one byte was replaced. -/
theorem State.bufRange_eq_set {u t : State} {a n j : Nat}
    (h : ∀ x, a ≤ x → x < a + n → x ≠ a + j → u.bufByte x = t.bufByte x) :
    u.bufRange a n = (t.bufRange a n).set j (u.bufByte (a + j)) := by
  refine List.ext_getElem (by simp) fun i hi _ => ?_
  rw [State.length_bufRange] at hi
  rw [List.getElem_set, State.getElem_bufRange, State.getElem_bufRange]
  split
  · rename_i hji; rw [hji]
  · exact h _ (by omega) (by omega) (by omega)

section
variable {u t : State} {a : Nat}

/-- The checksum reads the header and the payload only. -/
theorem messageChecksum_eq_of_agree (hsize : messageSize a u = messageSize a t)
    (h : ∀ x, a ≤ x → x < a + 6 + messageSize a t → u.bufByte x = t.bufByte x) :
    messageChecksum a u = messageChecksum a t := by
  rw [messageChecksum, hsize, State.bufRange_congr fun j hj => h (a + j) (by omega)
    (by rw [hdrLen] at hj; omega), messageChecksum]

/-- The trailer is the two bytes after the payload. -/
theorem trailer_eq_of_agree (hsize : messageSize a u = messageSize a t)
    (h : ∀ x, a + 6 + messageSize a t ≤ x → x < a + 8 + messageSize a t → u.bufByte x = t.bufByte x) :
    trailer a u = trailer a t := by
  rw [trailer, hsize, State.bufRange_congr fun j hj => h _ (by rw [hdrLen]; omega)
    (by rw [trlLen] at hj; rw [hdrLen]; omega), trailer]

/-- The message at `a` carries its own checksum: what `MSG_VERIFY` looks for. -/
def Signed (a : Nat) (s : State) : Prop := trailer a s = checksumBytes (messageChecksum a s)

theorem verify_of_signed (hin : messageInside (startOffset u) trlLen u = true) (h : Signed (startOffset u) u) :
    ∃ v, exec .msgVerify u = .next v ∧ v.code = 0#4 ∧ v.res = 1#32 := by
  obtain ⟨hout, _⟩ | ⟨_, _, e⟩ | ⟨_, hne, _⟩ := execMsgVerify_cases u
  · rw [hin] at hout; cases hout
  · exact ⟨_, e, rfl, rfl⟩
  · exact absurd h hne

theorem verify_of_not_signed (hin : messageInside (startOffset u) trlLen u = true)
    (h : ¬ Signed (startOffset u) u) : ∃ v, exec .msgVerify u = .next v ∧ v.code = 5#4 ∧ v.res = 0#32 := by
  obtain ⟨hout, _⟩ | ⟨_, heq, _⟩ | ⟨_, _, e⟩ := execMsgVerify_cases u
  · rw [hin] at hout; cases hout
  · exact absurd heq h
  · exact ⟨_, e, rfl, rfl⟩

theorem signed_of_agree (hsize : messageSize a u = messageSize a t) (ht : Signed a t)
    (h : ∀ x, a ≤ x → x < a + 8 + messageSize a t → u.bufByte x = t.bufByte x) : Signed a u := by
  rw [Signed, trailer_eq_of_agree hsize fun x _ _ => h x (by omega) (by omega), ht,
    messageChecksum_eq_of_agree hsize fun x _ _ => h x (by omega) (by omega)]

/-- A byte of the header or the payload makes another checksum, a byte of the trailer another trailer; the
other of the two stays. -/
theorem not_signed_of_one_byte_changed {y : Nat} (hsize : messageSize a u = messageSize a t) (ht : Signed a t)
    (hlo : a ≤ y) (hhi : y < a + 8 + messageSize a t) (hy : u.bufByte y ≠ t.bufByte y)
    (h : ∀ x, a ≤ x → x < a + 8 + messageSize a t → x ≠ y → u.bufByte x = t.bufByte x) : ¬ Signed a u := by
  intro hu
  by_cases hcovered : y < a + 6 + messageSize a t
  · have htrailer : trailer a u = trailer a t :=
      trailer_eq_of_agree hsize fun x _ _ => h x (by omega) (by omega) (by omega)
    have hsum : messageChecksum a u = messageChecksum a t :=
      checksumBytes_injective (hu.symm.trans (htrailer.trans ht))
    obtain ⟨j, rfl⟩ := Nat.exists_eq_add_of_le hlo
    have hj : j < hdrLen + messageSize a t := by rw [hdrLen]; omega
    have hset := State.bufRange_eq_set (u := u) (t := t) (a := a) (n := hdrLen + messageSize a t) (j := j)
      fun x hx hx' => h x hx (by rw [hdrLen] at hx'; omega)
    rw [messageChecksum, messageChecksum, hsize, hset] at hsum
    exact crcI_set_ne (by simpa using hj) (by simpa using hy) hsum
  · have hsum : messageChecksum a u = messageChecksum a t :=
      messageChecksum_eq_of_agree hsize fun x _ _ => h x (by omega) (by omega) (by omega)
    have htrailer : trailer a u = trailer a t := by rw [hu, hsum, ht]
    obtain ⟨j, rfl⟩ := Nat.exists_eq_add_of_le (Nat.not_lt.1 hcovered)
    have hj : j < trlLen := by rw [trlLen]; omega
    rw [trailer, trailer, hsize] at htrailer
    have hbyte := List.getElem_of_eq htrailer (i := j) (by simpa using hj)
    rw [State.getElem_bufRange, State.getElem_bufRange] at hbyte
    exact hy hbyte

end

/-! ## What `MSG_SETCSUM` signs, `MSG_VERIFY` checks (R113) -/

/-- The trailer stands after the bytes that its checksum covers, so writing it leaves the message signed. -/
theorem signed_of_setcsum {s t : State} (h : exec .msgSetcsum s = .next t) (hok : t.code = 0#4) :
    startOffset s + 8 + messageSize (startOffset s) s ≤ s.cfg.bufSize ∧
    messageSize (startOffset s) t = messageSize (startOffset s) s ∧ Signed (startOffset s) t := by
  obtain ⟨_, e⟩ | ⟨hin, e⟩ := execMsgSetcsum_cases s
  · cases e.symm.trans h; simp [codeBits] at hok
  · have hbytes : ∀ x, t.bufByte x = (s.putBuf (startOffset s + hdrLen + messageSize (startOffset s) s)
        (checksumBytes (messageChecksum (startOffset s) s))).bufByte x := by
      cases e.symm.trans h; exact State.bufByte_congr rfl
    have hkept : ∀ x, x < startOffset s + 6 + messageSize (startOffset s) s → t.bufByte x = s.bufByte x :=
      fun x hx => (hbytes x).trans (State.bufByte_putBuf_outside (.inl hx))
    have hsize : messageSize (startOffset s) t = messageSize (startOffset s) s :=
      congrArg BitVec.toNat (hkept _ (by rw [dsizeOffset]; omega))
    refine ⟨(messageInside_trailer_iff _ _).1 hin, hsize, ?_⟩
    rw [Signed, messageChecksum_eq_of_agree hsize fun x _ hx => hkept x hx, trailer, hsize]
    refine List.ext_getElem (by simp [checksumBytes, trlLen]) fun j _ hj => ?_
    rw [State.getElem_bufRange, hbytes, State.bufByte_putBuf_inside hj]

theorem xor_bit_ne (v : Byte) {k : Nat} (h : k < 8) : v ^^^ (1#8 <<< k) ≠ v := by
  have hbit : ∀ k < 8, 1#8 <<< k ≠ 0#8 := by decide
  intro heq
  exact hbit k h ((BitVec.xor_right_inj v).1 (heq.trans BitVec.xor_zero.symm))

/-- Settles O25: `MSG_SETCSUM` leaves the message signed, agreement keeps it so, one changed byte does not. -/
theorem verifyDetectsEverySingleBitError : Obligations.VerifyDetectsEverySingleBitError := by
  intro s t hset hok a n u hcfg hopa
  obtain ⟨hbound, hsizet, hsigned⟩ : a + 8 + n ≤ s.cfg.bufSize ∧ messageSize a t = n ∧ Signed a t :=
    signed_of_setcsum hset hok
  have hstart : startOffset u = a := hopa
  have hinside : messageSize a u = n → messageInside (startOffset u) trlLen u = true := fun hn => by
    rw [messageInside_trailer_iff, hstart, hn, hcfg]; exact hbound
  have hsize : u.bufByte (a + 5) = t.bufByte (a + 5) → messageSize a u = messageSize a t :=
    congrArg BitVec.toNat
  rw [← hsizet] at hinside
  refine ⟨fun hagree => ?_, fun y k hlo hhi hy hk hflip hagree => ?_⟩
  · have hn := hsize (hagree _ (by omega) (by omega))
    refine verify_of_signed (hinside hn) ?_
    rw [hstart]
    exact signed_of_agree hn hsigned fun x hx hx' => hagree x hx (hsizet ▸ hx')
  · have hn := hsize (hagree _ (by omega) (by omega) hy.symm)
    have hchanged : u.bufByte y ≠ t.bufByte y := hflip ▸ xor_bit_ne _ hk
    refine verify_of_not_signed (hinside hn) ?_
    rw [hstart]
    exact not_signed_of_one_byte_changed hn hsigned hlo (hsizet ▸ hhi) hchanged fun x hx hx' =>
      hagree x hx (hsizet ▸ hx')

end Sys2Proof.Machine
end

section
/-! PROOFS. The integer fields (42_field_encode.md R133): big-endian bytes as the digits of a value to the base 256,
and the width that `int_bytes` gives each range. -/

namespace Sys2Proof.Machine

/-! ## Big-endian bytes (00_scope.md R10) -/

/-- The `w` base-256 digits of `n`, most significant first, denote `n` modulo `2^(8w)`. -/
theorem beValue_digits (w : Nat) : ∀ n : Nat,
    beValue ((List.range w).map fun j => BitVec.ofNat 8 (n / 2 ^ (8 * (w - 1 - j)))) = n % 2 ^ (8 * w) := by
  induction w with
  | zero => intro n; simp [beValue, Nat.mod_one]
  | succ w ih =>
    intro n
    have hhigh : ((List.range w).map fun j => BitVec.ofNat 8 (n / 2 ^ (8 * (w + 1 - 1 - j)))) =
        (List.range w).map fun j => BitVec.ofNat 8 (n / 2 ^ 8 / 2 ^ (8 * (w - 1 - j))) := by
      refine List.map_congr_left fun j hj => ?_
      have hexp : 8 * (w + 1 - 1 - j) = 8 + 8 * (w - 1 - j) := by have hlt := List.mem_range.1 hj; omega
      rw [hexp, pow_add, Nat.div_div_eq_div_mul]
    have hlow : beValue [BitVec.ofNat 8 (n / 2 ^ (8 * (w + 1 - 1 - w)))] = n % 2 ^ 8 := by simp [beValue]
    rw [List.range_succ, List.map_append, List.map_singleton, beValue_append, hhigh, ih, hlow,
      List.length_singleton, Nat.mul_one, Nat.mul_add, Nat.mul_one, Nat.add_comm (8 * w) 8, pow_add, Nat.mod_mul]
    ring

theorem beValue_beBytes (v : Int) (w : Nat) : (beValue (beBytes v w) : Int) = v % 2 ^ (8 * w) := by
  have hnonneg : 0 ≤ v % 2 ^ (8 * w) := Int.emod_nonneg _ (by positivity)
  have hlt : (v % 2 ^ (8 * w)).toNat < 2 ^ (8 * w) := by
    rw [Int.toNat_lt hnonneg, Nat.cast_pow]
    exact Int.emod_lt_of_pos v (by positivity)
  rw [beBytes, beValue_digits, Nat.mod_eq_of_lt hlt, Int.toNat_of_nonneg hnonneg]

/-! ## The width of an integer field -/

theorem length_intBytes (v : Int) :
    (intBytes v).length = if 0 ≤ v ∧ v ≤ 255 then 1
      else if (256 ≤ v ∧ v ≤ 65535) ∨ (-32768 ≤ v ∧ v ≤ -1) then 2 else 4 := by
  unfold intBytes
  split
  · exact length_beBytes v 1
  · split
    · exact length_beBytes v 2
    · exact length_beBytes v 4

/-- Whatever its width, an integer field is the big-endian form of its value in that width. -/
theorem intBytes_eq_beBytes (v : Int) : intBytes v = beBytes v (intBytes v).length := by
  rw [length_intBytes, intBytes]
  split
  · rfl
  · split <;> rfl

/-- Settles O27: the ranges give the width, and `be_bytes` in that width the value. -/
theorem integerFieldsTakeTheSmallestWidth : Obligations.IntegerFieldsTakeTheSmallestWidth := by
  intro v _ _
  refine ⟨length_intBytes v, ?_⟩
  conv_lhs => rw [intBytes_eq_beBytes, beValue_beBytes]

/-- A byte's integer field is the byte. -/
theorem intBytes_byte (b : Byte) : intBytes (b.toNat : Int) = [b] := by
  have hb : b.toNat < 256 := b.isLt
  have hmod : ((b.toNat : Int) % 256).toNat = b.toNat := by omega
  simp [intBytes, beBytes, show (b.toNat : Int) ≤ 255 by omega, hmod]

end Sys2Proof.Machine
end

section
/-! PROOFS. Clearing and the append step (42_field_encode.md R130 to R132): what a successful append leaves byte by
byte, that every append command is that step, and so each command's field. -/

namespace Sys2Proof.Machine

/-- Settles O26: no cell of `BUF` is listed any more. -/
theorem clearZeroesTheMessage : Obligations.ClearZeroesTheMessage := by
  refine ⟨rfl, fun s => ?_⟩
  cases s
  exact ⟨_, rfl, rfl, State.bufByte_nil rfl⟩

/-! ## The bytes after an append (R130) -/

@[simp] theorem setCode_bufByte (s : State) (c : Code) (a : Nat) : (s.setCode c).bufByte a = s.bufByte a := rfl

/-- An append writes `BUF` and nothing else. -/
theorem appendState_setCode (s : State) (bs : List Byte) (c : Code) :
    (appendState s bs).setCode c = { s with buf := (appendState s bs).buf, code := codeBits c } := by
  simp [appendState, State.setCode]

theorem payloadCap_eq (c : Config) : payloadCap c = c.maxSize - 8 := rfl

/-- `PAYLOAD_CAP` fits the byte that holds `DSIZE` (00_scope.md R6). -/
theorem payloadCap_lt {c : Config} (hok : configOk c = true) : payloadCap c < 256 := by
  obtain ⟨_, _, hmax, _⟩ := (configOk_iff c).1 hok
  rw [payloadCap_eq]
  omega

theorem sizeAfter_eq (s : State) (bs : List Byte) :
    sizeAfter s bs = s.dsize + (if 0 < s.dsize then 1 else 0) + bs.length := by
  rw [sizeAfter, length_separator]

theorem sizeAfter_eq_length (s : State) (bs : List Byte) :
    sizeAfter s bs = s.dsize + (separator s ++ bs).length := by
  rw [sizeAfter, List.length_append, Nat.add_assoc]

section
variable {s : State} {bs : List Byte}

theorem bufByte_appendState_inside {j : Nat} (h : j < (separator s ++ bs).length) :
    (appendState s bs).bufByte (6 + s.dsize + j) = (separator s ++ bs)[j] := by
  rw [bufByte_appendState s bs (by rw [dsizeOffset]; omega)]
  exact State.bufByte_putBuf_inside h

theorem bufByte_appendState_of_outside {a : Nat} (hne : a ≠ 5)
    (h : a < 6 + s.dsize ∨ 6 + sizeAfter s bs ≤ a) : (appendState s bs).bufByte a = s.bufByte a := by
  rw [sizeAfter_eq_length] at h
  rw [bufByte_appendState s bs hne]
  exact State.bufByte_putBuf_outside (by rw [hdrLen]; omega)

/-- The payload after an append: the delimiter and the field follow the old one. -/
theorem payload_appendState (h : sizeAfter s bs < 256) :
    (appendState s bs).payload = s.payload ++ (separator s ++ bs) := by
  refine List.ext_getElem ?_ fun j _ hj => ?_
  · simp [dsize_appendState h, sizeAfter_eq_length]
  · have hread : (appendState s bs).payload[j] = (appendState s bs).bufByte (6 + j) :=
      State.getElem_bufRange ..
    rw [hread]
    by_cases hold : j < s.dsize
    · rw [List.getElem_append_left (by simpa using hold),
        bufByte_appendState_of_outside (by omega) (by omega)]
      exact (State.getElem_bufRange ..).symm
    · obtain ⟨k, rfl⟩ := Nat.exists_eq_add_of_le (Nat.not_lt.1 hold)
      rw [List.getElem_append_right (by simp), ← Nat.add_assoc, bufByte_appendState_inside]
      · simp
      · simpa using hj

/-- An append that fits is `Appended`. -/
theorem appended_appendState (hok : configOk s.cfg = true) (hfits : sizeAfter s bs ≤ payloadCap s.cfg) :
    Appended bs s ((appendState s bs).setCode .ok) := by
  have hdsize : (appendState s bs).dsize = sizeAfter s bs :=
    dsize_appendState (hfits.trans_lt (payloadCap_lt hok))
  refine ⟨appendState_setCode s bs .ok, hdsize.trans (sizeAfter_eq s bs), fun hd => ?_, fun j hj => ?_,
    fun a hne ha => ?_⟩ <;> rw [setCode_bufByte]
  · have hsep : separator s = [s.cfg.delim] := if_pos hd
    have hbyte := bufByte_appendState_inside (s := s) (bs := bs) (j := 0) (by simp [hsep])
    exact hbyte.trans (by simp [hsep])
  · have hbyte := bufByte_appendState_inside (s := s) (bs := bs) (j := (separator s).length + j)
      (by simpa using hj)
    rw [← length_separator, Nat.add_assoc]
    exact hbyte.trans (by simp)
  · rw [Nat.add_assoc 6, Nat.add_assoc 6, ← sizeAfter_eq] at ha
    exact bufByte_appendState_of_outside hne ha

end

/-! ## The whole effect of an append -/

section
variable {i : Instr} {s : State} {bs : List Byte}

/-- A command that is the append step of `bs` has the effect R130 gives it. -/
theorem appendEffect_of_exec (hok : configOk s.cfg = true) (h : exec i s = appendBytes bs s) :
    AppendEffect i s bs := by
  rw [AppendEffect, ← sizeAfter_eq, ← payloadCap_eq]
  obtain ⟨hover, e⟩ | ⟨hfits, e⟩ := appendBytes_cases bs s
  · rw [if_pos hover]; exact h.trans e
  · rw [if_neg (Nat.not_lt.2 hfits)]; exact ⟨_, h.trans e, appended_appendState hok hfits⟩

/-- What an append can do: `OVERSIZE` and nothing else, or the append. -/
theorem AppendEffect.cases (h : AppendEffect i s bs) :
    (s.cfg.maxSize - 8 < sizeAfter s bs ∧ exec i s = .next { s with code := 1#4 }) ∨
    (sizeAfter s bs ≤ s.cfg.maxSize - 8 ∧ ∃ t, exec i s = .next t ∧ Appended bs s t) := by
  rw [AppendEffect, ← sizeAfter_eq] at h
  split at h
  · exact .inl ⟨‹_›, h⟩
  · exact .inr ⟨Nat.not_lt.1 ‹_›, h⟩

/-- What an append command can do: the append step over its field, or its own `RANGE` check, which an empty field
passes. -/
theorem exec_append_cases (hi : i ∈ appendCommands) :
    (∃ bs, fieldBytes i s = some bs ∧ exec i s = appendBytes bs s) ∨
    ((i = .appFloat ∨ i = .appStr) ∧ fieldBytes i s ≠ some [] ∧ exec i s = .next (s.setCode .range)) := by
  cases i with
  | appU8 | appU16 | appI16 | appU32 | appI32 | appBool => exact .inl ⟨_, rfl, rfl⟩
  | appFloat =>
    obtain ⟨_, e⟩ | ⟨t, ht, _, _, e⟩ := execAppFloat_cases s
    · refine .inr ⟨.inl rfl, fun hnil => ?_, e⟩
      obtain ⟨u, _, hbytes⟩ := Option.map_eq_some_iff.1 hnil
      exact absurd (congrArg List.length hbytes) (by simp)
    · exact .inl ⟨_, by rw [fieldBytes, ht]; rfl, e⟩
  | appStr =>
    obtain ⟨hover, e⟩ | ⟨_, e⟩ := execAppStr_cases s
    · refine .inr ⟨.inr rfl, fun hnil => ?_, e⟩
      have hlen := congrArg List.length (Option.some.inj hnil)
      rw [State.length_xbufRange, List.length_nil] at hlen
      omega
    · exact .inl ⟨_, rfl, e⟩
  | _ => simp [appendCommands] at hi

end

/-- Settles O29: the two outcomes of `exec_append_cases`. -/
theorem everyAppendIsTheCommonStep : Obligations.EveryAppendIsTheCommonStep := by
  intro i s hi hok
  obtain ⟨bs, hbs, e⟩ | ⟨hcheck, _, e⟩ := exec_append_cases (s := s) hi
  · exact .inl ⟨bs, hbs, appendEffect_of_exec hok e⟩
  · exact .inr ⟨hcheck, e⟩

/-! ## The commands with no check of their own (R135 to R140) -/

/-- Settles O30: each command is the append step of its value's field; one byte of a byte. -/
theorem integerAppendsAddTheirField : Obligations.IntegerAppendsAddTheirField := by
  refine ⟨rfl, rfl, rfl, rfl, rfl, fun s hok => ?_⟩
  have hbyte : exec .appU8 s = appendBytes [s.opa.extractLsb' 0 8] s :=
    congrArg (appendBytes · s) (intBytes_byte _)
  exact ⟨appendEffect_of_exec hok hbyte, appendEffect_of_exec hok rfl, appendEffect_of_exec hok rfl,
    appendEffect_of_exec hok rfl, appendEffect_of_exec hok rfl⟩

/-- Settles O31: the byte appended is `valueBool`. -/
theorem boolAppendAddsZeroOrOne : Obligations.BoolAppendAddsZeroOrOne := by
  refine ⟨rfl, fun s hok => appendEffect_of_exec hok ?_⟩
  rw [ite_not]
  rfl

/-! ## Strings (R142) -/

/-- Settles O33: the two outcomes of `APP_STR`, with the staging bytes written out. -/
theorem stringAppendCopiesTheStagingBuffer : Obligations.StringAppendCopiesTheStagingBuffer := by
  refine ⟨rfl, fun s hok => ?_⟩
  obtain ⟨hover, e⟩ | ⟨hfits, e⟩ := execAppStr_cases s
  · exact ⟨fun _ => e, fun h => absurd hover (Nat.not_lt.2 h)⟩
  · rw [State.xbufRange_zero_eq_ofFn] at e
    exact ⟨fun h => absurd hfits (Nat.not_le.2 h), fun _ => appendEffect_of_exec hok e⟩

/-! ## The payload cap (R131) -/

/-- Settles O34: an append that fits writes up to its new `DSIZE`, every other outcome the code alone. -/
theorem appendsStayWithinThePayloadCap : Obligations.AppendsStayWithinThePayloadCap := by
  intro i s hi hok
  obtain ⟨bs, _, heffect⟩ | ⟨hcheck, e⟩ := everyAppendIsTheCommonStep i s hi hok
  · obtain ⟨_, e⟩ | ⟨hfits, t, e, hcode, hdsize, _, _, hframe⟩ := heffect.cases
    · exact ⟨_, e, fun h => absurd h (by decide : (1#4) ≠ 0#4), fun _ => ⟨rfl, .inl rfl⟩, fun _ _ _ => rfl⟩
    · rw [sizeAfter_eq] at hfits
      exact ⟨t, e, fun _ => hdsize.trans_le hfits, fun _ => by omega,
        fun a hne ha => hframe a hne (by omega)⟩
  · exact ⟨_, e, fun h => absurd h (by decide : (4#4) ≠ 0#4), fun _ => ⟨rfl, .inr ⟨rfl, hcheck⟩⟩,
      fun _ _ _ => rfl⟩

end Sys2Proof.Machine
end

section
/-! PROOFS. `APP_FLOAT` (42_field_encode.md R141): the model's shifts and divisions of the significand give the whole
part of the rational value, and truncation toward zero is the whole part of the magnitude with the sign put back. -/

namespace Sys2Proof.Machine

/-! ## The magnitude and its whole part -/

/-- The magnitude that exponent `e` and fraction `m` denote. -/
def floatMagnitude (e m : Nat) : ℚ :=
  if e = 0 then (m : ℚ) * 2 ^ (-149 : ℤ) else (2 ^ 23 + (m : ℚ)) * 2 ^ ((e : ℤ) - 150)

/-- The whole part of the magnitude, in the model's natural numbers. -/
def floatWhole (e m : Nat) : Nat :=
  if e = 0 then m / 2 ^ 149
  else if e < 150 then (2 ^ 23 + m) / 2 ^ (150 - e)
  else (2 ^ 23 + m) * 2 ^ (e - 150)

theorem binary32Value_eq (w : Word) :
    binary32Value w = (if w.extractLsb' 31 1 = 1#1 then -1 else 1) *
      floatMagnitude (w.extractLsb' 23 8).toNat (w.extractLsb' 0 23).toNat := rfl

theorem truncFloat_of_finite {w : Word} (h : (w.extractLsb' 23 8).toNat ≠ 0xFF) :
    truncFloat w = some (if w.extractLsb' 31 1 = 1#1
      then -(floatWhole (w.extractLsb' 23 8).toNat (w.extractLsb' 0 23).toNat : Int)
      else floatWhole (w.extractLsb' 23 8).toNat (w.extractLsb' 0 23).toNat) :=
  if_neg h

theorem floor_mul_two_zpow_neg (n k : Nat) : ⌊(n : ℚ) * 2 ^ (-(k : ℤ))⌋ = (n / 2 ^ k : Nat) := by
  have hdiv : (n : ℚ) * 2 ^ (-(k : ℤ)) = (n : ℚ) / ((2 ^ k : Nat) : ℚ) := by
    rw [zpow_neg, zpow_natCast, div_eq_mul_inv, Nat.cast_pow, Nat.cast_ofNat]
  rw [hdiv, Rat.floor_natCast_div_natCast, Int.natCast_div]

theorem floatMagnitude_nonneg (e m : Nat) : 0 ≤ floatMagnitude e m := by
  unfold floatMagnitude
  split <;> positivity

theorem floor_floatMagnitude (e m : Nat) : ⌊floatMagnitude e m⌋ = floatWhole e m := by
  have hsignificand : (2 ^ 23 + (m : ℚ)) = ((2 ^ 23 + m : Nat) : ℚ) := by push_cast; rfl
  unfold floatMagnitude floatWhole
  rw [hsignificand]
  split
  · exact floor_mul_two_zpow_neg m 149
  · split
    · have hexp : (e : ℤ) - 150 = -((150 - e : Nat) : ℤ) := by omega
      rw [hexp, floor_mul_two_zpow_neg]
    · have hexp : (e : ℤ) - 150 = ((e - 150 : Nat) : ℤ) := by omega
      rw [hexp, zpow_natCast, ← Int.floor_natCast (R := ℚ)]
      push_cast
      rfl

/-! ## Truncation toward zero -/

theorem truncRat_of_nonneg {x : ℚ} (h : 0 ≤ x) : truncRat x = ⌊x⌋ := if_pos h

theorem truncRat_neg_of_nonneg {x : ℚ} (h : 0 ≤ x) : truncRat (-x) = -⌊x⌋ := by
  rcases h.eq_or_lt with rfl | hpos
  · simp [truncRat]
  · rw [truncRat, if_neg (by linarith), Int.ceil_neg]

/-- A finite pattern truncates to the integer that its value truncates to. -/
theorem truncFloat_eq_truncRat {w : Word} (h : w.extractLsb' 23 8 ≠ 0xFF#8) :
    truncFloat w = some (truncRat (binary32Value w)) := by
  have hmag := floatMagnitude_nonneg (w.extractLsb' 23 8).toNat (w.extractLsb' 0 23).toNat
  rw [truncFloat_of_finite fun he => h (BitVec.eq_of_toNat_eq he), binary32Value_eq, ← floor_floatMagnitude]
  split
  · rw [neg_one_mul, truncRat_neg_of_nonneg hmag]
  · rw [one_mul, truncRat_of_nonneg hmag]

/-- An infinity or a NaN has no integer part. -/
theorem truncFloat_of_not_finite {w : Word} (h : w.extractLsb' 23 8 = 0xFF#8) : truncFloat w = none :=
  if_pos (congrArg BitVec.toNat h)

/-! ## The command -/

section
variable {s : State}

theorem appFloat_of_none (h : truncFloat s.opa = none) :
    exec .appFloat s = .next { s with code := 4#4 } := by
  obtain ⟨_, e⟩ | ⟨t, ht, _⟩ := execAppFloat_cases s
  · exact e
  · rw [h] at ht; cases ht

theorem appFloat_of_outside {t : Int} (h : truncFloat s.opa = some t) (hout : t < -2 ^ 31 ∨ 2 ^ 31 - 1 < t) :
    exec .appFloat s = .next { s with code := 4#4 } := by
  obtain ⟨_, e⟩ | ⟨u, hu, _⟩ := execAppFloat_cases s
  · exact e
  · rw [h] at hu; cases hu; omega

theorem appFloat_of_inside {t : Int} (h : truncFloat s.opa = some t) (hlow : -2 ^ 31 ≤ t)
    (hhigh : t ≤ 2 ^ 31 - 1) : exec .appFloat s = appendBytes (beBytes t 4) s := by
  obtain ⟨hout, _⟩ | ⟨u, hu, _, _, e⟩ := execAppFloat_cases s
  · have hrange := hout t h; omega
  · rw [h] at hu; cases hu; exact e

end

/-- Settles O32: the model's truncation is that of the value, and `APP_FLOAT` has one outcome for each case. -/
theorem floatAppendAddsTheTruncatedInteger : Obligations.FloatAppendAddsTheTruncatedInteger := by
  refine ⟨rfl, fun s hok => ⟨fun h => appFloat_of_none (truncFloat_of_not_finite h), fun h => ?_⟩⟩
  have ht := truncFloat_eq_truncRat h
  exact ⟨appFloat_of_outside ht, fun hlow hhigh =>
    appendEffect_of_exec hok (appFloat_of_inside ht hlow hhigh)⟩

end Sys2Proof.Machine
end

section
/-! PROOFS. Field widths and the payload's shape (42_field_encode.md R134, R143): the first append to an empty
payload, then runs of appends, which concatenate. -/

namespace Sys2Proof.Machine

/-! ## The width of a field by its command (R134) -/

theorem length_intBytes_natCast (n : Nat) :
    (intBytes (n : Int)).length = if n ≤ 255 then 1 else if n ≤ 65535 then 2 else 4 := by
  rw [length_intBytes]
  split_ifs <;> omega

theorem length_intBytes_half (h : Half) :
    (intBytes (h.toNat : Int)).length = if h.toNat ≤ 255 then 1 else 2 := by
  have hlt : h.toNat < 65536 := h.isLt
  rw [length_intBytes_natCast]
  split_ifs <;> omega

theorem length_intBytes_signedHalf (h : Half) :
    (intBytes h.toInt).length = if 0 ≤ h.toInt ∧ h.toInt ≤ 255 then 1 else 2 := by
  have hlow : -32768 ≤ h.toInt := h.le_toInt
  have hhigh : h.toInt < 32768 := BitVec.toInt_lt
  rw [length_intBytes]
  split_ifs <;> omega

section
variable {i : Instr} {s : State} {bs : List Byte}

/-- The first append to an empty payload: a field of at most four bytes fits where four do, and `DSIZE` is its
width. -/
theorem AppendEffect.of_empty {width : Nat} (hempty : s.dsize = 0) (hwidth : bs.length = width) (hle : width ≤ 4)
    (h : AppendEffect i s bs) :
    ∃ t, exec i s = .next t ∧ (4 ≤ s.cfg.maxSize - 8 → t.code = 0#4) ∧ (t.code = 0#4 → t.dsize = width) := by
  have hsize : sizeAfter s bs = width := by simp [sizeAfter_eq, hempty, hwidth]
  obtain ⟨hover, e⟩ | ⟨_, t, e, hcode, hdsize, _⟩ := h.cases
  · exact ⟨_, e, fun _ => by omega, fun hok => absurd hok (by decide : (1#4) ≠ 0#4)⟩
  · rw [← sizeAfter_eq, hsize] at hdsize
    exact ⟨t, e, fun _ => congrArg State.code hcode, fun _ => hdsize⟩

/-- The same for an integer field, whose width is never more than four. -/
theorem intAppend_of_empty {v : Int} {width : Nat} (hok : configOk s.cfg = true) (hempty : s.dsize = 0)
    (h : exec i s = appendBytes (intBytes v) s) (hwidth : (intBytes v).length = width) :
    ∃ t, exec i s = .next t ∧ (4 ≤ s.cfg.maxSize - 8 → t.code = 0#4) ∧ (t.code = 0#4 → t.dsize = width) :=
  (appendEffect_of_exec hok h).of_empty hempty hwidth (hwidth ▸ length_intBytes_le v)

end

/-- Settles O28: the length of each command's field, and the outcomes of `APP_FLOAT`. -/
theorem fieldWidthsByCommand : Obligations.FieldWidthsByCommand := by
  intro s hok hempty
  refine ⟨fun i width hmem => ?_, ?_⟩
  · simp only [List.mem_cons, Prod.mk.injEq, List.not_mem_nil, or_false] at hmem
    obtain ⟨rfl, rfl⟩ | ⟨rfl, rfl⟩ | ⟨rfl, rfl⟩ | ⟨rfl, rfl⟩ | ⟨rfl, rfl⟩ | ⟨rfl, rfl⟩ := hmem
    · exact intAppend_of_empty hok hempty rfl (congrArg List.length (intBytes_byte (opaByte s)))
    · exact intAppend_of_empty hok hempty rfl (length_intBytes_half (opaHalf s))
    · exact intAppend_of_empty hok hempty rfl (length_intBytes_signedHalf (opaHalf s))
    · exact intAppend_of_empty hok hempty rfl (length_intBytes_natCast s.opa.toNat)
    · exact intAppend_of_empty hok hempty rfl (length_intBytes s.opa.toInt)
    · exact (appendEffect_of_exec (bs := [valueBool s]) hok rfl).of_empty hempty rfl (by decide)
  · obtain ⟨hout, e⟩ | ⟨x, _, _, _, e⟩ := execAppFloat_cases s
    · refine ⟨_, e, fun h => absurd h (by decide : (4#4) ≠ 0#4), fun hfinite hlow hhigh _ => ?_⟩
      have hrange := hout _ (truncFloat_eq_truncRat hfinite)
      omega
    · obtain ⟨t, ht, hroom, hdsize⟩ :=
        (appendEffect_of_exec (i := .appFloat) hok e).of_empty hempty (length_beBytes x 4) (Nat.le_refl 4)
      exact ⟨t, ht, hdsize, fun _ _ _ => hroom⟩

/-! ## Runs of appends (R143) -/

/-- A list of fields joined by a delimiter: the first one, then each of the others after a delimiter. -/
theorem intercalate_cons_eq_flatMap {α : Type} (d : α) (f : List α) (fs : List (List α)) :
    List.intercalate [d] (f :: fs) = f ++ fs.flatMap (d :: ·) := by
  induction fs generalizing f with
  | nil => simp
  | cons g gs ih => rw [List.intercalate_cons_cons, ih]; simp

/-- What a command that ended with `OK` appended: its field, which fitted. -/
theorem eq_appendState_of_ok {i : Instr} {s t : State} (hi : i ∈ appendCommands) (h : exec i s = .next t)
    (hcode : t.code = 0#4) :
    sizeAfter s (entryBytes (i, s)) ≤ payloadCap s.cfg ∧
      t = (appendState s (entryBytes (i, s))).setCode .ok := by
  obtain ⟨bs, hbs, e⟩ | ⟨_, _, e⟩ := exec_append_cases (s := s) hi
  · have hentry : entryBytes (i, s) = bs := by rw [entryBytes, hbs]; rfl
    rw [hentry]
    obtain ⟨_, e'⟩ | ⟨hfits, e'⟩ := appendBytes_cases bs s <;> cases h.symm.trans (e.trans e')
    · exact absurd hcode (by decide : (1#4) ≠ 0#4)
    · exact ⟨hfits, rfl⟩
  · cases h.symm.trans e
    exact absurd hcode (by decide : (4#4) ≠ 0#4)

/-- A failed append writes the code alone. -/
theorem eq_setCode_of_failed {i : Instr} {s t : State} (hi : i ∈ appendCommands) (h : exec i s = .next t)
    (hcode : t.code ≠ 0#4) : ∃ c, t = s.setCode c := by
  obtain ⟨bs, _, e⟩ | ⟨_, _, e⟩ := exec_append_cases (s := s) hi
  · obtain ⟨_, e'⟩ | ⟨_, e'⟩ := appendBytes_cases bs s <;> cases h.symm.trans (e.trans e')
    · exact ⟨_, rfl⟩
    · exact absurd rfl hcode
  · cases h.symm.trans e
    exact ⟨_, rfl⟩

/-- One entry of a run: the parameters stay, and the payload grows by the delimiter and the entry's field. -/
theorem payload_of_entry {i : Instr} {s u v : State} (hok : configOk s.cfg = true) (hbuf : u.buf = s.buf)
    (hcfg : u.cfg = s.cfg) (hi : i ∈ appendCommands) (h : exec i u = .next v) (hcode : v.code = 0#4) :
    v.cfg = s.cfg ∧ v.payload = s.payload ++ (separator s ++ entryBytes (i, u)) := by
  obtain ⟨hfits, rfl⟩ := eq_appendState_of_ok hi h hcode
  have hlt : sizeAfter u (entryBytes (i, u)) < 256 := hfits.trans_lt (payloadCap_lt (hcfg ▸ hok))
  refine ⟨by simp [appendState, hcfg], ?_⟩
  rw [State.payload_congr (setCode_buf _ _), payload_appendState hlt, State.payload_congr hbuf,
    separator_congr hbuf hcfg]

/-- A run from a payload that holds a field puts a delimiter before each of its own. -/
theorem AppendRun.payload {es : List (Instr × State)} :
    ∀ {s t : State}, configOk s.cfg = true → 0 < s.dsize → AppendRun s es t →
      t.payload = s.payload ++ (es.map entryBytes).flatMap (s.cfg.delim :: ·) := by
  induction es with
  | nil => rintro s _ _ _ rfl; simp
  | cons e es ih =>
    rintro s t hok hpos ⟨hbuf, hcfg, hi, v, h, hcode, hrun⟩
    obtain ⟨hvcfg, hv⟩ := payload_of_entry hok hbuf hcfg hi h hcode
    have hvpos : 0 < v.dsize := by
      have hlen := congrArg List.length hv
      simp only [List.length_append, State.length_payload] at hlen
      omega
    rw [ih (hvcfg ▸ hok) hvpos hrun, hv, hvcfg, separator, if_pos hpos]
    simp

/-- A run from the empty payload whose first field is not empty joins its fields. -/
theorem AppendRun.payload_of_empty {s t : State} {e : Instr × State} {es : List (Instr × State)}
    (hok : configOk s.cfg = true) (hempty : s.dsize = 0) (hrun : AppendRun s (e :: es) t)
    (hfirst : entryBytes e ≠ []) :
    t.payload = entryBytes e ++ (es.map entryBytes).flatMap (s.cfg.delim :: ·) := by
  obtain ⟨hbuf, hcfg, hi, v, h, hcode, hrun⟩ := hrun
  obtain ⟨hvcfg, hv⟩ := payload_of_entry hok hbuf hcfg hi h hcode
  have hnil : s.payload = [] := List.eq_nil_of_length_eq_zero (s.length_payload.trans hempty)
  rw [hnil, separator, if_neg (by omega), List.nil_append, List.nil_append] at hv
  have hvpos : 0 < v.dsize := by rw [← v.length_payload, hv]; exact List.length_pos_iff.2 hfirst
  rw [AppendRun.payload (hvcfg ▸ hok) hvpos hrun, hv, hvcfg]

/-- An empty first field changes no byte of `BUF`: `DSIZE` is written again as 0. -/
theorem appended_nil_keeps_bytes {s t : State} (hempty : s.dsize = 0) (h : Appended [] s t) (a : Nat) :
    t.bufByte a = s.bufByte a := by
  obtain ⟨_, hdsize, _, _, hframe⟩ := h
  by_cases ha : a = 5
  · subst ha
    have hkept : t.dsize = s.dsize := by simpa [hempty] using hdsize
    exact BitVec.eq_of_toNat_eq hkept
  · exact hframe a ha (by simp only [hempty, Nat.lt_irrefl, if_false, List.length_nil]; omega)

/-- Settles O35: the run's payload, its length, and the two cases in which no byte changes. -/
theorem appendsBuildTheDelimitedPayload : Obligations.AppendsBuildTheDelimitedPayload := by
  refine ⟨fun s t e es hok hempty hrun hfirst => ?_, fun i s t hi h hcode a => ?_,
    fun i s hi hempty hok hnil => ?_⟩
  · have hpayload := hrun.payload_of_empty hok hempty hfirst
    refine ⟨by rw [hpayload, List.map_cons, intercalate_cons_eq_flatMap], ?_⟩
    rw [← t.length_payload, hpayload]
    simp [List.length_flatMap, Function.comp_def, List.sum_map_add, Nat.add_assoc]
  · obtain ⟨c, rfl⟩ := eq_setCode_of_failed hi h hcode
    rfl
  · obtain ⟨bs, hbs, e⟩ | ⟨_, hne, _⟩ := exec_append_cases (s := s) hi
    · obtain rfl : bs = [] := Option.some.inj (hbs.symm.trans hnil)
      obtain ⟨hover, _⟩ | ⟨_, t, ht, happended⟩ := (appendEffect_of_exec hok e).cases
      · rw [sizeAfter_eq, hempty] at hover
        exact absurd hover (Nat.not_lt_zero _)
      · have ⟨hstate, _⟩ := happended
        exact ⟨t, ht, congrArg State.code hstate, appended_nil_keeps_bytes hempty happended⟩
    · exact absurd hnil hne

end Sys2Proof.Machine
end

section
/-! PROOFS. Segments (43_field_decode.md R160, R174): a payload is its fields joined by the delimiter, no delimiter
inside a field; `locate` gives the position of a field, and `fieldCount` their number. -/

namespace Sys2Proof.Machine

/-! ## A payload as fields -/

/-- What a payload is cut into: lists without the delimiter; the empty payload has no field. -/
structure IsFieldList (d : Byte) (fs : List (List Byte)) : Prop where
  ne_singleton_nil : fs ≠ [[]]
  not_mem : ∀ f ∈ fs, d ∉ f

theorem intercalate_cons_append (d : Byte) (xs f : List Byte) (fs : List (List Byte)) :
    List.intercalate [d] ((xs ++ f) :: fs) = xs ++ List.intercalate [d] (f :: fs) := by
  rw [intercalate_cons_eq_flatMap, intercalate_cons_eq_flatMap, List.append_assoc]

theorem intercalate_cons_of_ne_nil (d : Byte) (f : List Byte) {fs : List (List Byte)} (h : fs ≠ []) :
    List.intercalate [d] (f :: fs) = f ++ d :: List.intercalate [d] fs := by
  rw [List.intercalate_cons_of_ne_nil h, List.append_assoc, List.singleton_append]

/-- Cutting a list at its delimiters. -/
theorem exists_cut (d : Byte) (pay : List Byte) :
    ∃ fs, fs ≠ [] ∧ (∀ f ∈ fs, d ∉ f) ∧ List.intercalate [d] fs = pay := by
  induction pay with
  | nil => exact ⟨[[]], by simp⟩
  | cons b pay ih =>
    obtain ⟨fs, hne, hmem, rfl⟩ := ih
    by_cases hb : b = d
    · exact ⟨[] :: fs, by simp, by simpa using hmem, by rw [intercalate_cons_of_ne_nil d [] hne, hb]; rfl⟩
    · obtain ⟨f, fs, rfl⟩ := List.exists_cons_of_ne_nil hne
      obtain ⟨hf, hfs⟩ := List.forall_mem_cons.1 hmem
      exact ⟨(b :: f) :: fs, by simp, List.forall_mem_cons.2 ⟨by simp [Ne.symm hb, hf], hfs⟩,
        intercalate_cons_append d [b] f fs⟩

/-- Every payload is some fields joined. -/
theorem exists_fieldList (d : Byte) (pay : List Byte) :
    ∃ fs, IsFieldList d fs ∧ pay = List.intercalate [d] fs := by
  obtain ⟨fs, _, hmem, rfl⟩ := exists_cut d pay
  by_cases hfs : fs = [[]]
  · exact ⟨[], ⟨by simp, by simp⟩, by simp [hfs]⟩
  · exact ⟨fs, ⟨hfs, hmem⟩, rfl⟩

/-- Only the empty list of fields has an empty payload. -/
theorem IsFieldList.intercalate_eq_nil_iff {d : Byte} {fs : List (List Byte)} (h : IsFieldList d fs) :
    List.intercalate [d] fs = [] ↔ fs = [] := by
  refine ⟨fun hnil => ?_, fun hfs => by simp [hfs]⟩
  cases fs with
  | nil => rfl
  | cons f fs =>
    rw [intercalate_cons_eq_flatMap, List.append_eq_nil_iff, List.flatMap_eq_nil_iff] at hnil
    obtain ⟨rfl, htail⟩ := hnil
    obtain rfl : fs = [] := List.eq_nil_iff_forall_not_mem.2 fun g hg => absurd (htail g hg) (by simp)
    exact absurd rfl h.ne_singleton_nil

/-! ## Where a field starts -/

/-- The offset of field `k`: each field before it and the delimiter behind that. -/
def fieldStart (fs : List (List Byte)) (k : Nat) : Nat := ((fs.take k).map fun f => f.length + 1).sum

@[simp] theorem fieldStart_zero (fs : List (List Byte)) : fieldStart fs 0 = 0 := rfl

@[simp] theorem fieldStart_cons_succ (f : List Byte) (fs : List (List Byte)) (k : Nat) :
    fieldStart (f :: fs) (k + 1) = f.length + 1 + fieldStart fs k := rfl

theorem fieldStart_succ {fs : List (List Byte)} {k : Nat} (h : k < fs.length) :
    fieldStart fs (k + 1) = fieldStart fs k + fs[k].length + 1 := by
  rw [fieldStart, List.take_add_one, List.getElem?_eq_getElem h, Option.toList_some, List.map_append, List.sum_append,
    List.map_singleton, List.sum_singleton, ← Nat.add_assoc, fieldStart]

/-- From field `k` on, the payload is the fields from `k` on. -/
theorem drop_fieldStart (d : Byte) {fs : List (List Byte)} {k : Nat} (h : k < fs.length) :
    (List.intercalate [d] fs).drop (fieldStart fs k) = List.intercalate [d] (fs.drop k) := by
  induction fs generalizing k with
  | nil => cases h
  | cons f fs ih =>
    cases k with
    | zero => rfl
    | succ k =>
      have hk : k < fs.length := Nat.lt_of_succ_lt_succ h
      rw [intercalate_cons_of_ne_nil d f (List.ne_nil_of_length_pos (by omega)), fieldStart_cons_succ,
        Nat.add_assoc, Nat.add_comm 1, ← List.drop_drop, List.drop_left, List.drop_succ_cons, List.drop_succ_cons,
        ih hk]

/-! ## `locate` and `fieldCount` -/

/-- The loop of `locate` passes over bytes that are no delimiter. -/
theorem locateFrom_append {d : Byte} {f : List Byte} (hf : d ∉ f) (k : Nat) (rest : List Byte) (i seg start : Nat) :
    locateFrom d k (f ++ rest) i seg start = locateFrom d k rest (i + f.length) seg start := by
  induction f generalizing i with
  | nil => rfl
  | cons b f ih =>
    obtain ⟨hb, hf⟩ := not_or.1 (mt List.mem_cons.2 hf)
    rw [List.cons_append, locateFrom, if_neg (Ne.symm hb), ih hf, List.length_cons, Nat.add_right_comm,
      Nat.add_assoc]

/-- The loop of `locate` from the start of segment `seg`, over fields joined. -/
theorem locateFrom_intercalate {d : Byte} {fs : List (List Byte)} (hne : fs ≠ []) (hmem : ∀ f ∈ fs, d ∉ f)
    (k seg start : Nat) :
    locateFrom d (seg + k) (List.intercalate [d] fs) start seg start =
      fs[k]?.map fun f => (start + fieldStart fs k, f.length) := by
  induction fs generalizing k seg start with
  | nil => exact absurd rfl hne
  | cons f fs ih =>
    obtain ⟨hf, hfs⟩ := List.forall_mem_cons.1 hmem
    cases fs with
    | nil =>
      have hskip := locateFrom_append hf (seg + k) [] start seg start
      rw [List.append_nil] at hskip
      rw [List.intercalate_singleton, hskip, locateFrom]
      cases k <;> simp
    | cons g gs =>
      rw [intercalate_cons_of_ne_nil d f (by simp), locateFrom_append hf, locateFrom, if_pos rfl]
      cases k with
      | zero => simp
      | succ k =>
        rw [if_neg (by omega), ← Nat.add_assoc, Nat.add_right_comm seg k 1, ih (by simp) hfs]
        simp [Nat.add_assoc]

/-- `locate` gives the position of a field (R160). -/
theorem IsFieldList.locate {d : Byte} {fs : List (List Byte)} (h : IsFieldList d fs) (k : Nat) :
    locate d k (List.intercalate [d] fs) = fs[k]?.map fun f => (fieldStart fs k, f.length) := by
  rw [Machine.locate]
  by_cases hfs : fs = []
  · simp [hfs]
  · rw [if_neg (mt h.intercalate_eq_nil_iff.1 hfs)]
    simpa using locateFrom_intercalate hfs h.not_mem k 0 0

/-- Joining fields puts one delimiter less than fields. -/
theorem count_intercalate {d : Byte} {fs : List (List Byte)} (hne : fs ≠ []) (hmem : ∀ f ∈ fs, d ∉ f) :
    (List.intercalate [d] fs).count d + 1 = fs.length := by
  induction fs with
  | nil => exact absurd rfl hne
  | cons f fs ih =>
    obtain ⟨hf, hfs⟩ := List.forall_mem_cons.1 hmem
    by_cases hnil : fs = []
    · simp [hnil, List.count_eq_zero.2 hf]
    · rw [intercalate_cons_of_ne_nil d f hnil, List.count_append, List.count_eq_zero.2 hf, Nat.zero_add,
        List.count_cons_self, ih hnil hfs, List.length_cons]

theorem countFields_eq_count (d : Byte) (pay : List Byte) :
    countFields d pay = if pay = [] then 0 else pay.count d + 1 := by
  rw [countFields, List.count_eq_length_filter]
  rfl

/-- `fieldCount` gives the number of fields (R162). -/
theorem IsFieldList.countFields {d : Byte} {fs : List (List Byte)} (h : IsFieldList d fs) :
    countFields d (List.intercalate [d] fs) = fs.length := by
  rw [countFields_eq_count]
  by_cases hfs : fs = []
  · simp [hfs]
  · rw [if_neg (mt h.intercalate_eq_nil_iff.1 hfs), count_intercalate hfs h.not_mem]

end Sys2Proof.Machine
end

section
/-! PROOFS. The decode commands on one segment (43_field_decode.md R160 to R169): the checks they share, then what
each does with the segment found. -/

namespace Sys2Proof

/-! ## Their words (30_encoding.md R72, R73) -/

section
variable {op : Byte} {f : Index → Instr} (h : (op, f) ∈ iFormRows)
include h

theorem decode_fieldWord {w : Word} (hw : op.setWidth 32 = w) (n : Byte) :
    decode (w ||| (n.setWidth 32 <<< 8)) = .ok (f (.field n.toNat)) :=
  hw ▸ (indexComesFromTheWordOrTheCursor.1 op n f h).1

theorem decode_cursorWord {w : Word} (hw : op.setWidth 32 ||| 0x00010000#32 = w) : decode w = .ok (f .cursor) := by
  subst hw
  simpa using (indexComesFromTheWordOrTheCursor.1 op 0#8 f h).2

end

namespace Machine

/-! ## The checks of R160 and R161 -/

theorem payloadInside_iff (s : State) : payloadInside s = true ↔ 6 + s.dsize ≤ s.cfg.bufSize := decide_eq_true_iff

section
variable {s : State} {k : Nat}

theorem findSegment_of_located {r : Nat × Nat} (hin : 6 + s.dsize ≤ s.cfg.bufSize)
    (h : locate s.cfg.delim k s.payload = some r) : findSegment k s = .ok r := by
  rw [findSegment, if_pos ((payloadInside_iff s).2 hin), h]

theorem findSegment_of_not_located (hin : 6 + s.dsize ≤ s.cfg.bufSize)
    (h : locate s.cfg.delim k s.payload = none) : findSegment k s = .error .notFound := by
  rw [findSegment, if_pos ((payloadInside_iff s).2 hin), h]

theorem findSegment_of_outside (hout : s.cfg.bufSize < 6 + s.dsize) : findSegment k s = .error .range :=
  if_neg (mt (payloadInside_iff s).1 (Nat.not_le.2 hout))

end

/-! ## The step the numeric readers share (R163) -/

section
variable {s : State} {k width : Nat} {r : Nat × Nat} {result : Nat → Word}

theorem readNumber_of_error {c : Code} (h : findSegment k s = .error c) :
    readNumber k width result s = .next (s.setCode c) := by
  rw [readNumber, readUint, h]
  rfl

theorem readNumber_of_fits (h : findSegment k s = .ok r) (hpos : r.2 ≠ 0) (hle : r.2 ≤ width) :
    readNumber k width result s = .next ((s.setRes (result (beValue (s.segment r)))).setCode .ok) := by
  have hvalue : readUint k width s = .ok (beValue (s.segment r)) := by
    rw [readUint, h]
    exact if_neg (by omega)
  rw [readNumber, hvalue]
  rfl

theorem readNumber_of_misfit (h : findSegment k s = .ok r) (hmisfit : r.2 = 0 ∨ width < r.2) :
    readNumber k width result s = .next (s.setCode .format) := by
  have hformat : readUint k width s = .error .format := by
    rw [readUint, h]
    exact if_pos hmisfit
  rw [readNumber, hformat]
  rfl

end

/-! ## A failed search -/

/-- The commands that look for a segment. -/
def segmentCommands : List (Index → Instr) := [.locate, .rdU8, .rdU16, .rdI16, .rdU32, .rdI32, .rdBytes]

section
variable {f : Index → Instr} {ix : Index} {s : State} (hf : f ∈ segmentCommands)
include hf

/-- Where no segment is found, the code is all that is written. -/
theorem exec_of_findSegment_error {c : Code} (h : findSegment (indexValue s ix) s = .error c) :
    exec (f ix) s = .next (s.setCode c) := by
  simp only [segmentCommands, List.mem_cons, List.not_mem_nil, or_false] at hf
  obtain rfl | rfl | rfl | rfl | rfl | rfl | rfl := hf
  · rw [exec, execLocate, h]
    rfl
  · exact readNumber_of_error h
  · exact readNumber_of_error h
  · exact readNumber_of_error h
  · exact readNumber_of_error h
  · exact readNumber_of_error h
  · rw [exec, execRdBytes, h]
    rfl

theorem exec_of_not_located (hin : 6 + s.dsize ≤ s.cfg.bufSize)
    (h : locate s.cfg.delim (indexValue s ix) s.payload = none) :
    exec (f ix) s = .next { s with code := 2#4 } :=
  exec_of_findSegment_error hf (findSegment_of_not_located hin h)

theorem exec_of_outside (hout : s.cfg.bufSize < 6 + s.dsize) : exec (f ix) s = .next { s with code := 4#4 } :=
  exec_of_findSegment_error hf (findSegment_of_outside hout)

end

/-! ## `LOCATE` (R161) -/

/-- A located segment's start and length are stored as they are. -/
theorem execLocate_of_located {s : State} {ix : Index} {st ln : Nat} (hin : 6 + s.dsize ≤ s.cfg.bufSize)
    (h : locate s.cfg.delim (indexValue s ix) s.payload = some (st, ln)) :
    exec (.locate ix) s =
      .next { s with lstart := BitVec.ofNat 8 st, llen := BitVec.ofNat 8 ln, code := 0#4 } := by
  rw [exec, execLocate, findSegment_of_located hin h]
  rfl

/-- A located segment lies inside the payload, so its start and its length fit a byte. -/
theorem locate_payload_inside {s : State} {k st ln : Nat} (h : locate s.cfg.delim k s.payload = some (st, ln)) :
    st + ln ≤ s.dsize := by
  simpa using locate_inside h

/-- Settles O37: the three outcomes of `findSegment`; start and length fit their registers. -/
theorem locateLeavesTheSegment : Obligations.LocateLeavesTheSegment := by
  have hrow : (0x30#8, Instr.locate) ∈ iFormRows := by simp [iFormRows]
  have hmem : Instr.locate ∈ segmentCommands := by simp [segmentCommands]
  refine ⟨decode_fieldWord hrow rfl, decode_cursorWord hrow rfl, fun s ix =>
    ⟨fun hin => ⟨fun st ln h => ⟨_, execLocate_of_located hin h, ?_, ?_, rfl⟩, exec_of_not_located hmem hin⟩,
      exec_of_outside hmem⟩⟩
  all_goals
    have hfits := locate_payload_inside h
    have hsize := s.dsize_lt
    exact Nat.mod_eq_of_lt (by omega)

/-! ## `FIELD_COUNT` (R162) -/

theorem execFieldCount_of_inside {s : State} (hin : 6 + s.dsize ≤ s.cfg.bufSize) :
    exec .fieldCount s =
      .next { s with res := BitVec.ofNat 32 (countFields s.cfg.delim s.payload), code := 0#4 } :=
  if_pos ((payloadInside_iff s).2 hin)

theorem State.payload_eq_nil_iff (s : State) : s.payload = [] ↔ s.dsize = 0 := by
  rw [← List.length_eq_zero_iff, s.length_payload]

/-- The field count on the bytes of `BUF`. -/
theorem countFields_payload (s : State) :
    countFields s.cfg.delim s.payload = if s.dsize = 0 then 0
      else ((List.range s.dsize).filter fun j => s.bufByte (6 + j) = s.cfg.delim).length + 1 := by
  simp only [countFields, s.payload_eq_nil_iff]
  rw [State.payload, State.bufRange, List.filter_map, List.length_map]
  rfl

/-- Settles O38: the count over the payload is the count over `BUF`. -/
theorem fieldCountCountsDelimiters : Obligations.FieldCountCountsDelimiters := by
  refine ⟨rfl, fun s => ⟨fun hin => ?_, fun hout => if_neg (mt (payloadInside_iff s).1 (Nat.not_le.2 hout))⟩⟩
  rw [← countFields_payload]
  exact execFieldCount_of_inside hin

/-! ## The numeric readers (R164 to R166, R168, R169) -/

/-- Each numeric reader is `readNumber` in its width; `RD_I16` alone extends the sign. -/
theorem exec_numericReader {ix : Index} {reader : Instr} {width : Nat}
    (h : (reader, width) ∈ [(Instr.rdU8 ix, 1), (.rdU16 ix, 2), (.rdI16 ix, 2), (.rdU32 ix, 4), (.rdI32 ix, 4)])
    (s : State) :
    (∃ f ∈ segmentCommands, reader = f ix) ∧
      exec reader s = readNumber (indexValue s ix) width
        (if reader = .rdI16 ix then fun u => (BitVec.ofNat 16 u).signExtend 32 else BitVec.ofNat 32) s := by
  simp only [List.mem_cons, Prod.mk.injEq, List.not_mem_nil, or_false] at h
  obtain ⟨rfl, rfl⟩ | ⟨rfl, rfl⟩ | ⟨rfl, rfl⟩ | ⟨rfl, rfl⟩ | ⟨rfl, rfl⟩ := h
  · exact ⟨⟨.rdU8, by simp [segmentCommands], rfl⟩, by rw [if_neg (by simp)]; rfl⟩
  · exact ⟨⟨.rdU16, by simp [segmentCommands], rfl⟩, by rw [if_neg (by simp)]; rfl⟩
  · exact ⟨⟨.rdI16, by simp [segmentCommands], rfl⟩, by rw [if_pos rfl]; rfl⟩
  · exact ⟨⟨.rdU32, by simp [segmentCommands], rfl⟩, by rw [if_neg (by simp)]; rfl⟩
  · exact ⟨⟨.rdI32, by simp [segmentCommands], rfl⟩, by rw [if_neg (by simp)]; rfl⟩

/-- Settles O39: a found segment fits the reader's width or it does not; the rest is `findSegment`. -/
theorem numericReadersReassembleTheSegment : Obligations.NumericReadersReassembleTheSegment := by
  refine ⟨fun op f h n => ?_, fun s ix reader width result hmem hresult => ?_⟩
  · have hrow : (op, f) ∈ iFormRows :=
      List.mem_cons_of_mem _ (List.mem_append_left [(0x37#8, Instr.rdBytes)] h)
    exact ⟨decode_fieldWord hrow rfl n, decode_cursorWord hrow rfl⟩
  · obtain ⟨⟨f, hf, rfl⟩, hexec⟩ := exec_numericReader hmem s
    rw [← hresult] at hexec
    refine ⟨fun hin => ⟨fun st ln h => ?_, exec_of_not_located hf hin⟩, exec_of_outside hf⟩
    have hfound := findSegment_of_located hin h
    rw [hexec]
    refine ⟨fun hpos hle => ?_, readNumber_of_misfit hfound⟩
    rw [readNumber_of_fits hfound (Nat.ne_of_gt hpos) hle, State.segment, State.bufRange_eq_ofFn]
    rfl

/-! ## `RD_BYTES` (R167) -/

section
variable {s : State} {ix : Index} {st ln : Nat} (h : findSegment (indexValue s ix) s = .ok (st, ln))
include h

theorem execRdBytes_of_fits (hle : ln ≤ s.cfg.xbufSize) :
    ∃ t, exec (.rdBytes ix) s = .next t ∧ t = { s with xbuf := t.xbuf, res := BitVec.ofNat 32 ln, code := 0#4 } ∧
      ∀ j, t.xbufByte j = if j < ln then s.bufByte (6 + st + j) else s.xbufByte j := by
  refine ⟨((s.putXbuf 0 (s.segment (st, ln))).setRes (BitVec.ofNat 32 ln)).setCode .ok, ?_, rfl, fun j => ?_⟩
  · rw [exec, execRdBytes, h]
    exact if_neg (Nat.not_lt.2 hle)
  · have hbyte := State.xbufByte_putXbuf s 0 (s.segment (st, ln)) j
    simp only [State.segment, State.length_bufRange, State.getElem_bufRange, Nat.zero_le, true_and,
      Nat.zero_add, Nat.sub_zero] at hbyte
    exact hbyte

theorem execRdBytes_of_too_long (hlt : s.cfg.xbufSize < ln) :
    exec (.rdBytes ix) s = .next { s with code := 4#4 } := by
  rw [exec, execRdBytes, h]
  exact if_pos hlt

end

/-- Settles O40: a found segment fits `XBUF` or it does not; the rest is `findSegment`. -/
theorem readBytesCopiesTheSegment : Obligations.ReadBytesCopiesTheSegment := by
  have hrow : (0x37#8, Instr.rdBytes) ∈ iFormRows := by simp [iFormRows]
  have hmem : Instr.rdBytes ∈ segmentCommands := by simp [segmentCommands]
  refine ⟨decode_fieldWord hrow rfl, decode_cursorWord hrow rfl, fun s ix =>
    ⟨fun hin => ⟨fun st ln h => ?_, exec_of_not_located hmem hin⟩, exec_of_outside hmem⟩⟩
  have hfound := findSegment_of_located hin h
  exact ⟨execRdBytes_of_fits hfound, execRdBytes_of_too_long hfound⟩

end Machine
end Sys2Proof
end

section
/-! PROOFS. The segments of a state's payload (43_field_decode.md R174): which bytes of `BUF` a field is, and what
stands behind it. -/

namespace Sys2Proof.Machine

/-! ## A field inside the payload -/

/-- From its start on, the payload is the field and then the others, each behind a delimiter. -/
theorem drop_fieldStart_eq_append (d : Byte) {fs : List (List Byte)} {k : Nat} (h : k < fs.length) :
    (List.intercalate [d] fs).drop (fieldStart fs k) = fs[k] ++ (fs.drop (k + 1)).flatMap (d :: ·) := by
  rw [drop_fieldStart d h, List.drop_eq_getElem_cons h, intercalate_cons_eq_flatMap]

theorem IsFieldList.locate_getElem {d : Byte} {fs : List (List Byte)} (hfs : IsFieldList d fs) {k : Nat}
    (h : k < fs.length) :
    Machine.locate d k (List.intercalate [d] fs) = some (fieldStart fs k, fs[k].length) := by
  rw [hfs.locate, List.getElem?_eq_getElem h, Option.map_some]

/-- A range of `BUF` inside the payload is a piece of the payload. -/
theorem State.segment_eq_take_drop {s : State} {st ln : Nat} (h : st + ln ≤ s.dsize) :
    s.segment (st, ln) = (s.payload.drop st).take ln := by
  refine List.ext_getElem (by simp [State.segment]; omega) fun j _ _ => ?_
  simp [State.segment, State.payload, Nat.add_assoc]

section
variable {s : State} {fs : List (List Byte)} {k : Nat} (hfs : IsFieldList s.cfg.delim fs)
  (hpay : s.payload = List.intercalate [s.cfg.delim] fs) (hk : k < fs.length)
include hfs hpay hk

/-- `locate` finds each field of the payload. -/
theorem locate_payload : locate s.cfg.delim k s.payload = some (fieldStart fs k, fs[k].length) := by
  rw [hpay, hfs.locate_getElem hk]

theorem field_inside : fieldStart fs k + fs[k].length ≤ s.dsize :=
  locate_payload_inside (locate_payload hfs hpay hk)

/-- The segment found is the field. -/
theorem segment_eq_field : s.segment (fieldStart fs k, fs[k].length) = fs[k] := by
  rw [State.segment_eq_take_drop (field_inside hfs hpay hk), hpay, drop_fieldStart_eq_append _ hk, List.take_left]

theorem bufByte_field_ne_delim {j : Nat} (hj : j < fs[k].length) :
    s.bufByte (6 + fieldStart fs k + j) ≠ s.cfg.delim := by
  have hmem : s.bufByte (6 + fieldStart fs k + j) ∈ s.segment (fieldStart fs k, fs[k].length) :=
    List.mem_map_of_mem (List.mem_range.2 hj)
  rw [segment_eq_field hfs hpay hk] at hmem
  exact fun hdelim => hfs.not_mem _ (List.getElem_mem hk) (hdelim ▸ hmem)

/-- The last field ends with the payload. -/
theorem last_field_ends (hlast : k + 1 = fs.length) : fieldStart fs k + fs[k].length = s.dsize := by
  have hlen := congrArg List.length (drop_fieldStart_eq_append s.cfg.delim hk)
  have hinside := field_inside hfs hpay hk
  rw [← hpay, hlast, List.drop_length] at hlen
  simp only [List.length_drop, State.length_payload, List.flatMap_nil, List.append_nil] at hlen
  omega

omit hfs in
/-- A delimiter stands behind every other field. -/
theorem bufByte_behind_field (hnext : k + 1 < fs.length) :
    s.bufByte (6 + fieldStart fs k + fs[k].length) = s.cfg.delim := by
  have hbyte : s.payload[fieldStart fs k + fs[k].length]? = some s.cfg.delim := by
    rw [← List.getElem?_drop, hpay, drop_fieldStart_eq_append _ hk, List.getElem?_append_right (Nat.le_refl _),
      Nat.sub_self, List.drop_eq_getElem_cons hnext]
    rfl
  obtain ⟨hlt, hread⟩ := List.getElem?_eq_some_iff.1 hbyte
  rw [← hread, Nat.add_assoc]
  exact (State.getElem_bufRange s hdrLen s.dsize _ hlt).symm

end

/-! ## All segments (R174) -/

/-- Settles O41: the segments are the places of the fields the payload is cut into. -/
theorem segmentsCoverThePayload : Obligations.SegmentsCoverThePayload := by
  intro s hin
  obtain ⟨fs, hfs, hpay⟩ := exists_fieldList s.cfg.delim s.payload
  have hcount : countFields s.cfg.delim s.payload = fs.length := by rw [hpay, hfs.countFields]
  have hlocate : Instr.locate ∈ segmentCommands := by simp [segmentCommands]
  have hsegs (k : Nat) : (fs.mapIdx fun k f => (fieldStart fs k, f.length))[k]? =
      fs[k]?.map fun f => (fieldStart fs k, f.length) := List.getElem?_mapIdx
  refine ⟨fs.mapIdx fun k f => (fieldStart fs k, f.length), ?_, ?_, fun k hk => ?_, fun k hk => ?_⟩
  · rw [List.length_mapIdx, ← hcount]
    exact execFieldCount_of_inside hin
  · have hle := countFields_le s.cfg.delim s.payload
    rw [hcount, s.length_payload] at hle
    rw [List.length_mapIdx]
    exact hle.trans s.dsize_lt
  · rw [List.length_mapIdx] at hk ⊢
    refine ⟨fieldStart fs k, fs[k].length, by rw [hsegs, List.getElem?_eq_getElem hk, Option.map_some],
      execLocate_of_located (ix := .field k) hin (locate_payload hfs hpay hk), field_inside hfs hpay hk,
      fun j hj => bufByte_field_ne_delim hfs hpay hk hj, fun hzero => by rw [hzero, fieldStart_zero],
      last_field_ends hfs hpay hk, fun st ln h => ?_⟩
    rw [hsegs, Option.map_eq_some_iff] at h
    obtain ⟨f, hf, hplace⟩ := h
    obtain ⟨hnext, _⟩ := List.getElem?_eq_some_iff.1 hf
    obtain ⟨rfl, rfl⟩ := Prod.mk.inj hplace
    exact ⟨fieldStart_succ hk, bufByte_behind_field hpay hk hnext⟩
  · rw [List.length_mapIdx] at hk
    refine exec_of_not_located (ix := .field k) hlocate hin ?_
    rw [hpay, hfs.locate, indexValue, List.getElem?_eq_none hk, Option.map_none]

end Sys2Proof.Machine
end

section
/-! PROOFS. The cursor (43_field_decode.md R170 to R173): the count that `ensure_count` leaves, then the move to a
clamped index. -/

namespace Sys2Proof.Machine

/-! ## Filling the count -/

/-- The count a cursor command works with: the cached one, or that of the payload. -/
def CountIs (n : Nat) (s : State) : Prop :=
  (s.cvalid = true ∧ n = s.fcount.toNat) ∨
    (s.cvalid = false ∧ 6 + s.dsize ≤ s.cfg.bufSize ∧ n = countFields s.cfg.delim s.payload)

theorem ensureCount_of_countIs {n : Nat} {s : State} (h : CountIs n s) :
    ensureCount s = some (s.setCount (BitVec.ofNat 9 n) true) := by
  obtain ⟨hvalid, rfl⟩ | ⟨hvalid, hin, rfl⟩ := h
  · rw [ensureCount, if_pos hvalid, BitVec.ofNat_toNat, BitVec.setWidth_eq, State.setCount, ← hvalid]
  · rw [ensureCount, hvalid, if_pos ((payloadInside_iff s).2 hin)]
    rfl

theorem ensureCount_of_outside {s : State} (hvalid : s.cvalid = false) (hout : s.cfg.bufSize < 6 + s.dsize) :
    ensureCount s = none := by
  rw [ensureCount, hvalid, if_neg (mt (payloadInside_iff s).1 (Nat.not_le.2 hout))]
  rfl

/-! ## Moving -/

section
variable {s : State} {move : State → Int} {n : Nat}

theorem moveCursor_of_outside (hvalid : s.cvalid = false) (hout : s.cfg.bufSize < 6 + s.dsize) :
    moveCursor move s = .next { s with code := 4#4 } := by
  rw [moveCursor, ensureCount_of_outside hvalid hout]
  rfl

theorem moveCursor_of_no_field (h : CountIs 0 s) :
    moveCursor move s = .next { s with fcount := 0#9, cvalid := true, cidx := 0#8, code := 2#4 } := by
  rw [moveCursor, ensureCount_of_countIs h]
  rfl

/-- An index that fits its byte is what `clamp` stores. -/
theorem clampIndex_eq {u : State} {x : Int} {target : Nat}
    (h : min (max x 0) ((u.fcount.toNat : Int) - 1) = target) : clampIndex u x = BitVec.ofNat 8 target := by
  rw [clampIndex, h, BitVec.ofInt_natCast]

theorem moveCursor_of_fields {target : Nat} (h : CountIs n s) (hpos : 0 < n) (hle : n ≤ 256)
    (htarget : min (max (move (s.setCount (BitVec.ofNat 9 n) true)) 0) ((n : Int) - 1) = target) :
    moveCursor move s = .next
      { s with
        fcount := BitVec.ofNat 9 n
        cvalid := true
        cidx := BitVec.ofNat 8 target
        res := BitVec.ofNat 32 target
        code := 0#4 } := by
  have hcount : (BitVec.ofNat 9 n).toNat = n := Nat.mod_eq_of_lt (by omega)
  have hne : BitVec.ofNat 9 n ≠ 0#9 := fun h0 => by
    have hzero := congrArg BitVec.toNat h0
    rw [hcount] at hzero
    exact absurd hzero hpos.ne'
  have hclamp : clampIndex (s.setCount (BitVec.ofNat 9 n) true) (move (s.setCount (BitVec.ofNat 9 n) true)) =
      BitVec.ofNat 8 target := clampIndex_eq (by rw [setCount_fcount, hcount, htarget])
  have hwide : (BitVec.ofNat 8 target).setWidth 32 = BitVec.ofNat 32 target := by
    apply BitVec.eq_of_toNat_eq
    simp only [BitVec.toNat_setWidth, BitVec.toNat_ofNat]
    omega
  rw [moveCursor, ensureCount_of_countIs h]
  simp only [setCount_fcount, if_neg hne, hclamp, hwide]
  rfl

end

/-- Each cursor command is a move. -/
theorem exec_cursorCommand {i : Instr} (h : i ∈ cursorCommands) :
    ∃ move, ∀ s, exec i s = moveCursor move s := by
  simp only [cursorCommands, List.mem_cons, List.not_mem_nil, or_false] at h
  obtain rfl | rfl | rfl | rfl := h <;> exact ⟨_, fun _ => rfl⟩

/-- Settles O42: the outcomes of a move, and each command's target clamped. -/
theorem cursorCommandsMoveAndClamp : Obligations.CursorCommandsMoveAndClamp := by
  refine ⟨rfl, rfl, rfl, rfl, fun s i target n hi => ?_⟩
  obtain ⟨move, hmove⟩ := exec_cursorCommand hi
  refine ⟨fun ⟨hvalid, hout⟩ => ?_, fun hcount hle => ⟨?_, fun hpos htarget => ?_⟩⟩
  · rw [hmove, moveCursor_of_outside hvalid hout]
  · rintro rfl
    rw [hmove, moveCursor_of_no_field hcount]
  · have hfull : (BitVec.ofNat 9 n).toNat = n := Nat.mod_eq_of_lt (by omega)
    simp only [List.mem_cons, Prod.mk.injEq, List.not_mem_nil, or_false] at htarget
    obtain ⟨rfl, rfl⟩ | ⟨rfl, rfl⟩ | ⟨rfl, rfl⟩ | ⟨rfl, rfl⟩ := htarget
    · exact moveCursor_of_fields hcount hpos hle (by omega)
    · exact moveCursor_of_fields hcount hpos hle (by rw [setCount_fcount, hfull]; omega)
    · exact moveCursor_of_fields hcount hpos hle (by rw [setCount_cidx]; omega)
    · exact moveCursor_of_fields hcount hpos hle (by rw [setCount_cidx]; omega)

end Sys2Proof.Machine
end

section
/-! PROOFS. The round-trip law (43_field_decode.md R175): the payload a run of appends leaves, the field a reader
finds in it, and the value each kind of field denotes. -/

namespace Sys2Proof.Machine

/-! ## The payload after a run (42_field_encode.md R143) -/

/-- A run leaves `DSIZE` within the cap and keeps the parameters. -/
theorem AppendRun.keeps_cap {es : List (Instr × State)} :
    ∀ {s t : State}, configOk s.cfg = true → s.dsize ≤ s.cfg.maxSize - 8 → AppendRun s es t →
      t.cfg = s.cfg ∧ t.dsize ≤ s.cfg.maxSize - 8 := by
  induction es with
  | nil => rintro s _ _ hcap rfl; exact ⟨rfl, hcap⟩
  | cons e es ih =>
    rintro s t hok hcap ⟨hbuf, hcfg, hi, v, h, hcode, hrun⟩
    obtain ⟨hvcfg, _⟩ := payload_of_entry hok hbuf hcfg hi h hcode
    have hvcap := commandsKeepDsizeWithinTheCap e.1 e.2 v (hcfg ▸ hok) (by rwa [hcfg, State.dsize_congr hbuf]) h
    rw [← hvcfg]
    exact ih (hvcfg ▸ hok) (by rwa [hvcfg, ← hcfg]) hrun

/-- From the empty payload a run leaves its fields joined, but for empty ones at the front. -/
theorem AppendRun.payload_of_empty_dropWhile {es : List (Instr × State)} :
    ∀ {s t : State}, configOk s.cfg = true → s.dsize = 0 → AppendRun s es t →
      t.payload = List.intercalate [s.cfg.delim] ((es.dropWhile fun e => entryBytes e = []).map entryBytes) := by
  induction es with
  | nil => rintro s _ _ hempty rfl; simpa using (State.payload_eq_nil_iff _).2 hempty
  | cons e es ih =>
    intro s t hok hempty hrun
    by_cases he : entryBytes e = []
    · obtain ⟨hbuf, hcfg, hi, v, h, hcode, hrun⟩ := hrun
      obtain ⟨hvcfg, hv⟩ := payload_of_entry hok hbuf hcfg hi h hcode
      have hvempty : v.dsize = 0 := by
        rw [← State.payload_eq_nil_iff, hv, (State.payload_eq_nil_iff s).2 hempty, separator,
          if_neg (by omega), List.nil_append, List.nil_append]
        exact he
      rw [List.dropWhile_cons_of_pos (by simpa using he), ← hvcfg]
      exact ih (hvcfg ▸ hok) hvempty hrun
    · rw [List.dropWhile_cons_of_neg (by simpa using he)]
      exact (appendsBuildTheDelimitedPayload.1 s t e es hok hempty hrun he).1

/-! ## The field a reader finds -/

/-- The segment `r` that `ix` names is `bs`, and `XBUF` has room for it. -/
structure FieldAt (w : State) (ix : Index) (bs : List Byte) (r : Nat × Nat) : Prop where
  found : findSegment (indexValue w ix) w = .ok r
  bytes : w.segment r = bs
  fits : r.2 ≤ w.cfg.xbufSize

theorem FieldAt.length {w : State} {ix : Index} {bs : List Byte} {r : Nat × Nat} (h : FieldAt w ix bs r) :
    r.2 = bs.length := by
  rw [← h.bytes, State.segment, State.length_bufRange]

/-- A field of a payload within the cap is found at its number. -/
theorem exists_fieldAt {w : State} {fs : List (List Byte)} {ix : Index} {bs : List Byte}
    (hok : configOk w.cfg = true) (hcap : w.dsize ≤ w.cfg.maxSize - 8) (hfs : IsFieldList w.cfg.delim fs)
    (hpay : w.payload = List.intercalate [w.cfg.delim] fs) (h : fs[indexValue w ix]? = some bs) :
    ∃ r, FieldAt w ix bs r := by
  obtain ⟨hmin, hmax, _, _, hxbuf, _⟩ := (configOk_iff w.cfg).1 hok
  obtain ⟨hk, rfl⟩ := List.getElem?_eq_some_iff.1 h
  have hinside := field_inside hfs hpay hk
  exact ⟨_, findSegment_of_located (by omega) (locate_payload hfs hpay hk), segment_eq_field hfs hpay hk,
    show fs[indexValue w ix].length ≤ w.cfg.xbufSize by omega⟩

theorem isFieldList_map_entryBytes {d : Byte} {es : List (Instr × State)}
    (hdelim : ∀ e ∈ es, d ∉ entryBytes e) (hfull : ∀ e ∈ es, entryBytes e ≠ []) :
    IsFieldList d (es.map entryBytes) := by
  refine ⟨fun hone => ?_, fun f hf => ?_⟩
  · obtain ⟨e, hmem, hbytes⟩ := List.mem_map.1 (hone ▸ List.mem_singleton_self [])
    exact hfull e hmem hbytes
  · obtain ⟨e, hmem, rfl⟩ := List.mem_map.1 hf
    exact hdelim e hmem

/-- After a run, each field that counts is found at its number. -/
theorem AppendRun.exists_fieldAt {s t w : State} {es : List (Instr × State)} {e : Instr × State} {ix : Index}
    (hok : configOk s.cfg = true) (hempty : s.dsize = 0) (hrun : AppendRun s es t)
    (hdelim : ∀ e ∈ es, s.cfg.delim ∉ entryBytes e)
    (hfull : ∀ e ∈ es.dropWhile (fun e => entryBytes e = []), entryBytes e ≠ [])
    (he : (es.dropWhile fun e => entryBytes e = [])[indexValue w ix]? = some e)
    (hbuf : w.buf = t.buf) (hcfg : w.cfg = t.cfg) : ∃ r, FieldAt w ix (entryBytes e) r := by
  obtain ⟨htcfg, hcap⟩ := hrun.keeps_cap hok (by omega)
  have hpay := hrun.payload_of_empty_dropWhile hok hempty
  have hwcfg : w.cfg = s.cfg := hcfg.trans htcfg
  have hfs := isFieldList_map_entryBytes (fun e hmem => hdelim e ((List.dropWhile_sublist _).mem hmem)) hfull
  rw [← State.payload_congr hbuf, ← hwcfg] at hpay
  rw [← State.dsize_congr hbuf, ← hwcfg] at hcap
  rw [← hwcfg] at hok hfs
  exact Machine.exists_fieldAt hok hcap hfs hpay (by rw [List.getElem?_map, he, Option.map_some])

/-! ## The value of a field (R133) -/

theorem beValue_intBytes (v : Int) : (beValue (intBytes v) : Int) = v % 2 ^ (8 * (intBytes v).length) := by
  conv_lhs => rw [intBytes_eq_beBytes, beValue_beBytes]

/-- A field of a value that is not negative denotes it. -/
theorem beValue_intBytes_natCast {n : Nat} (h : n < 2 ^ 32) : beValue (intBytes (n : Int)) = n := by
  have hvalue := beValue_intBytes n
  rw [length_intBytes_natCast] at hvalue
  split_ifs at hvalue <;> norm_num at hvalue <;> omega

/-- A negative value in two bytes reads 65536 too high. -/
theorem beValue_intBytes_band {v : Int} (hlow : -32768 ≤ v) (hhigh : v ≤ -1) :
    (beValue (intBytes v) : Int) = v + 65536 := by
  have hvalue := beValue_intBytes v
  rw [length_intBytes, if_neg (by omega), if_pos (by omega)] at hvalue
  norm_num at hvalue
  omega

/-- A 16-bit field denotes its two's complement. -/
theorem beValue_intBytes_half (h : Half) : beValue (intBytes h.toInt) = h.toNat := by
  have hlow : -32768 ≤ h.toInt := h.le_toInt
  have hlt : h.toNat < 65536 := h.isLt
  have hint := BitVec.toInt_eq_toNat_cond h
  split_ifs at hint
  · rw [hint, beValue_intBytes_natCast (by omega)]
  · have hband := beValue_intBytes_band hlow (by omega)
    omega

/-- Outside the two-byte negative band, a 32-bit field denotes its two's complement. -/
theorem beValue_intBytes_word {w : Word} (h : ¬ (-32768 ≤ w.toInt ∧ w.toInt ≤ -1)) :
    beValue (intBytes w.toInt) = w.toNat := by
  have hlt : w.toNat < 4294967296 := w.isLt
  have hint := BitVec.toInt_eq_toNat_cond w
  split_ifs at hint
  · rw [hint, beValue_intBytes_natCast hlt]
  · have hvalue := beValue_intBytes w.toInt
    rw [length_intBytes, if_neg (by omega), if_neg (by omega)] at hvalue
    norm_num at hvalue
    omega

end Sys2Proof.Machine
end

section
/-! PROOFS. The rows of the round-trip table (43_field_decode.md R175), each from the field found at its place. -/

namespace Sys2Proof.Machine

/-! ## Reading a field that was found -/

theorem intBytes_ne_nil (v : Int) : intBytes v ≠ [] := by
  refine List.ne_nil_of_length_pos ?_
  rw [length_intBytes]
  split_ifs <;> decide

theorem beValue_singleton (b : Byte) : beValue [b] = b.toNat := by simp [beValue]

/-- A byte has no sign in 16 bits. -/
theorem signExtend_setWidth_byte (b : Byte) : (b.setWidth 16).signExtend 32 = b.setWidth 32 := by
  rw [BitVec.signExtend_eq_setWidth_of_msb_false (by simp [BitVec.msb_setWidth]),
    BitVec.setWidth_setWidth (by decide)]

/-- Reading a value 65536 too high in 16 signed bits gives the value. -/
theorem bmod_add_period {v : Int} (hlow : -32768 ≤ v) (hhigh : v < 32768) : (v + 65536).bmod (2 ^ 16) = v := by
  have hperiod : v + 65536 = v + ((2 ^ 16 : Nat) : Int) := rfl
  rw [hperiod, Int.add_bmod_right, Int.bmod_eq_of_le (by omega) (by omega)]

theorem ofNat_eq_ofInt {n : Nat} {v : Int} (h : (n : Int) = v) (w : Nat) : BitVec.ofNat w n = BitVec.ofInt w v := by
  rw [← h, BitVec.ofInt_natCast]

section
variable {w u : State} {ix : Index} {bs : List Byte} {r : Nat × Nat}

/-- A numeric reader on a field that fits its width. -/
theorem FieldAt.reads {i : Instr} {width : Nat} {f : Nat → Word} {v : Word} (h : FieldAt w ix bs r)
    (hexec : exec i w = readNumber (indexValue w ix) width f w) (hne : bs ≠ []) (hle : bs.length ≤ width)
    (hv : f (beValue bs) = v) : Reads i w v := by
  have hpos : r.2 ≠ 0 := by rw [h.length]; exact mt List.length_eq_zero_iff.1 hne
  rw [Reads, hexec, readNumber_of_fits h.found hpos (h.length ▸ hle), h.bytes, hv]
  rfl

/-! ## The rows -/

theorem FieldAt.readsBack_appU8 (h : FieldAt w ix (entryBytes (.appU8, u)) r) : ReadsBack .appU8 u w ix := by
  have hbytes : entryBytes (.appU8, u) = [opaByte u] := intBytes_byte (opaByte u)
  have hzero : BitVec.ofNat 32 (beValue [opaByte u]) = (opaByte u).setWidth 32 := by
    rw [beValue_singleton, BitVec.ofNat_toNat]
  have hsign : (BitVec.ofNat 16 (beValue [opaByte u])).signExtend 32 = (opaByte u).setWidth 32 := by
    rw [beValue_singleton, BitVec.ofNat_toNat, signExtend_setWidth_byte]
  rw [hbytes] at h
  intro reader hreader
  simp only [List.mem_cons, List.not_mem_nil, or_false] at hreader
  obtain rfl | rfl | rfl | rfl | rfl := hreader
  · exact h.reads rfl (by simp) (by simp) hzero
  · exact h.reads rfl (by simp) (by simp) hzero
  · exact h.reads rfl (by simp) (by simp) hzero
  · exact h.reads rfl (by simp) (by simp) hsign
  · exact h.reads rfl (by simp) (by simp) hzero

theorem FieldAt.readsBack_appU16 (h : FieldAt w ix (entryBytes (.appU16, u)) r) : ReadsBack .appU16 u w ix := by
  replace h : FieldAt w ix (intBytes ((opaHalf u).toNat : Int)) r := h
  have hne := intBytes_ne_nil ((opaHalf u).toNat : Int)
  have hlen := length_intBytes_half (opaHalf u)
  have hle : (intBytes ((opaHalf u).toNat : Int)).length ≤ 2 := by rw [hlen]; split <;> decide
  have hvalue : BitVec.ofNat 32 (beValue (intBytes ((opaHalf u).toNat : Int))) = (opaHalf u).setWidth 32 := by
    rw [beValue_intBytes_natCast ((opaHalf u).isLt.trans (by decide)), BitVec.ofNat_toNat]
  refine ⟨h.reads rfl hne hle hvalue, h.reads rfl hne (hle.trans (by decide)) hvalue, ?_⟩
  split
  next hsmall => exact h.reads rfl hne (by rw [hlen]; exact (if_pos hsmall).le) hvalue
  next hlarge =>
    have htwo : r.2 = 2 := h.length.trans (hlen.trans (if_neg hlarge))
    exact readNumber_of_misfit h.found (.inr (by omega))

theorem FieldAt.readsBack_appI16 (h : FieldAt w ix (entryBytes (.appI16, u)) r) : ReadsBack .appI16 u w ix := by
  replace h : FieldAt w ix (intBytes (opaHalf u).toInt) r := h
  have hne := intBytes_ne_nil (opaHalf u).toInt
  have hle : (intBytes (opaHalf u).toInt).length ≤ 2 := by rw [length_intBytes_signedHalf]; split <;> decide
  have hvalue := beValue_intBytes_half (opaHalf u)
  refine ⟨h.reads rfl hne hle ?_, h.reads rfl hne (hle.trans (by decide)) ?_⟩
  · rw [hvalue, BitVec.ofNat_toNat, BitVec.setWidth_eq]
    rfl
  · rw [hvalue, BitVec.ofNat_toNat]
    rfl

theorem FieldAt.readsBack_appU32 (h : FieldAt w ix (entryBytes (.appU32, u)) r) : ReadsBack .appU32 u w ix := by
  replace h : FieldAt w ix (intBytes (u.opa.toNat : Int)) r := h
  refine h.reads rfl (intBytes_ne_nil _) (length_intBytes_le _) ?_
  rw [beValue_intBytes_natCast u.opa.isLt, BitVec.ofNat_toNat, BitVec.setWidth_eq]

theorem FieldAt.readsBack_appI32 (h : FieldAt w ix (entryBytes (.appI32, u)) r) : ReadsBack .appI32 u w ix := by
  replace h : FieldAt w ix (intBytes u.opa.toInt) r := h
  have hne := intBytes_ne_nil u.opa.toInt
  rw [ReadsBack]
  split
  next hband =>
    obtain ⟨hlow, hhigh⟩ := hband
    have hlen : (intBytes u.opa.toInt).length = 2 := by
      rw [length_intBytes, if_neg (by omega), if_pos (by omega)]
    have hvalue := beValue_intBytes_band hlow hhigh
    refine ⟨h.reads rfl hne (by omega) ?_, h.reads rfl hne (by omega) ?_⟩
    · rw [ofNat_eq_ofInt hvalue, BitVec.ofInt_add, BitVec.ofInt_toInt]
      rfl
    · apply BitVec.eq_of_toInt_eq
      rw [BitVec.toInt_signExtend_of_le (by decide), ofNat_eq_ofInt hvalue, BitVec.toInt_ofInt]
      exact bmod_add_period hlow (by omega)
  next hband =>
    refine h.reads rfl hne (length_intBytes_le _) ?_
    rw [beValue_intBytes_word hband, BitVec.ofNat_toNat, BitVec.setWidth_eq]

theorem FieldAt.readsBack_appBool (h : FieldAt w ix (entryBytes (.appBool, u)) r) : ReadsBack .appBool u w ix := by
  replace h : FieldAt w ix [valueBool u] r := h
  refine h.reads rfl (by simp) (by simp) ?_
  rw [beValue_singleton, valueBool]
  split <;> rfl

theorem FieldAt.readsBack_appFloat (h : FieldAt w ix (entryBytes (.appFloat, u)) r) :
    ReadsBack .appFloat u w ix := by
  intro t ht
  have hbytes : entryBytes (.appFloat, u) = beBytes t 4 := by simp [entryBytes, fieldBytes, ht]
  have hlen := length_beBytes t 4
  rw [hbytes] at h
  refine h.reads rfl (List.ne_nil_of_length_pos (by omega)) hlen.le ?_
  rw [ofNat_eq_ofInt (beValue_beBytes t 4)]
  apply BitVec.eq_of_toNat_eq
  rw [BitVec.toNat_ofInt, BitVec.toNat_ofInt, Int.emod_emod_of_dvd _ (by norm_num)]

theorem FieldAt.readsBack_appStr (h : FieldAt w ix (entryBytes (.appStr, u)) r) : ReadsBack .appStr u w ix := by
  replace h : FieldAt w ix (u.xbufRange 0 (byteCount u)) r := h
  have hlen : r.2 = byteCount u := by rw [h.length, State.length_xbufRange]
  obtain ⟨x, hexec, hx, hbytes⟩ := execRdBytes_of_fits h.found h.fits
  rw [hlen] at hx hbytes
  refine ⟨x, hexec, hx, fun j => ?_⟩
  rw [hbytes]
  split
  next hj =>
    have hread := congrArg (·[j]?) h.bytes
    simpa [State.segment, hdrLen, hlen, hj] using hread
  next => rfl

/-- The table of R175. -/
theorem FieldAt.readsBack {i : Instr} (h : FieldAt w ix (entryBytes (i, u)) r) : ReadsBack i u w ix := by
  cases i with
  | appU8 => exact h.readsBack_appU8
  | appU16 => exact h.readsBack_appU16
  | appI16 => exact h.readsBack_appI16
  | appU32 => exact h.readsBack_appU32
  | appI32 => exact h.readsBack_appI32
  | appBool => exact h.readsBack_appBool
  | appFloat => exact h.readsBack_appFloat
  | appStr => exact h.readsBack_appStr
  | _ => trivial

end

/-- Settles O36: the field is found at its number, and reads back by its row. -/
theorem appendedFieldsReadBack : Obligations.AppendedFieldsReadBack := by
  rintro s t es hok hempty hrun hdelim hfull k i u w ix he hbuf hcfg rfl
  obtain ⟨r, hfield⟩ := hrun.exists_fieldAt hok hempty hdelim hfull he hbuf hcfg
  exact hfield.readsBack

end Sys2Proof.Machine
end

section
/-! PROOFS. The control commands (45_control.md R200, R201): a Z-form command has one word, and `SRESET` is the
reset input but for `CMD`. -/

namespace Sys2Proof

/-- The one word of a command without an index operand is its encoding (R72, R76). -/
theorem decode_eq_ok_iff_eq_encode {i : Instr} (hz : indexOperand i = none) {w : Word} :
    decode w = .ok i ↔ w = encode i := by
  constructor
  · intro h
    obtain ⟨hrsv, hop, ⟨_, hidx, hc⟩ | hi⟩ := decode_eq_ok_iff.1 h
    · rw [← commandWord_fields w, hrsv, hc, hidx, ← hop, encode, hz]
    · rw [hz] at hi
      cases hi
  · rintro rfl
    exact decodeOfEncodeIsTheCommand i (zForm_wellFormed (zForm_eq_some_iff.2 ⟨rfl, hz⟩))

namespace Machine

/-- Settles O14: `OP = 0` stands in the row of `NOP` alone, whose one word is 0. -/
theorem nopSetsOnlyTheCode : Obligations.NopSetsOnlyTheCode := by
  refine ⟨fun w hop => ?_, fun s => rfl⟩
  have hword : decode w = .ok .nop ↔ w = 0x00000000#32 := decode_eq_ok_iff_eq_encode rfl
  have hrow : zForm (fieldOp w) = some .nop := congrArg zForm hop
  refine ⟨hword, fun hne i h => hne (hword.1 ?_)⟩
  obtain ⟨rfl, _⟩ := (decode_of_zForm hrow i).1 h
  exact h

/-- The code's reset value is `OK`, so ending with `OK` adds nothing to the reset (R40, R201). -/
theorem exec_sreset (s : State) : exec .sreset s = .next s.resetKeepingCmd := rfl

/-- A reset keeps the command word and the inputs that wait, whatever they are. -/
theorem resetKeepingCmd_setCmd_setInputs (s : State) (w : Word) (l : List Input) :
    ((s.setInputs l).setCmd w).resetKeepingCmd = (s.resetKeepingCmd.setCmd w).setInputs l := rfl

theorem step_sreset {s : State} {rest : List Input} (hok : configOk s.cfg = true)
    (hinputs : s.inputs = .access (.write 0x000 32 0x00000001#32) :: rest) :
    step s = .next ((s.resetKeepingCmd.setCmd 0x00000001#32).setInputs rest) := by
  obtain ⟨_, hstep⟩ := stepRunsTheDecodedCommand s 0x00000001#32 .sreset rest hok hinputs rfl
  calc step s = exec .sreset ((s.setInputs rest).setCmd 0x00000001#32) := hstep
    _ = .next ((s.setInputs rest).setCmd 0x00000001#32).resetKeepingCmd := exec_sreset _
    _ = .next ((s.resetKeepingCmd.setCmd 0x00000001#32).setInputs rest) := by
      rw [resetKeepingCmd_setCmd_setInputs]

theorem step_resetInput {s : State} {rest : List Input} (hok : configOk s.cfg = true)
    (hinputs : s.inputs = .resetInput :: rest) :
    step s = .next ((s.resetKeepingCmd.setCmd 0#32).setInputs rest) :=
  step_of_input hok hinputs

/-- Settles O15: `SRESET` leaves `resetKeepingCmd`, and so do both steps but for `CMD` and the queue. -/
theorem sresetLeavesTheResetStateButCmd : Obligations.SresetLeavesTheResetStateButCmd := by
  refine ⟨rfl, fun s => ⟨s.resetKeepingCmd, exec_sreset s, ?_⟩⟩
  have hbuf : ∀ a, s.resetKeepingCmd.bufByte a = 0#8 := State.bufByte_nil (resetKeepingCmd_buf s)
  exact ⟨rfl, rfl, rfl, rfl, rfl, rfl, rfl, rfl, rfl, rfl, rfl, rfl, rfl, hbuf, rfl, rfl, rfl,
    fun _ => step_sreset, fun _ => step_resetInput⟩

end Machine
end Sys2Proof
end

section
/-! PROOFS. How commands end (60_exceptions.md R210 to R214): every command completes, its code is one of its
row of R213, and a failure writes the code and little else. Each is read off `Effect`, the list of the next
states a command can leave. -/

namespace Sys2Proof.Machine

/-- Settles O44: `exec_answers`, the case split over the commands. -/
theorem everyCommandCompletes : Obligations.EveryCommandCompletes := exec_answers

/-! ## The codes (R213) -/

/-- Every row of R213 lists `OK`. -/
theorem ok_mem_codesOf (i : Instr) : codeBits .ok ∈ codesOf i := by
  unfold codesOf
  split <;> exact List.mem_cons_self

theorem notFound_mem_codesOf {i : Instr} (hi : i ∈ cursorCommands) : codeBits .notFound ∈ codesOf i := by
  fin_cases hi <;> decide

theorem Effect.code_mem_codesOf {i : Instr} {s t : State} (e : Effect s i t) : t.code ∈ codesOf i := by
  cases e with
  | code _ _ hlisted => exact hlisted
  | mismatched => exact (by decide : codeBits .auth ∈ codesOf .msgVerify)
  | noField hcursor => exact notFound_mem_codesOf hcursor
  | _ => exact ok_mem_codesOf _

/-- Settles O46: a failure's code is in its command's row, and `OK` is in every row. -/
theorem commandsEndWithTheirCodes : Obligations.CommandsEndWithTheirCodes := by
  intro i s
  obtain ⟨t, ht⟩ := exec_answers i s
  exact ⟨t, ht, (exec_effect ht).code_mem_codesOf⟩

/-! ## What a failure writes (R214) -/

/-- Where the filled count is 0, filling it set the count to 0 and changed nothing else. -/
theorem eq_setCount_zero_of_ensureCount {s u : State} (hu : ensureCount s = some u) (h0 : u.fcount = 0#9) :
    u = s.setCount 0#9 true := by
  rw [← h0]
  exact ensureCount_eq_setCount hu

/-- The outcomes with a code other than `OK`: only the code, or one of the exceptions of R214. -/
theorem Effect.failure_cases {i : Instr} {s t : State} (e : Effect s i t) (hcode : t.code ≠ 0#4) :
    t = { s with code := t.code } ∨
    (i = .msgVerify ∧ t.code = 5#4 ∧ t = { s with crc := t.crc, res := 0#32, code := 5#4 }) ∨
    (i ∈ cursorCommands ∧ t.code = 2#4 ∧
      t = { s with fcount := 0#9, cvalid := true, cidx := 0#8, code := 2#4 }) := by
  cases e with
  | code => exact .inl rfl
  | mismatched => exact .inr (.inl ⟨rfl, rfl, rfl⟩)
  | noField hcursor hu h0 =>
    rw [eq_setCount_zero_of_ensureCount hu h0]
    exact .inr (.inr ⟨hcursor, rfl, rfl⟩)
  | _ => exact absurd rfl hcode

/-- Settles O45: a command's failures are those of `Effect.failure_cases`, and an illegal word's step is the one
R76 gives it. -/
theorem failuresWriteNothingButTheCode : Obligations.FailuresWriteNothingButTheCode := by
  refine ⟨fun i s => ?_, fun s w rest hundecoded hok hinputs => ?_⟩
  · obtain ⟨t, ht⟩ := exec_answers i s
    exact ⟨t, ht, (exec_effect ht).failure_cases⟩
  · obtain ⟨hillegal, hstep⟩ := illegalWordsAreThoseOfRuleSeventySix w
    exact hstep s rest (hillegal.1 hundecoded) hok hinputs

end Sys2Proof.Machine
end

section
/-! PROOFS. Resets and the stale count (70_reset_and_hazards.md R240, R250): what the platform's two resets leave,
and a computed count that is kept, and decides the cursor alone, until `CLEAR` or `SRESET`. -/

namespace Sys2Proof.Machine

/-! ## The reset input and a power-up (R240) -/

/-- A power-up keeps the parameters and the queues of the outside, and counts itself. -/
theorem step_powerUp {s : State} {rest : List Input} (hok : configOk s.cfg = true)
    (hinputs : s.inputs = .powerUp :: rest) : step s = .next (s.powerUpAgain.setInputs rest) :=
  step_of_input hok hinputs

/-- A cell of `XBUF` that nothing has written holds the power-up's draw (R41). -/
theorem State.xbufByte_nil {s : State} (h : s.xbuf = []) (a : Nat) :
    s.xbufByte a = Config.xbufPowerUp s.powerUps a := by
  rw [State.xbufByte, h]
  rfl

/-- Settles O11: the states of `step_resetInput` and `step_powerUp`, whose registers are the reset values and whose
`BUF` is unwritten; `XBUF` is kept by the first and unwritten in the second. -/
theorem resetInputAndPowerUpLeaveTheResetValues : Obligations.ResetInputAndPowerUpLeaveTheResetValues := by
  refine fun s rest hok => ⟨fun hreset => ?_, fun hpower => ?_⟩
  · have hbuf : ∀ a, ((s.resetKeepingCmd.setCmd 0#32).setInputs rest).bufByte a = 0#8 := State.bufByte_nil rfl
    exact ⟨_, step_resetInput hok hreset, rfl, rfl, rfl, rfl, rfl, rfl, rfl, rfl, rfl, rfl, rfl, rfl, rfl,
      hbuf, rfl, rfl, rfl⟩
  · have hbuf : ∀ a, (s.powerUpAgain.setInputs rest).bufByte a = 0#8 := State.bufByte_nil rfl
    have hxbuf : ∀ a, (s.powerUpAgain.setInputs rest).xbufByte a = Config.xbufPowerUp (s.powerUps + 1) a :=
      State.xbufByte_nil rfl
    exact ⟨_, step_powerUp hok hpower, rfl, rfl, rfl, rfl, rfl, rfl, rfl, rfl, rfl, rfl, rfl,
      hbuf, rfl, rfl, rfl, rfl, hxbuf⟩

/-! ## The cached count (R36, R250) -/

theorem ensureCount_of_cached {s : State} (hvalid : s.cvalid = true) : ensureCount s = some s := if_pos hvalid

/-- The cursor belongs to the cursor commands and the two that forget it. -/
theorem Effect.keeps_cursor {i : Instr} {s t : State} (e : Effect s i t) (hcursor : i ∉ cursorCommands)
    (hclear : i ≠ .clear) (hreset : i ≠ .sreset) :
    t.fcount = s.fcount ∧ t.cvalid = s.cvalid ∧ t.cidx = s.cidx := by
  cases e with
  | reset => exact absurd rfl hreset
  | cleared => exact absurd rfl hclear
  | noField hmem | moved hmem => exact absurd hmem hcursor
  | appended => simp [appendState]
  | _ => simp

/-- A cursor command moves to a target it reads off the cursor, whatever `BUF` holds. -/
theorem exec_cursorCommand_target {i : Instr} (h : i ∈ cursorCommands) :
    ∃ move, (∀ s, exec i s = moveCursor move s) ∧ ∀ (s : State) (m : Memory), move (s.setBuf m) = move s := by
  simp only [cursorCommands, List.mem_cons, List.not_mem_nil, or_false] at h
  obtain rfl | rfl | rfl | rfl := h <;> exact ⟨_, fun _ => rfl, fun _ _ => rfl⟩

section
variable {move : State → Int} {s t : State}

theorem moveCursor_of_cached_zero (hvalid : s.cvalid = true) (h0 : s.fcount = 0#9) :
    moveCursor move s = .next { s with cidx := 0#8, code := 2#4 } := by
  have hcount : CountIs 0 s := .inl ⟨hvalid, by rw [h0]; rfl⟩
  rw [moveCursor_of_no_field hcount, h0, hvalid]

theorem moveCursor_of_cached_fields (hvalid : s.cvalid = true) (h0 : s.fcount ≠ 0#9) :
    moveCursor move s = finish .ok ((s.setCidx (clampIndex s (move s))).setRes
      ((clampIndex s (move s)).setWidth 32)) := by
  rw [moveCursor, ensureCount_of_cached hvalid]
  exact if_neg h0

theorem moveCursor_keeps_cached_count (hvalid : s.cvalid = true) (h : moveCursor move s = .next t) :
    t.fcount = s.fcount ∧ t.cvalid = true := by
  by_cases h0 : s.fcount = 0#9
  · rw [moveCursor_of_cached_zero hvalid h0] at h
    cases h
    exact ⟨rfl, hvalid⟩
  · rw [moveCursor_of_cached_fields hvalid h0] at h
    cases h
    exact ⟨rfl, hvalid⟩

/-- With a computed count the move reads `BUF` nowhere, so another `BUF` is only carried along. -/
theorem moveCursor_setBuf_of_cached {m : Memory} (hmove : move (s.setBuf m) = move s) (hvalid : s.cvalid = true)
    (h : moveCursor move s = .next t) : moveCursor move (s.setBuf m) = .next (t.setBuf m) := by
  by_cases h0 : s.fcount = 0#9
  · rw [moveCursor_of_cached_zero hvalid h0] at h
    cases h
    exact moveCursor_of_cached_zero hvalid h0
  · have hclamp : clampIndex (s.setBuf m) (move s) = clampIndex s (move s) := clampIndex_congr rfl _
    rw [moveCursor_of_cached_fields hvalid h0] at h
    cases h
    have hmoved := moveCursor_of_cached_fields (move := move) (s := s.setBuf m) hvalid h0
    rw [hmove, hclamp] at hmoved
    exact hmoved

end

/-- Settles O43: the frame of the other commands, and the three facts about a move with a computed count. -/
theorem cachedCountIsKeptUntilCleared : Obligations.CachedCountIsKeptUntilCleared := by
  refine ⟨fun i s hcursor hclear hreset => ?_, fun i s m hcursor hvalid => ?_⟩
  · obtain ⟨t, ht⟩ := exec_answers i s
    exact ⟨t, ht, (exec_effect ht).keeps_cursor hcursor hclear hreset⟩
  · obtain ⟨move, hexec, hmove⟩ := exec_cursorCommand_target hcursor
    obtain ⟨t, ht⟩ := moveCursor_answers move s
    obtain ⟨hcount, hkept⟩ := moveCursor_keeps_cached_count hvalid ht
    have hbuf := moveCursor_setBuf_of_cached (hmove s m) hvalid ht
    refine ⟨t, (hexec s).trans ht, hcount, hkept, (hexec _).trans hbuf, fun h0 => ?_⟩
    rw [moveCursor_of_cached_zero hvalid h0] at ht
    cases ht
    rfl

end Sys2Proof.Machine
end
